-- ==== Sys2Proof/Word.lean ====
section
/-! DEFINITION. The word, the byte and the bit sequence of the block (spec/00_scope.md R11 to R13). -/

namespace Sys2Proof

/-- A 32-bit register value or command word (R11). -/
abbrev Word := BitVec 32

/-- A byte: one symbol, one element of a stream (R5, R11). -/
abbrev Byte := BitVec 8

/-- A bit sequence in stream order, first bit first (R13). -/
abbrev Bits := List Bool

end Sys2Proof
end

