-- ==== Sys2Proof/Config.lean ====
section
/-! DEFINITION. What one implementation of the block fixes (spec/00_scope.md R6), and the free values. -/

namespace Sys2Proof

/-- The named parameter HDR_ORDER: the byte order of the two 32-bit header integers (R6). -/
inductive HdrOrder where
  /-- least significant byte first; CONFIG[0] reads 0 -/
  | le
  /-- most significant byte first; CONFIG[0] reads 1 -/
  | be
  deriving DecidableEq, Repr

/-- The fixed parameters of one block. No step writes them (R63, R84). The parameter LATENCY (R8) has no
member: no rule depends on it. -/
structure Config where
  /-- HDR_ORDER (R6) -/
  hdrOrder : HdrOrder
  deriving DecidableEq, Repr

/-- FREE VALUE (log 4): what a register read returns while BUSY = 1 where the spec leaves it unspecified
(spec/20_memory.md R89, spec/93_implementation_defined.md I6). It is applied to the counter State.draws, so that
every such read draws anew. -/
opaque Config.freeWord : Nat → Word

/-- FREE VALUE (log 5): how many source reads and sink writes a command in progress makes before the host's next move
(spec/20_memory.md R90, R94, spec/70_reset_and_hazards.md R340). It is applied to State.draws. -/
opaque Config.freeCount : Nat → Nat

end Sys2Proof
end

