-- ==== Sys2Proof/Syntax.lean ====
section
/-! DEFINITION. The commands of the block, one constructor per row of spec/opcode_table.json
(spec/30_encoding.md R105). -/

namespace Sys2Proof

/-- A command of the block. Operands are the fields of the command word as R101 assembles them. -/
inductive Instr where
  /-- NOP (R270) -/
  | nop
  /-- SOFT_RESET (R271) -/
  | softReset
  /-- ADD_SYMBOL s (R130) -/
  | addSymbol (sym : Byte)
  /-- COUNT_SRC (R133) -/
  | countSrc
  /-- BUILD (R139) -/
  | build
  /-- ASSIGN_CODES (R147) -/
  | assignCodes
  /-- MAKE_HEADER (R152) -/
  | makeHeader
  /-- SERIALIZE (R174) -/
  | serialize
  /-- DESERIALIZE (R180) -/
  | deserialize
  /-- PUSH_BITS n, d (R203): the count NBITS and the data byte SYM -/
  | pushBits (nbits : BitVec 4) (data : Byte)
  /-- PUSH_CODE s (R204) -/
  | pushCode (sym : Byte)
  /-- FLUSH (R206) -/
  | flush
  /-- ENCODE_SRC (R207) -/
  | encodeSrc
  /-- DECODE_STEP (R239) -/
  | decodeStep
  /-- DECODE_FINISH (R243) -/
  | decodeFinish
  /-- DECODE_RUN (R246) -/
  | decodeRun
  deriving DecidableEq, Repr

end Sys2Proof
end

