-- ==== Sys2Proof/WellFormed.lean ====
section
/-! DEFINITION. The checks on a command's operands (spec/30_encoding.md R101 to R104). -/

namespace Sys2Proof

/-- NBITS is 1 to 8 (R104). -/
def bitCountOk (n : BitVec 4) : Bool :=
  decide (1 ≤ n.toNat) && decide (n.toNat ≤ 8)

/-- The bits of SYM at and above NBITS are 0 (R104; nothing to check when NBITS is 8). -/
def dataBitsOk (n : BitVec 4) (d : Byte) : Bool :=
  d >>> n.toNat == 0#8

/-- A command whose operands the encoding admits. Every SYM value is legal for ADD_SYMBOL and PUSH_CODE (R103); only
PUSH_BITS constrains its operands (R104). -/
def Instr.wf : Instr → Bool
  | .nop => true
  | .softReset => true
  | .addSymbol _ => true
  | .countSrc => true
  | .build => true
  | .assignCodes => true
  | .makeHeader => true
  | .serialize => true
  | .deserialize => true
  | .pushBits n d => bitCountOk n && dataBitsOk n d
  | .pushCode _ => true
  | .flush => true
  | .encodeSrc => true
  | .decodeStep => true
  | .decodeFinish => true
  | .decodeRun => true

end Sys2Proof
end

