-- ==== Sys2Proof/Decode.lean ====
section
/-! DEFINITION. The command decoder and encoder (spec/30_encoding.md R100 to R107). Every 32-bit word is exactly one
legal command or is rejected by name; every rejection is IllegalCommand to the machine (R107). -/

namespace Sys2Proof

/-- Why a word is no legal command. -/
inductive Reject where
  /-- an OPC value outside the opcode map (R106) -/
  | reservedOpcode
  /-- nonzero bits where the command's word must hold 0 (R102, R103, RSV of R104) -/
  | reservedBits
  /-- PUSH_BITS with NBITS 0 or above 8 (R104) -/
  | badBitCount
  /-- PUSH_BITS with a data bit set at or above NBITS (R104) -/
  | unusedDataBits
  deriving DecidableEq, Repr

/-- OPC = w[7:0] (R100). -/
def opcField (w : Word) : Byte := w.extractLsb' 0 8

/-- SYM = w[15:8], unsigned (R100, R101). -/
def symField (w : Word) : Byte := w.extractLsb' 8 8

/-- NBITS = w[19:16], unsigned (R100, R101). -/
def nbitsField (w : Word) : BitVec 4 := w.extractLsb' 16 4

/-- RSV = w[31:20] (R100). -/
def rsvField (w : Word) : BitVec 12 := w.extractLsb' 20 12

/-- A command without operands: bits [31:8] must be 0 (R102). -/
def decodePlain (w : Word) (i : Instr) : Except Reject Instr :=
  if symField w = 0#8 ∧ nbitsField w = 0#4 ∧ rsvField w = 0#12 then .ok i else .error .reservedBits

/-- A command with a symbol operand: bits [31:16] must be 0 (R103). -/
def decodeSym (w : Word) (mk : Byte → Instr) : Except Reject Instr :=
  if nbitsField w = 0#4 ∧ rsvField w = 0#12 then .ok (mk (symField w)) else .error .reservedBits

/-- PUSH_BITS (R104). -/
def decodePushBits (w : Word) : Except Reject Instr :=
  if rsvField w ≠ 0#12 then .error .reservedBits
  else if bitCountOk (nbitsField w) = false then .error .badBitCount
  else if dataBitsOk (nbitsField w) (symField w) = false then .error .unusedDataBits
  else .ok (.pushBits (nbitsField w) (symField w))

/-- The decoder: the command from OPC alone, then its operand fields (R100, R105, R106). -/
def decode (w : Word) : Except Reject Instr :=
  match (opcField w).toNat with
  | 0x00 => decodePlain w .nop
  | 0x01 => decodePlain w .softReset
  | 0x10 => decodeSym w .addSymbol
  | 0x11 => decodePlain w .countSrc
  | 0x12 => decodePlain w .build
  | 0x13 => decodePlain w .assignCodes
  | 0x14 => decodePlain w .makeHeader
  | 0x20 => decodePlain w .serialize
  | 0x21 => decodePlain w .deserialize
  | 0x30 => decodePushBits w
  | 0x31 => decodeSym w .pushCode
  | 0x32 => decodePlain w .flush
  | 0x33 => decodePlain w .encodeSrc
  | 0x40 => decodePlain w .decodeStep
  | 0x41 => decodePlain w .decodeFinish
  | 0x42 => decodePlain w .decodeRun
  | _ => .error .reservedOpcode

/-- The OPC byte of a command (R105). -/
def opcode : Instr → Byte
  | .nop => 0x00#8
  | .softReset => 0x01#8
  | .addSymbol _ => 0x10#8
  | .countSrc => 0x11#8
  | .build => 0x12#8
  | .assignCodes => 0x13#8
  | .makeHeader => 0x14#8
  | .serialize => 0x20#8
  | .deserialize => 0x21#8
  | .pushBits _ _ => 0x30#8
  | .pushCode _ => 0x31#8
  | .flush => 0x32#8
  | .encodeSrc => 0x33#8
  | .decodeStep => 0x40#8
  | .decodeFinish => 0x41#8
  | .decodeRun => 0x42#8

/-- The one word format RSV ‖ NBITS ‖ SYM ‖ OPC with RSV = 0 (R100). -/
def packWord (nbits : BitVec 4) (sym opc : Byte) : Word :=
  0#12 ++ nbits ++ sym ++ opc

/-- The encoder: the word of a command, from the word column of R105. -/
def encode : Instr → Word
  | .nop => 0x00000000#32
  | .softReset => 0x00000001#32
  | .addSymbol s => packWord 0#4 s 0x10#8
  | .countSrc => 0x00000011#32
  | .build => 0x00000012#32
  | .assignCodes => 0x00000013#32
  | .makeHeader => 0x00000014#32
  | .serialize => 0x00000020#32
  | .deserialize => 0x00000021#32
  | .pushBits n d => packWord n d 0x30#8
  | .pushCode s => packWord 0#4 s 0x31#8
  | .flush => 0x00000032#32
  | .encodeSrc => 0x00000033#32
  | .decodeStep => 0x00000040#32
  | .decodeFinish => 0x00000041#32
  | .decodeRun => 0x00000042#32

/-- The command of an instruction word as spec/opcode_table.json numbers its bits; bits from `nbits` up are 0. A command
is one 32-bit word moved whole by one register write, so no byte order comes in (R86, R100). -/
def decodeTableWord (nbits w : Nat) : Option Instr :=
  match decode (BitVec.ofNat 32 (w % 2 ^ nbits)) with
  | .ok i => some i
  | .error _ => none

end Sys2Proof
end

