-- ==== Sys2Proof/Machine/State.lean ====
section
/-! DEFINITION. The state of the block, its ports and its host, as plain data (spec/10_state.md R30 to R53, R70). -/

namespace Sys2Proof.Machine

open Sys2Proof

/-- PHASE: how far the block has gone through one operation (R35). Values 5 to 7 do not exist (I14). -/
inductive Phase where
  /-- frequency table open for counting -/
  | count
  /-- tree built, possibly absent -/
  | built
  /-- code table entries assigned from the tree -/
  | coded
  /-- code table and header counts present -/
  | ready
  /-- a decode ended with its final check passed -/
  | done
  deriving DecidableEq, Repr

/-- The error kinds of spec/60_exceptions.md R300. -/
inductive ErrKind where
  | sourceUnavailable
  | truncatedHeader
  | corruptPayload
  | trailingOrMissingData
  | illegalCommand
  | sequenceError
  | unknownSymbol
  | headerRange
  | overflow
  deriving DecidableEq, Repr

/-- One node of the arena (R39). A leaf has `left = right = 0`, an internal node has `sym = 0`. -/
structure Node where
  weight : Word
  isLeaf : Bool
  sym : Byte
  left : Fin 511
  right : Fin 511
  deriving DecidableEq, Repr

/-- One code table entry (R41). The field `len` of R41 is the length of `code` (Entry.len), kept in one place; the cells
past the last bit read 0 (Entry.cell). -/
structure Entry where
  sym : Byte
  code : Bits
  deriving DecidableEq, Repr

/-- The block's own state (R30): every field is named and sized there. -/
structure Block where
  /-- BUSY (R31) -/
  busy : Bool
  /-- PENDING (R31) -/
  pending : Word
  /-- OVR, sticky (R32) -/
  ovr : Bool
  /-- PHASE (R35) -/
  phase : Phase
  /-- ERRCODE (R36) -/
  errCode : BitVec 4
  /-- ERR_CMD (R36) -/
  errCmd : Word
  /-- FREQ (R37) -/
  freq : Vector Word 256
  /-- IN_COUNT (R38) -/
  inCount : Word
  /-- NODE (R39) -/
  node : Vector Node 511
  /-- NODE_COUNT, 0 to 511 (R40) -/
  nodeCount : Fin 512
  /-- NLEAF, 0 to 256 (R40) -/
  nLeaf : Fin 257
  /-- ROOT, 0 to 510 (R40) -/
  root : Fin 511
  /-- TREE_PRESENT (R40) -/
  treePresent : Bool
  /-- ENT (R41) -/
  ent : Vector Entry 256
  /-- ENT_N, 0 to 256 (R42) -/
  entN : Fin 257
  /-- TOTAL_BITS (R43) -/
  totalBits : Word
  /-- SYM_COUNT (R44) -/
  symCount : Word
  /-- REMAINING (R45) -/
  remaining : Word
  /-- CAND (R46); CAND_LEN is its length -/
  cand : Bits
  /-- PK_ACC (R47) -/
  pkAcc : Byte
  /-- PK_CNT, 0 to 7 (R47) -/
  pkCnt : Fin 8
  /-- UNPK_BYTE (R48) -/
  unpkByte : Byte
  /-- UNPK_CNT, 0 to 8 (R48) -/
  unpkCnt : Fin 9
  /-- HDR_COUNT, wraps (R49) -/
  hdrCount : Word
  /-- PAY_COUNT, wraps (R50) -/
  payCount : Word
  /-- OUT_COUNT, wraps (R51) -/
  outCount : Word
  /-- SEL_INDEX (R52) -/
  selIndex : BitVec 9
  /-- SEL_WORD (R52) -/
  selWord : BitVec 3
  deriving DecidableEq, Repr

/-- A move of the host (spec/60_exceptions.md R321). `bits` is the width of a register access. -/
inductive HostMove where
  /-- RegWrite(addr, v) (spec/44_control.md R272) -/
  | regWrite (bits : Nat) (addr : Byte) (v : Word)
  /-- RegRead(addr) (spec/44_control.md R273) -/
  | regRead (bits : Nat) (addr : Byte)
  /-- present a new source, positioned at its start (spec/20_memory.md R82) -/
  | presentSource (bytes : List Byte)
  /-- rewind the source to its start (spec/20_memory.md R82) -/
  | rewindSource
  /-- read the sink (spec/20_memory.md R94) -/
  | readSink
  /-- assert the hardware reset (spec/70_reset_and_hazards.md R340) -/
  | hardReset
  /-- wait until STATUS reads BUSY = 0 (spec/20_memory.md R91); meanwhile the block takes its step -/
  | awaitIdle
  deriving DecidableEq, Repr

/-- What a read has shown the host. -/
inductive Observation where
  /-- the value a register read returned -/
  | reg (v : Word)
  /-- the bytes a sink read returned -/
  | sink (bytes : List Byte)
  deriving DecidableEq, Repr

/-- The whole machine: the block, the port state (R53), and the host's side. -/
structure State where
  /-- the fixed parameters (spec/00_scope.md R6); no step writes them -/
  cfg : Config
  /-- the block's state (R30) -/
  blk : Block
  /-- the source's bytes (R53) -/
  src : List Byte
  /-- the source's read position (R53) when the command in progress was accepted; while none is in progress, the position
  now. At any moment it is portPos (Machine/Progress.lean) -/
  srcPos : Nat
  /-- the sink's bytes (R53), oldest first, when the command in progress was accepted; while none is in progress, the bytes
  now. At any moment they are portSink (Machine/Progress.lean) -/
  snk : List Byte
  /-- the model's own: the host's coming moves, oldest first (log 2) -/
  script : List HostMove
  /-- the model's own: what the host's reads have returned, oldest first (log 14) -/
  seen : List Observation
  /-- the model's own: how many free values have been drawn (log 4) -/
  draws : Nat
  /-- the model's own: how many source reads and sink writes of the command in progress have happened (log 5) -/
  progress : Nat
  deriving DecidableEq, Repr

/-- Why a step stops the machine. -/
inductive Fault where
  /-- The host presents or rewinds the source while BUSY = 1: the spec gives the host no such move, "stuck"
  (spec/70_reset_and_hazards.md R347, spec/93_implementation_defined.md I16). Raised by the host moves presentSource and
  rewindSource; no command raises it. Safe (log 6). -/
  | sourceChangedWhileBusy
  deriving DecidableEq, Repr

/-- Why an instruction has no meaning. -/
inductive Refusal where
  /-- An arm of exec that has no meaning yet. No arm of this model answers it. Safe. -/
  | notModelled (mnemonic : String)
  deriving DecidableEq, Repr

/-- A node with every field 0 (R70). -/
def Node.zero : Node := { weight := 0#32, isLeaf := false, sym := 0#8, left := 0, right := 0 }

/-- An entry with every field and code cell 0 (R70). -/
def Entry.zero : Entry := { sym := 0#8, code := [] }

/-- The block's reset record: every element at the value R70 gives it. -/
def Block.reset : Block where
  busy := false
  pending := 0#32
  ovr := false
  phase := .count
  errCode := 0#4
  errCmd := 0#32
  freq := Vector.replicate 256 0#32
  inCount := 0#32
  node := Vector.replicate 511 Node.zero
  nodeCount := 0
  nLeaf := 0
  root := 0
  treePresent := false
  ent := Vector.replicate 256 Entry.zero
  entN := 0
  totalBits := 0#32
  symCount := 0#32
  remaining := 0#32
  cand := []
  pkAcc := 0#8
  pkCnt := 0
  unpkByte := 0#8
  unpkCnt := 0
  hdrCount := 0#32
  payCount := 0#32
  outCount := 0#32
  selIndex := 0#9
  selWord := 0#3

/-- The machine right after reset. The block is as R70 says and HDR_ORDER has its default LE (R6, log 1). The spec gives
the ports and the host's side no value: DESIGN CHOICE, empty (logs 2, 4, 5, 14, 16). -/
def State.reset : State where
  cfg := { hdrOrder := .le }
  blk := Block.reset
  src := []
  srcPos := 0
  snk := []
  script := []
  seen := []
  draws := 0
  progress := 0

end Sys2Proof.Machine
end

