-- ==== Sys2Proof/Machine/Flags.lean ====
section
/-! DEFINITION. The status fields and the checks made on them: the codes of PHASE and ERRCODE, the STATUS word, and the
legality of a command by phase (spec/10_state.md R35, R56; spec/30_encoding.md R108; spec/60_exceptions.md R300). -/

namespace Sys2Proof.Machine

open Sys2Proof

/-- The value PHASE is encoded by (R35). -/
def Phase.code : Phase → BitVec 3
  | .count => 0#3
  | .built => 1#3
  | .coded => 2#3
  | .ready => 3#3
  | .done => 4#3

/-- The code of an error kind (R300). -/
def ErrKind.code : ErrKind → BitVec 4
  | .sourceUnavailable => 1#4
  | .truncatedHeader => 2#4
  | .corruptPayload => 3#4
  | .trailingOrMissingData => 4#4
  | .illegalCommand => 5#4
  | .sequenceError => 6#4
  | .unknownSymbol => 7#4
  | .headerRange => 8#4
  | .overflow => 9#4

/-- STATUS.ERROR: 1 if and only if ERRCODE is not 0 (R56). -/
def Block.error (b : Block) : Bool := b.errCode != 0#4

/-- STATUS: [6:4] PHASE, [2] OVR, [1] ERROR, [0] BUSY, every other bit 0 (R56). -/
def Block.status (b : Block) : Word :=
  0#25 ++ b.phase.code ++ 0#1 ++ BitVec.ofBool b.ovr ++ BitVec.ofBool b.error ++ BitVec.ofBool b.busy

/-- The phases a command is legal in: the second column of R108. -/
def phaseLegal : Instr → Phase → Bool
  | .nop, _ => true
  | .softReset, _ => true
  | .addSymbol _, p => p == .count
  | .countSrc, p => p == .count
  | .build, p => p == .count
  | .assignCodes, p => p == .built
  | .makeHeader, p => p == .coded
  | .serialize, p => p == .ready
  | .deserialize, p => p == .count
  | .pushBits _ _, _ => true
  | .pushCode _, p => p == .ready
  | .flush, _ => true
  | .encodeSrc, p => p == .ready
  | .decodeStep, p => p == .ready
  | .decodeFinish, p => p == .ready
  | .decodeRun, p => p == .ready

/-- The extra condition of a command: the third column of R108. -/
def extraLegal : Instr → Block → Bool
  | .nop, _ => true
  | .softReset, _ => true
  | .addSymbol _, _ => true
  | .countSrc, _ => true
  | .build, _ => true
  | .assignCodes, _ => true
  | .makeHeader, _ => true
  | .serialize, b => b.pkCnt == 0
  | .deserialize, _ => true
  | .pushBits _ _, _ => true
  | .pushCode _, _ => true
  | .flush, _ => true
  | .encodeSrc, _ => true
  | .decodeStep, _ => true
  | .decodeFinish, b => b.remaining == 0#32
  | .decodeRun, _ => true

end Sys2Proof.Machine
end

