-- ==== Sys2Proof/Machine/Operands.lean ====
section
/-! DEFINITION. Operand forms and the packing of bits and bytes (spec/00_scope.md R13, spec/20_memory.md R84, R85,
spec/30_encoding.md R101, spec/41_code_table_format.md R172, R179). -/

namespace Sys2Proof.Machine

open Sys2Proof

/-- The code's length: the field `len` of an entry (R41). -/
def Entry.len (e : Entry) : Nat := e.code.length

/-- Code cell k: `code[k]` below the length and 0 from there on (R41). -/
def Entry.cell (e : Entry) (k : Nat) : Bool := e.code.getD k false

/-- The entries at indices below ENT_N, in index order: the valid ones (R41). -/
def Block.entries (b : Block) : List Entry := b.ent.toList.take b.entN

/-- CAND_LEN (R46). -/
def Block.candLen (b : Block) : Nat := b.cand.length

/-- The bits PUSH_BITS pushes: d[n-1], ..., d[0] (R101). -/
def operandBits (n : BitVec 4) (d : Byte) : Bits :=
  (List.range n.toNat).map fun k => d.getLsbD (n.toNat - 1 - k)

/-- The byte whose bit (7-k) is `f k` for k = 0..7: most significant bit first (R13). -/
def byteOfBits (f : Nat → Bool) : Byte :=
  BitVec.ofFnLE fun i : Fin 8 => f (7 - i.val)

/-- The eight bits of a byte, bit 7 first (R13, R230). -/
def bitsOfByte (b : Byte) : Bits :=
  (List.range 8).map fun k => b.getLsbD (7 - k)

/-- `byte[i] <- b`: a byte with one bit replaced (R200). -/
def setByteBit (a : Byte) (i : Nat) (b : Bool) : Byte :=
  if b then a ||| (1#8 <<< i) else a &&& ~~~(1#8 <<< i)

/-- Bytes that hold `n` bits: ceil(n/8) (R11, R172). -/
def byteCount (n : Nat) : Nat := (n + 7) / 8

/-- A code's bytes: byte j has bit (7-k) = code[8j+k], 0 past the end (R172). -/
def packCode (c : Bits) : List Byte :=
  (List.range (byteCount c.length)).map fun j => byteOfBits fun k => c.getD (8 * j + k) false

/-- EntryBytes (R172). -/
def entryBytes (e : Entry) : List Byte :=
  e.sym :: BitVec.ofNat 8 e.len :: packCode e.code

/-- The code of length `len` held by its code bytes: the first `len` bits in stream order, the rest of the last byte
discarded whatever its value (R179). -/
def unpackCode (len : Nat) (bytes : List Byte) : Bits :=
  (bytes.flatMap bitsOfByte).take len

/-- PutU32: the four bytes of a header integer in byte order HDR_ORDER (R84). -/
def u32Bytes (o : HdrOrder) (v : Word) : List Byte :=
  match o with
  | .le => [v.extractLsb' 0 8, v.extractLsb' 8 8, v.extractLsb' 16 8, v.extractLsb' 24 8]
  | .be => [v.extractLsb' 24 8, v.extractLsb' 16 8, v.extractLsb' 8 8, v.extractLsb' 0 8]

/-- GetU32: the header integer of four bytes in source order (R84). -/
def u32OfBytes (o : HdrOrder) (b0 b1 b2 b3 : Byte) : Word :=
  match o with
  | .le => b3 ++ b2 ++ b1 ++ b0
  | .be => b0 ++ b1 ++ b2 ++ b3

/-- 32 bits of a sequence in stream order from position 32·w: read bit (31-k) = c[32·w+k], 0 past the end (R67, R68). -/
def bitsWindow (c : Bits) (w : BitVec 3) : Word :=
  BitVec.ofFnLE fun i : Fin 32 => c.getD (32 * w.toNat + (31 - i.val)) false

/-- FREQ[s] (R37). -/
def freqAt (f : Vector Word 256) (s : Byte) : Word := f[s.toNat]'(s.isLt)

/-- NODE[i] (R39). -/
def nodeAt (node : Vector Node 511) (i : Fin 511) : Node := node[i]

/-- HeaderBytes of a table: 8 + the sum of 2 + ceil(len/8) over the entries (R173). -/
def headerLength (es : List Entry) : Nat :=
  8 + (es.map fun e => 2 + byteCount e.len).sum

end Sys2Proof.Machine
end

