-- ==== Sys2Proof/Machine/Ops.lean ====
section
/-! DEFINITION. The operations shared by the commands: the stream primitives (spec/00_scope.md R15), the run of a
command's pseudocode with `raise` (R16), the error entry and the return from it (spec/60_exceptions.md R310 to R313),
and the order of checks (spec/30_encoding.md R109). -/

namespace Sys2Proof.Machine

open Sys2Proof

/-- What a step answers. -/
abbrev Answer := Host.Outcome State Fault Refusal

/-- A run of pseudocode: it ends with a value, or at a `raise`; either way with the state it has reached (R16, R311). -/
inductive Run (α : Type) where
  /-- the pseudocode ran to its end -/
  | done (a : α) (s : State)
  /-- `raise e` at the state reached so far -/
  | raised (e : ErrKind) (s : State)

/-- Go on with the value and the state reached; a raise ends everything. -/
def Run.bind {α β : Type} (r : Run α) (f : α → State → Run β) : Run β :=
  match r with
  | .done a s => f a s
  | .raised e s => .raised e s

/-- The state a run has reached. -/
def Run.state {α : Type} : Run α → State
  | .done _ s => s
  | .raised _ s => s

/-- A register write of a command's own effect: an update of the block's record. -/
def State.withBlk (s : State) (b : Block) : State := { s with blk := b }

/-- BUSY <- 0, the end of every command (R31, R320). -/
def retire (s : State) : State := s.withBlk { s.blk with busy := false }

/-- THE ERROR ENTRY (R310): ERRCODE <- code(E), ERR_CMD <- the pending word, BUSY <- 0; PHASE, OVR and every other
register keep the values they had at the raise. -/
def errorEntry (e : ErrKind) (s : State) : State :=
  s.withBlk { s.blk with errCode := e.code, errCmd := s.blk.pending, busy := false }

/-- THE RETURN FROM AN ERROR is a reset (R313): every element of the block takes its reset value, the ports are not
changed (R70, R271, R340). -/
def resetBlock (s : State) : State := s.withBlk Block.reset

/-- PHASE <- p (R35). -/
def setPhase (p : Phase) (s : State) : State := s.withBlk { s.blk with phase := p }

/-- SrcRead(): the next byte of the source and the state past it, or none at EOF, with nothing changed (R53). -/
def srcRead (s : State) : Option (Byte × State) :=
  match s.src[s.srcPos]? with
  | some b => some (b, { s with srcPos := s.srcPos + 1 })
  | none => none

/-- SrcAtEnd(): the source is exhausted; reads nothing (R53). -/
def srcAtEnd (s : State) : Bool := s.srcPos == s.src.length

/-- How many source bytes are left to read. -/
def srcLeft (s : State) : Nat := s.src.length - s.srcPos

/-- SnkWrite(b): append one byte (R53). -/
def snkWrite (b : Byte) (s : State) : State := { s with snk := s.snk ++ [b] }

/-- A command's run ends: at its end BUSY <- 0, at a raise the error entry (R310, R320). -/
def conclude (r : Run Unit) : Answer :=
  match r with
  | .done _ s => .next (retire s)
  | .raised e s => .next (errorEntry e s)

/-- THE ORDER OF CHECKS of R109 for a legal command other than NOP and SOFT_RESET: refused with no effect while ERRCODE is
not 0 (R312); SequenceError by phase, then by the extra condition (R307); else the command's rule runs. -/
def runCommand (i : Instr) (body : State → Run Unit) (s : State) : Answer :=
  if s.blk.errCode ≠ 0#4 then .next (retire s)
  else if phaseLegal i s.blk.phase = false then .next (errorEntry .sequenceError s)
  else if extraLegal i s.blk = false then .next (errorEntry .sequenceError s)
  else conclude (body s)

end Sys2Proof.Machine
end

