-- ==== Sys2Proof/Machine/BitPacker.lean ====
section
/-! DEFINITION. The bit packer's commands PUSH_BITS, PUSH_CODE, FLUSH and ENCODE_SRC (spec/42_bitpacker.md R200 to
R207). -/

namespace Sys2Proof.Machine

open Sys2Proof

/-- SnkWrite(a); PAY_COUNT + 1 modulo 2^32; PK_ACC <- 0; PK_CNT <- 0: a byte leaves the packer (R200, R202). -/
def emitPacked (a : Byte) (s : State) : State :=
  (snkWrite a s).withBlk { s.blk with payCount := s.blk.payCount + 1#32, pkAcc := 0#8, pkCnt := 0 }

/-- PushBit(b) (R200). -/
def pushBit (b : Bool) (s : State) : State :=
  if s.blk.pkCnt.val = 7 then emitPacked (setByteBit s.blk.pkAcc 0 b) s
  else s.withBlk { s.blk with
    pkAcc := setByteBit s.blk.pkAcc (7 - s.blk.pkCnt.val) b
    pkCnt := Fin.ofNat 8 (s.blk.pkCnt.val + 1) }

/-- PushBit for each bit of a sequence, first bit first (R203, R204). -/
def pushAll : Bits → State → State
  | [], s => s
  | b :: bs, s => pushAll bs (pushBit b s)

/-- Flush() (R202). -/
def flushPacker (s : State) : State :=
  if s.blk.pkCnt.val > 0 then emitPacked s.blk.pkAcc s else s

/-- FindSym(s): the valid entry of least index with that symbol (R205). -/
def findSym (sym : Byte) (b : Block) : Option Entry :=
  b.entries.find? fun e => e.sym == sym

/-- The body of PUSH_CODE: UnknownSymbol when no valid entry has the symbol, else its code's bits (R204, R205). -/
def pushSymbol (sym : Byte) (s : State) : Run Unit :=
  match findSym sym s.blk with
  | none => .raised .unknownSymbol s
  | some e => .done () (pushAll e.code s)

/-- The loop of ENCODE_SRC (R207), at most `n` iterations. -/
def encodeLoop : Nat → State → Run Unit
  | 0, s => .done () s
  | n + 1, s =>
    match srcRead s with
    | none => .done () s
    | some (b, s') => (pushSymbol b s').bind fun _ t => encodeLoop n t

/-- ENCODE_SRC's rule: one iteration for each byte left, then Flush() once (R207). -/
def encodeSource (s : State) : Run Unit :=
  (encodeLoop (srcLeft s) s).bind fun _ t => .done () (flushPacker t)

/-- PUSH_BITS n, d (R203). -/
def execPushBits (nbits : BitVec 4) (data : Byte) (s : State) : Answer :=
  runCommand (.pushBits nbits data) (fun t => .done () (pushAll (operandBits nbits data) t)) s

/-- PUSH_CODE s (R204). -/
def execPushCode (sym : Byte) (s : State) : Answer :=
  runCommand (.pushCode sym) (pushSymbol sym) s

/-- FLUSH (R206). -/
def execFlush (s : State) : Answer :=
  runCommand .flush (fun t => .done () (flushPacker t)) s

/-- ENCODE_SRC (R207). -/
def execEncodeSrc (s : State) : Answer :=
  runCommand .encodeSrc encodeSource s

end Sys2Proof.Machine
end

