-- ==== Sys2Proof/Machine/CodeTable.lean ====
section
/-! DEFINITION. The code table generator's commands ASSIGN_CODES, MAKE_HEADER and SERIALIZE
(spec/40_tree_builder.md R144 to R153, spec/41_code_table_format.md R174). -/

namespace Sys2Proof.Machine

open Sys2Proof

/-- Walk(i, p): depth first, 0 for the left branch and 1 for the right, the path passed along (R144, R147). The first
argument bounds the depth: children have lower indices than their parent (R141), so 511 is never reached (log 8). -/
def walk (node : Vector Node 511) : Nat → Fin 511 → Bits → Vector Entry 256 → Vector Entry 256
  | 0, _, _, ent => ent
  | n + 1, i, p, ent =>
    if node[i].isLeaf then ent.setIfInBounds i.val { sym := node[i].sym, code := p }
    else walk node n node[i].right (p ++ [true]) (walk node n node[i].left (p ++ [false]) ent)

/-- The entries ASSIGN_CODES leaves: none written for an absent tree, the code "0" for a single leaf (R145), else one path
for each leaf (R147). -/
def codeEntries (b : Block) : Vector Entry 256 :=
  if b.treePresent = false then b.ent
  else if b.nLeaf.val = 1 then b.ent.set 0 { sym := b.node[0].sym, code := [false] }
  else walk b.node 511 b.root [] b.ent

/-- ASSIGN_CODES' register writes (R147). -/
def assignCodes (s : State) : State :=
  s.withBlk { s.blk with ent := codeEntries s.blk, entN := s.blk.nLeaf, phase := .coded }

/-- T: the sum over the valid entries of FREQ[sym] × len, an exact integer (R149, R150, R152). -/
def encodedBits (b : Block) : Nat :=
  (b.entries.map fun e => (freqAt b.freq e.sym).toNat * e.len).sum

/-- MAKE_HEADER's rule: Overflow with nothing written when T is above 2^31-1 (R150, R152). -/
def makeHeader (s : State) : Run Unit :=
  if encodedBits s.blk > 0x7FFFFFFF then .raised .overflow s
  else .done () (s.withBlk { s.blk with
    totalBits := BitVec.ofNat 32 (encodedBits s.blk)
    symCount := BitVec.ofNat 32 s.blk.entN
    remaining := BitVec.ofNat 32 (encodedBits s.blk)
    cand := []
    phase := .ready })

/-- The header of the code table: the two integers, then the entries in index order (R170, R174). -/
def headerBytes (o : HdrOrder) (b : Block) : List Byte :=
  u32Bytes o b.totalBits ++ u32Bytes o b.symCount ++ b.entries.flatMap entryBytes

/-- Header bytes to the sink, HDR_COUNT counting each, modulo 2^32 (R49, R174). -/
def writeHeaderBytes (bs : List Byte) (s : State) : State :=
  { s with
    snk := s.snk ++ bs
    blk := { s.blk with hdrCount := s.blk.hdrCount + BitVec.ofNat 32 bs.length } }

/-- SERIALIZE's rule (R174). -/
def serialize (s : State) : State :=
  writeHeaderBytes (headerBytes s.cfg.hdrOrder s.blk) s

/-- ASSIGN_CODES (R147). -/
def execAssignCodes (s : State) : Answer :=
  runCommand .assignCodes (fun t => .done () (assignCodes t)) s

/-- MAKE_HEADER (R152). -/
def execMakeHeader (s : State) : Answer :=
  runCommand .makeHeader makeHeader s

/-- SERIALIZE (R174). -/
def execSerialize (s : State) : Answer :=
  runCommand .serialize (fun t => .done () (serialize t)) s

end Sys2Proof.Machine
end

