-- ==== Sys2Proof/Machine/Control.lean ====
section
/-! DEFINITION. The control commands NOP and SOFT_RESET (spec/44_control.md R270, R271), and what the block does with a
pending word that is no legal command (spec/60_exceptions.md R306, R312). -/

namespace Sys2Proof.Machine

open Sys2Proof

/-- NOP: no state changes except the BUSY <- 0 that ends every command; it runs in any phase and while ERRCODE is not 0
(R270). -/
def execNop (s : State) : Answer := .next (retire s)

/-- SOFT_RESET: every state element takes its reset value, in any phase and while ERRCODE is not 0; the source, its
position and the sink are not changed (R271). -/
def execSoftReset (s : State) : Answer := .next (resetBlock s)

/-- A pending word that is no legal command: refused with no effect while ERRCODE is not 0 (R312), else IllegalCommand
before any effect (R306, R109). -/
def illegalWord (s : State) : Answer :=
  if s.blk.errCode ≠ 0#4 then .next (retire s)
  else .next (errorEntry .illegalCommand s)

end Sys2Proof.Machine
end

