-- ==== Sys2Proof/Machine/Decoder.lean ====
section
/-! DEFINITION. The bit unpacker and the decode state machine: DECODE_STEP, DECODE_FINISH, DECODE_RUN
(spec/43_decoder.md R230 to R247). -/

namespace Sys2Proof.Machine

open Sys2Proof

/-- UNPK_BYTE <- x; UNPK_CNT <- 8; PAY_COUNT + 1 modulo 2^32 (R231). -/
def loadUnpacker (x : Byte) (s : State) : State :=
  s.withBlk { s.blk with unpkByte := x, unpkCnt := 8, payCount := s.blk.payCount + 1#32 }

/-- The next bit to hand over, UNPK_BYTE[UNPK_CNT - 1] (R48, R231). -/
def nextBit (b : Block) : Bool := b.unpkByte.getLsbD (b.unpkCnt.val - 1)

/-- UNPK_CNT <- UNPK_CNT - 1 (R231). -/
def dropBit (s : State) : State :=
  s.withBlk { s.blk with unpkCnt := Fin.ofNat 9 (s.blk.unpkCnt.val - 1) }

/-- UnpackBit(): a byte is read only when no bit is left; TrailingOrMissingData at EOF (R231, R238). -/
def unpackBit (s : State) : Run Bool :=
  if s.blk.unpkCnt.val = 0 then
    match srcRead s with
    | none => .raised .trailingOrMissingData s
    | some (x, s') => .done (nextBit (loadUnpacker x s').blk) (dropBit (loadUnpacker x s'))
  else .done (nextBit s.blk) (dropBit s)

/-- Match(): the valid entry of least index whose code is the candidate, bit for bit (R234). -/
def matchCand (b : Block) : Option Entry :=
  b.entries.find? fun e => e.code == b.cand

/-- CAND <- CAND ++ [b] (R235). -/
def growCand (b : Bool) (s : State) : State := s.withBlk { s.blk with cand := s.blk.cand ++ [b] }

/-- A match: emit the symbol, OUT_COUNT + 1 modulo 2^32, subtract the candidate's length, empty the candidate (R235). The
subtraction never passes 0 in a state a run reaches (R237, log 7). -/
def emitSymbol (sym : Byte) (s : State) : State :=
  (snkWrite sym s).withBlk { s.blk with
    outCount := s.blk.outCount + 1#32
    remaining := s.blk.remaining - BitVec.ofNat 32 s.blk.candLen
    cand := [] }

/-- DecodeStepBody() after its bit is in the candidate: match, then the 255-bit guard (R236), then the declared-total bound
(R237), in that order (R235, R315). -/
def resolveCand (s : State) : Run Unit :=
  match matchCand s.blk with
  | some e => .done () (emitSymbol e.sym s)
  | none =>
    if s.blk.candLen > 255 then .raised .corruptPayload s
    else if s.blk.candLen = s.blk.remaining.toNat then .raised .trailingOrMissingData s
    else .done () s

/-- DecodeStepBody() (R235). -/
def decodeStepBody (s : State) : Run Unit :=
  (unpackBit s).bind fun b t => resolveCand (growCand b t)

/-- DECODE_STEP's rule: no effect when nothing is owed (R239, R240). -/
def decodeStep (s : State) : Run Unit :=
  if s.blk.remaining = 0#32 then .done () s else decodeStepBody s

/-- DecodeFinishBody(): the candidate, then the source's end; nothing is read (R241). -/
def decodeFinishBody (s : State) : Run Unit :=
  if s.blk.candLen ≠ 0 then .raised .trailingOrMissingData s
  else if srcAtEnd s = false then .raised .trailingOrMissingData s
  else .done () (setPhase .done s)

/-- Bits the unpacker can still hand over. -/
def bitsLeft (s : State) : Nat := s.blk.unpkCnt.val + 8 * srcLeft s

/-- The loop of DecodeRun(), at most `n` successful iterations; when no bit is left to read a further iteration
raises (R245). -/
def decodeLoop : Nat → State → Run Unit
  | 0, s => if s.blk.remaining = 0#32 then decodeFinishBody s else decodeStepBody s
  | n + 1, s =>
    if s.blk.remaining = 0#32 then decodeFinishBody s
    else (decodeStepBody s).bind fun _ t => decodeLoop n t

/-- DecodeRun(): each iteration reads one bit or raises, so `bitsLeft` bounds them (R245). -/
def decodeAll (s : State) : Run Unit := decodeLoop (bitsLeft s) s

/-- The states of the decode state machine, named (R247). -/
inductive DecodeState where
  | owing
  | drained
  | done
  | failed
  deriving DecidableEq, Repr

/-- Which state of R247 the block is in, if any. -/
def decodeState (b : Block) : Option DecodeState :=
  if b.errCode ≠ 0#4 then some .failed
  else match b.phase with
    | .done => some .done
    | .ready => if b.remaining = 0#32 then some .drained else some .owing
    | .count => none
    | .built => none
    | .coded => none

/-- DECODE_STEP (R239). -/
def execDecodeStep (s : State) : Answer :=
  runCommand .decodeStep decodeStep s

/-- DECODE_FINISH (R243). -/
def execDecodeFinish (s : State) : Answer :=
  runCommand .decodeFinish decodeFinishBody s

/-- DECODE_RUN (R246). -/
def execDecodeRun (s : State) : Answer :=
  runCommand .decodeRun decodeAll s

end Sys2Proof.Machine
end

