-- ==== Sys2Proof/Machine/Deserializer.lean ====
section
/-! DEFINITION. DESERIALIZE (spec/41_code_table_format.md R176 to R181). -/

namespace Sys2Proof.Machine

open Sys2Proof

/-- HDR_COUNT <- HDR_COUNT + 1, modulo 2^32 (R49, R177). -/
def countHeaderByte (s : State) : State :=
  s.withBlk { s.blk with hdrCount := s.blk.hdrCount + 1#32 }

/-- ReadHdrByte(): TruncatedHeader at EOF (R177). -/
def readHdrByte (s : State) : Run Byte :=
  match srcRead s with
  | none => .raised .truncatedHeader s
  | some (b, s') => .done b (countHeaderByte s')

/-- `n` header bytes in source order. -/
def readHdrBytes : Nat → State → Run (List Byte)
  | 0, s => .done [] s
  | n + 1, s =>
    (readHdrByte s).bind fun b t => (readHdrBytes n t).bind fun bs u => .done (b :: bs) u

/-- GetU32() in byte order HDR_ORDER (R84). -/
def getU32 (s : State) : Run Word :=
  (readHdrByte s).bind fun b0 s0 =>
  (readHdrByte s0).bind fun b1 s1 =>
  (readHdrByte s1).bind fun b2 s2 =>
  (readHdrByte s2).bind fun b3 s3 => .done (u32OfBytes s3.cfg.hdrOrder b0 b1 b2 b3) s3

/-- One entry: symbol byte, length byte, ceil(len/8) code bytes (R172, R179). -/
def readEntry (s : State) : Run Entry :=
  (readHdrByte s).bind fun sym s0 =>
  (readHdrByte s0).bind fun len s1 =>
  (readHdrBytes (byteCount len.toNat) s1).bind fun bs s2 =>
    .done { sym := sym, code := unpackCode len.toNat bs } s2

/-- ENT[i] <- e; ENT_N <- i + 1 (R180). -/
def storeEntry (i : Nat) (e : Entry) (s : State) : State :=
  s.withBlk { s.blk with ent := s.blk.ent.setIfInBounds i e, entN := Fin.ofNat 257 (i + 1) }

/-- `n` entries from index `i` on, each written only once complete (R180, R181). -/
def readEntries : Nat → Nat → State → Run Unit
  | 0, _, s => .done () s
  | n + 1, i, s => (readEntry s).bind fun e t => readEntries n (i + 1) (storeEntry i e t)

/-- The range check: either count negative as a signed integer, or symbolCount above 256 (R178). -/
def headerOutOfRange (t c : Word) : Bool :=
  t.msb || c.msb || decide (256 < c.toNat)

/-- REMAINING <- t; CAND <- []; PHASE <- READY (R180). -/
def armDecoder (t : Word) (s : State) : State :=
  s.withBlk { s.blk with remaining := t, cand := [], phase := .ready }

/-- TOTAL_BITS <- t (R180). -/
def setTotalBits (t : Word) (s : State) : State := s.withBlk { s.blk with totalBits := t }

/-- SYM_COUNT <- c (R180). -/
def setSymCount (c : Word) (s : State) : State := s.withBlk { s.blk with symCount := c }

/-- ENT_N <- 0 (R180). -/
def clearTable (s : State) : State := s.withBlk { s.blk with entN := 0 }

/-- DESERIALIZE after both integers: the range check, then the entries (R180). -/
def readTable (t c : Word) (s : State) : Run Unit :=
  if headerOutOfRange t c then .raised .headerRange s
  else (readEntries c.toNat 0 (clearTable s)).bind fun _ u => .done () (armDecoder t u)

/-- DESERIALIZE's rule (R180). -/
def deserialize (s : State) : Run Unit :=
  (getU32 s).bind fun t s0 =>
  (getU32 (setTotalBits t s0)).bind fun c s1 => readTable t c (setSymCount c s1)

/-- DESERIALIZE (R180). -/
def execDeserialize (s : State) : Answer :=
  runCommand .deserialize deserialize s

end Sys2Proof.Machine
end

