-- ==== Sys2Proof/Machine/TreeBuilder.lean ====
section
/-! DEFINITION. The tree builder's commands ADD_SYMBOL, COUNT_SRC and BUILD (spec/40_tree_builder.md R130 to R142). -/

namespace Sys2Proof.Machine

open Sys2Proof

/-- FREQ[s] <- FREQ[s] + 1; IN_COUNT <- IN_COUNT + 1 (R131). -/
def countOne (b : Byte) (s : State) : State :=
  s.withBlk { s.blk with
    freq := s.blk.freq.set b.toNat (freqAt s.blk.freq b + 1#32) b.isLt
    inCount := s.blk.inCount + 1#32 }

/-- CountSymbol(s): Overflow with nothing written when IN_COUNT is 2^32-1 (R131). -/
def countSymbol (b : Byte) (s : State) : Run Unit :=
  if s.blk.inCount = 0xFFFFFFFF#32 then .raised .overflow s else .done () (countOne b s)

/-- The loop of COUNT_SRC (R133), at most `n` iterations. -/
def countLoop : Nat → State → Run Unit
  | 0, s => .done () s
  | n + 1, s =>
    match srcRead s with
    | none => .done () s
    | some (b, s') => (countSymbol b s').bind fun _ t => countLoop n t

/-- The loop runs until the source is exhausted: one iteration for each byte left (R133). -/
def countSource (s : State) : Run Unit := countLoop (srcLeft s) s

/-- The leaf of a symbol (R139). -/
def leafNode (w : Word) (sym : Byte) : Node :=
  { weight := w, isLeaf := true, sym := sym, left := 0, right := 0 }

/-- The leaves in ascending symbol value: the symbols with FREQ at least 1 (R132, R136). -/
def leafNodes (f : Vector Word 256) : List Node :=
  (List.range 256).filterMap fun k =>
    if freqAt f (BitVec.ofNat 8 k) = 0#32 then none
    else some (leafNode (freqAt f (BitVec.ofNat 8 k)) (BitVec.ofNat 8 k))

/-- NODE[k], NODE[k+1], ... <- the nodes of a list (R136). -/
def placeNodes (node : Vector Node 511) (k : Nat) : List Node → Vector Node 511
  | [] => node
  | x :: xs => placeNodes (node.setIfInBounds k x) (k + 1) xs

/-- Node i precedes node j: the lesser key (weight, index) (R137). -/
def nodeBefore (node : Vector Node 511) (i j : Fin 511) : Bool :=
  decide (node[i].weight.toNat < node[j].weight.toNat)
    || (node[i].weight == node[j].weight && decide (i.val < j.val))

/-- The node of a collection with the least key (R137). -/
def leastNode (node : Vector Node 511) : List (Fin 511) → Option (Fin 511)
  | [] => none
  | i :: l =>
    match leastNode node l with
    | none => some i
    | some j => if nodeBefore node j i then some j else some i

/-- BUILD's working state: the arena, the priority collection L and the next free index k (R139). -/
structure Forest where
  node : Vector Node 511
  pool : List (Fin 511)
  next : Nat

/-- The internal node over `a` (removed first, the left child) and `b` (R135, R138). The sum is exact in every state a
run reaches (R142, log 7). -/
def joinNode (node : Vector Node 511) (a b : Fin 511) : Node :=
  { weight := node[a].weight + node[b].weight, isLeaf := false, sym := 0#8, left := a, right := b }

/-- One merge of the nodes `a` and `b` of L: NODE[k] over them, L without them and with k, k + 1 (R139). -/
def mergePair (f : Forest) (a b : Fin 511) : Forest :=
  { node := f.node.setIfInBounds f.next (joinNode f.node a b)
    pool := (f.pool.erase a).erase b ++ [Fin.ofNat 511 f.next]
    next := f.next + 1 }

/-- The merge loop of BUILD (R139), at most `n` merges. -/
def mergeLoop : Nat → Forest → Forest
  | 0, f => f
  | n + 1, f =>
    match leastNode f.node f.pool with
    | none => f
    | some a =>
      match leastNode f.node (f.pool.erase a) with
      | none => f
      | some b => mergeLoop n (mergePair f a b)

/-- BUILD before its first merge: the leaves at indices 0 to n-1 and L = {0, ..., n-1} (R139). -/
def leafForest (b : Block) : Forest :=
  { node := placeNodes b.node 0 (leafNodes b.freq)
    pool := (List.range (leafNodes b.freq).length).map (Fin.ofNat 511)
    next := (leafNodes b.freq).length }

/-- BUILD after its last merge: n leaves need fewer than n merges (R141). -/
def builtForest (b : Block) : Forest := mergeLoop (leafNodes b.freq).length (leafForest b)

/-- BUILD's register writes (R139). -/
def buildTree (s : State) : State :=
  s.withBlk { s.blk with
    node := (builtForest s.blk).node
    nodeCount := Fin.ofNat 512 (builtForest s.blk).next
    nLeaf := Fin.ofNat 257 (leafNodes s.blk.freq).length
    treePresent := (leafNodes s.blk.freq).length != 0
    root := (builtForest s.blk).pool.headD 0
    phase := .built }

/-- ADD_SYMBOL s (R130). -/
def execAddSymbol (sym : Byte) (s : State) : Answer :=
  runCommand (.addSymbol sym) (countSymbol sym) s

/-- COUNT_SRC (R133). -/
def execCountSrc (s : State) : Answer :=
  runCommand .countSrc countSource s

/-- BUILD (R139). -/
def execBuild (s : State) : Answer :=
  runCommand .build (fun t => .done () (buildTree t)) s

end Sys2Proof.Machine
end

