-- ==== Sys2Proof/Machine/Dispatch.lean ====
section
/-! DEFINITION. The meaning of every command, one arm each (spec/30_encoding.md R105). -/

namespace Sys2Proof.Machine

open Sys2Proof

def exec (i : Instr) (s : State) : Host.Outcome State Fault Refusal :=
  match i with
  | .nop => Sys2Proof.Machine.execNop s
  | .softReset => Sys2Proof.Machine.execSoftReset s
  | .addSymbol sym => Sys2Proof.Machine.execAddSymbol sym s
  | .countSrc => Sys2Proof.Machine.execCountSrc s
  | .build => Sys2Proof.Machine.execBuild s
  | .assignCodes => Sys2Proof.Machine.execAssignCodes s
  | .makeHeader => Sys2Proof.Machine.execMakeHeader s
  | .serialize => Sys2Proof.Machine.execSerialize s
  | .deserialize => Sys2Proof.Machine.execDeserialize s
  | .pushBits nbits data => Sys2Proof.Machine.execPushBits nbits data s
  | .pushCode sym => Sys2Proof.Machine.execPushCode sym s
  | .flush => Sys2Proof.Machine.execFlush s
  | .encodeSrc => Sys2Proof.Machine.execEncodeSrc s
  | .decodeStep => Sys2Proof.Machine.execDecodeStep s
  | .decodeFinish => Sys2Proof.Machine.execDecodeFinish s
  | .decodeRun => Sys2Proof.Machine.execDecodeRun s

end Sys2Proof.Machine
end

