-- ==== Sys2Proof/Machine/BlockStep.lean ====
section
/-! DEFINITION. The block's step (spec/60_exceptions.md R320) and the pending command word. -/

namespace Sys2Proof.Machine

open Sys2Proof

/-- BlockStep(), enabled exactly when BUSY = 1 (R320): the pending word is decoded and its command run; a word that is no
legal command is IllegalCommand, or refused while ERRCODE is not 0. -/
def blockStep (s : State) : Answer :=
  match decode s.blk.pending with
  | .ok i => exec i s
  | .error _ => illegalWord s

/-- It is the block's turn: BUSY = 1 and the host is waiting for the block or has no move left (log 2). -/
def blockTurn (s : State) : Bool :=
  s.blk.busy && (s.script.head?.all fun m => m == .awaitIdle)

/-- PENDING <- w; BUSY <- 1: the effect of an accepted CMD write (R31). Nothing of the command has happened yet (log 5). -/
def latchCommand (w : Word) (s : State) : State :=
  { s with blk := { s.blk with pending := w, busy := true }, progress := 0 }

/-- The host waits for the block before its next move; nothing to do when it has none (log 2). -/
def hostAwaits (s : State) : State :=
  match s.script with
  | [] => s
  | m :: ms => { s with script := .awaitIdle :: m :: ms }

end Sys2Proof.Machine
end

