-- ==== Sys2Proof/Machine/Progress.lean ====
section
/-! DEFINITION. The command in progress, as the ports show it: its source reads and sink writes in the order of its
pseudocode, and how many of them have happened (spec/20_memory.md R90, R94, R95; spec/10_state.md R53; log 5). -/

namespace Sys2Proof.Machine

open Sys2Proof

/-- One effect of a command on a port (R15, R53). -/
inductive PortEffect where
  /-- SrcRead() returns a byte: the position moves on by one -/
  | read
  /-- SnkWrite(b) -/
  | write (b : Byte)
  deriving DecidableEq, Repr

/-- The byte an effect appends to the sink. -/
def PortEffect.byte : PortEffect → Option Byte
  | .read => none
  | .write b => some b

/-- How many bytes a sequence of effects reads. -/
def bytesRead (es : List PortEffect) : Nat := es.count .read

/-- The bytes a sequence of effects writes, in order. -/
def bytesWritten (es : List PortEffect) : List Byte := es.filterMap PortEffect.byte

/-- The port effects on the way from `s` to `t` of a stretch of pseudocode that writes nothing before its last read: the
reads, then the writes. -/
def effectsTo (s t : State) : List PortEffect :=
  List.replicate (t.srcPos - s.srcPos) .read ++ (t.snk.drop s.snk.length).map .write

/-- The port effects of ENCODE_SRC's loop, at most `n` iterations: each reads one byte and then pushes its code (R207). -/
def encodeLoopEffects : Nat → State → List PortEffect
  | 0, _ => []
  | n + 1, s =>
    match srcRead s with
    | none => []
    | some (b, s') =>
      match pushSymbol b s' with
      | .raised _ t => effectsTo s t
      | .done _ t => effectsTo s t ++ encodeLoopEffects n t

/-- The port effects of ENCODE_SRC: its loop's, then those of Flush() when no byte raised (R207). -/
def encodeSourceEffects (s : State) : List PortEffect :=
  encodeLoopEffects (srcLeft s) s ++ effectsTo (encodeLoop (srcLeft s) s).state (encodeSource s).state

/-- The port effects of DECODE_RUN's loop, at most `n` successful iterations and one that raises: each hands over one bit,
for which it may read a byte, and may then write a symbol (R231, R235, R245). -/
def decodeLoopEffects : Nat → State → List PortEffect
  | 0, s => if s.blk.remaining = 0#32 then [] else effectsTo s (decodeStepBody s).state
  | n + 1, s =>
    if s.blk.remaining = 0#32 then []
    else
      match decodeStepBody s with
      | .raised _ t => effectsTo s t
      | .done _ t => effectsTo s t ++ decodeLoopEffects n t

/-- The rule each command runs once the checks of R109 have passed it. -/
def bodyOf : Instr → State → Run Unit
  | .nop => fun s => .done () s
  | .softReset => fun s => .done () (resetBlock s)
  | .addSymbol c => countSymbol c
  | .countSrc => countSource
  | .build => fun t => .done () (buildTree t)
  | .assignCodes => fun t => .done () (assignCodes t)
  | .makeHeader => makeHeader
  | .serialize => fun t => .done () (serialize t)
  | .deserialize => deserialize
  | .pushBits n d => fun t => .done () (pushAll (operandBits n d) t)
  | .pushCode c => pushSymbol c
  | .flush => fun t => .done () (flushPacker t)
  | .encodeSrc => encodeSource
  | .decodeStep => decodeStep
  | .decodeFinish => decodeFinishBody
  | .decodeRun => decodeAll

/-- The port effects of a command's rule, in the order of its pseudocode. Only ENCODE_SRC and DECODE_RUN read again after a
write; every other rule only reads, or only writes, or reads one byte and then writes one. -/
def bodyEffects (i : Instr) (s : State) : List PortEffect :=
  match i with
  | .encodeSrc => encodeSourceEffects s
  | .decodeRun => decodeLoopEffects (bitsLeft s) s
  | .nop | .softReset | .addSymbol _ | .countSrc | .build | .assignCodes | .makeHeader | .serialize | .deserialize
  | .pushBits _ _ | .pushCode _ | .flush | .decodeStep | .decodeFinish => effectsTo s (bodyOf i s).state

/-- The checks of R109 pass a command: no error is recorded and it is in order. -/
def passesChecks (i : Instr) (b : Block) : Bool :=
  b.errCode == 0#4 && phaseLegal i b.phase && extraLegal i b

/-- The port effects of a command: none when it is refused or out of order. -/
def commandEffects (i : Instr) (s : State) : List PortEffect :=
  if passesChecks i s.blk then bodyEffects i s else []

/-- The port effects of the command in progress: none while BUSY = 0, none of a word that is no legal command. -/
def pendingEffects (s : State) : List PortEffect :=
  if s.blk.busy then
    match decode s.blk.pending with
    | .ok i => commandEffects i s
    | .error _ => []
  else []

/-- The port effects of the command in progress that have happened. -/
def effectsSoFar (s : State) : List PortEffect := (pendingEffects s).take s.progress

/-- The source's position at this moment (R53, R95). -/
def portPos (s : State) : Nat := s.srcPos + bytesRead (effectsSoFar s)

/-- The sink's bytes at this moment (R53, R94). -/
def portSink (s : State) : List Byte := s.snk ++ bytesWritten (effectsSoFar s)

/-- The command in progress goes on by a free number of port effects; it never goes back (R90, R94, log 5). -/
def progressed (s : State) : State :=
  if s.blk.busy then { s with progress := s.progress + Config.freeCount s.draws, draws := s.draws + 1 } else s

/-- The same moment with the ports' present values in srcPos and snk: what they hold when no command is left to carry
them. -/
def settlePorts (s : State) : State :=
  { s with srcPos := portPos s, snk := portSink s, progress := 0 }

end Sys2Proof.Machine
end

