-- ==== Sys2Proof/Machine/RegisterMap.lean ====
section
/-! DEFINITION. The register window: what each register reads and what a register write does
(spec/10_state.md R54 to R69, spec/20_memory.md R86 to R89, spec/44_control.md R272, R273). -/

namespace Sys2Proof.Machine

open Sys2Proof

/-- ID reads the constant 0x48554601 (R62). -/
def idWord : Word := 0x48554601#32

/-- CONFIG: bit 0 is HDR_ORDER, 0 for LE and 1 for BE (R63). -/
def configWord (c : Config) : Word :=
  match c.hdrOrder with
  | .le => 0#32
  | .be => 1#32

/-- SEL reads SEL_WORD in [18:16] and SEL_INDEX in [8:0] (R61). -/
def selValue (b : Block) : Word := 0#13 ++ b.selWord ++ 0#7 ++ b.selIndex

/-- PK_INFO: [10:8] PK_CNT, [7:0] PK_ACC (R59). -/
def pkInfo (b : Block) : Word := 0#21 ++ BitVec.ofNat 3 b.pkCnt ++ b.pkAcc

/-- UNPK_INFO: [11:8] UNPK_CNT, [7:0] UNPK_BYTE (R59). -/
def unpkInfo (b : Block) : Word := 0#20 ++ BitVec.ofNat 4 b.unpkCnt ++ b.unpkByte

/-- TREE_INFO: [31] TREE_PRESENT, [24:16] ROOT, [9:0] NODE_COUNT (R60). -/
def treeInfo (b : Block) : Word :=
  BitVec.ofBool b.treePresent ++ 0#6 ++ BitVec.ofNat 9 b.root ++ 0#6 ++ BitVec.ofNat 10 b.nodeCount

/-- TABLE_INFO: [24:16] NLEAF, [8:0] ENT_N (R60). -/
def tableInfo (b : Block) : Word := 0#7 ++ BitVec.ofNat 9 b.nLeaf ++ 0#7 ++ BitVec.ofNat 9 b.entN

/-- FREQ_DATA: FREQ[SEL_INDEX], 0 from 256 on (R64). -/
def freqData (b : Block) : Word := b.freq[b.selIndex.toNat]?.getD 0#32

/-- The selected node when SEL_INDEX < NODE_COUNT (R65). -/
def selectedNode (b : Block) : Option Node :=
  if b.selIndex.toNat < b.nodeCount.val then b.node[b.selIndex.toNat]? else none

/-- NODE_WEIGHT (R65). -/
def nodeWeight (b : Block) : Word :=
  match selectedNode b with
  | some x => x.weight
  | none => 0#32

/-- NODE_LINK: [31] isLeaf, [25:18] sym, [17:9] right, [8:0] left (R65). -/
def nodeLink (b : Block) : Word :=
  match selectedNode b with
  | some x =>
    BitVec.ofBool x.isLeaf ++ 0#5 ++ x.sym ++ BitVec.ofNat 9 x.right ++ BitVec.ofNat 9 x.left
  | none => 0#32

/-- The selected entry when SEL_INDEX < ENT_N (R66, R67). -/
def selectedEntry (b : Block) : Option Entry := b.entries[b.selIndex.toNat]?

/-- ENT_INFO: [15:8] len, [7:0] sym (R66). -/
def entInfo (b : Block) : Word :=
  match selectedEntry b with
  | some e => 0#16 ++ BitVec.ofNat 8 e.len ++ e.sym
  | none => 0#32

/-- ENT_CODE: 32 code bits of the selected entry from bit position 32·SEL_WORD (R67). -/
def entCode (b : Block) : Word :=
  match selectedEntry b with
  | some e => bitsWindow e.code b.selWord
  | none => 0#32

/-- CAND_CODE: 32 candidate bits from bit position 32·SEL_WORD; SEL_INDEX is ignored (R68). -/
def candCode (b : Block) : Word := bitsWindow b.cand b.selWord

/-- What each offset of the window reads while BUSY = 0 (R54 to R69): CMD and the reserved offsets read 0. -/
def regValue (c : Config) (b : Block) (addr : Byte) : Word :=
  match addr.toNat with
  | 0x00 => 0#32
  | 0x04 => b.status
  | 0x08 => 0#28 ++ b.errCode
  | 0x0C => b.errCmd
  | 0x10 => b.totalBits
  | 0x14 => b.symCount
  | 0x18 => b.inCount
  | 0x1C => b.hdrCount
  | 0x20 => b.payCount
  | 0x24 => b.outCount
  | 0x28 => b.remaining
  | 0x2C => 0#23 ++ BitVec.ofNat 9 b.candLen
  | 0x30 => pkInfo b
  | 0x34 => unpkInfo b
  | 0x38 => treeInfo b
  | 0x3C => tableInfo b
  | 0x40 => selValue b
  | 0x44 => freqData b
  | 0x48 => nodeWeight b
  | 0x4C => nodeLink b
  | 0x50 => entInfo b
  | 0x54 => entCode b
  | 0x58 => candCode b
  | 0x5C => idWord
  | 0x60 => configWord c
  | _ => 0#32

/-- STATUS while BUSY = 1: BUSY = 1 and the current OVR, every other bit as drawn (R89). -/
def busyStatus (b : Block) (drawn : Word) : Word :=
  (drawn &&& 0xFFFFFFFA#32) ||| (0#29 ++ BitVec.ofBool b.ovr ++ 0#1 ++ BitVec.ofBool true)

/-- What each offset reads while BUSY = 1, given a drawn word: ID, CONFIG and SEL as ever, the reserved offsets 0, STATUS
as above, every other register the drawn word (R89, R69, log 4). -/
def busyValue (c : Config) (b : Block) (drawn : Word) (addr : Byte) : Word :=
  match addr.toNat with
  | 0x04 => busyStatus b drawn
  | 0x40 => selValue b
  | 0x5C => idWord
  | 0x60 => configWord c
  | a => if a ≤ 0x58 then drawn else 0#32

/-- An access the block takes: 32 bits wide at an offset with addr[1:0] = 0 (R86, R87). -/
def accessOk (bits : Nat) (addr : Byte) : Bool :=
  bits == 32 && addr.extractLsb' 0 2 == 0#2

/-- The value RegRead returns (R273, R87, R89). -/
def readValue (bits : Nat) (addr : Byte) (s : State) : Word :=
  if accessOk bits addr = false then 0#32
  else if s.blk.busy then busyValue s.cfg s.blk (Config.freeWord s.draws) addr
  else regValue s.cfg s.blk addr

/-- RegRead(addr): the value goes to the host and the block is not changed (R88, R273). -/
def regRead (bits : Nat) (addr : Byte) (s : State) : State :=
  { s with seen := s.seen ++ [.reg (readValue bits addr s)], draws := s.draws + 1 }

/-- A write to CMD: latched when BUSY = 0, dropped with OVR <- 1 when BUSY = 1 (R31, R32, R55). -/
def writeCmd (v : Word) (s : State) : State :=
  if s.blk.busy then s.withBlk { s.blk with ovr := true } else latchCommand v s

/-- A write to SEL: SEL_INDEX <- v[8:0], SEL_WORD <- v[18:16], whether or not BUSY = 1 (R61). -/
def writeSel (v : Word) (b : Block) : Block :=
  { b with selIndex := v.extractLsb' 0 9, selWord := v.extractLsb' 16 3 }

/-- RegWrite(addr, v) (R272): only CMD and SEL take a write; any other offset, alignment or width changes nothing (R69,
R87). -/
def regWrite (bits : Nat) (addr : Byte) (v : Word) (s : State) : State :=
  if accessOk bits addr = false then s
  else if addr = 0x00#8 then writeCmd v s
  else if addr = 0x40#8 then s.withBlk (writeSel v s.blk)
  else s

/-- The compression result (IN_COUNT, PAY_COUNT, HDR_COUNT) (spec/44_control.md R274). -/
def compressResult (b : Block) : Word × Word × Word := (b.inCount, b.payCount, b.hdrCount)

/-- The decompression result (PAY_COUNT, OUT_COUNT, HDR_COUNT) (spec/44_control.md R275). -/
def decompressResult (b : Block) : Word × Word × Word := (b.payCount, b.outCount, b.hdrCount)

end Sys2Proof.Machine
end

