-- ==== Sys2Proof/Machine/HostMoves.lean ====
section
/-! DEFINITION. The host's moves, each one step (spec/60_exceptions.md R321, spec/70_reset_and_hazards.md R340, R347). -/

namespace Sys2Proof.Machine

open Sys2Proof

/-- Read the sink: the bytes it holds at this moment, all of them while BUSY = 0 and with a prefix of the running command's
while BUSY = 1 (R94). Reading changes no port. -/
def readSink (s : State) : State := { s with seen := s.seen ++ [.sink (portSink s)] }

/-- The hardware reset (R340): every element of the block takes its reset value and a pending command is dropped. The
source, its position and the sink stay as they are at this moment (R53). -/
def hardReset (s : State) : State := { settlePorts s with blk := Block.reset }

/-- Present a source, positioned at its start: only while BUSY = 0 (R82, R347). -/
def presentSource (bytes : List Byte) (s : State) : Answer :=
  if s.blk.busy then .fault .sourceChangedWhileBusy else .next { s with src := bytes, srcPos := 0 }

/-- Rewind the source: only while BUSY = 0 (R82, R347). -/
def rewindSource (s : State) : Answer :=
  if s.blk.busy then .fault .sourceChangedWhileBusy else .next { s with srcPos := 0 }

/-- One move of the host (R321); a wait ends at once when BUSY = 0 (R91). -/
def hostMove (m : HostMove) (s : State) : Answer :=
  match m with
  | .regWrite bits addr v => .next (regWrite bits addr v s)
  | .regRead bits addr => .next (regRead bits addr s)
  | .presentSource bytes => presentSource bytes s
  | .rewindSource => rewindSource s
  | .readSink => .next (readSink s)
  | .hardReset => .next (hardReset s)
  | .awaitIdle => .next s

/-- The host takes the next move of its script, a command in progress having gone on meanwhile (log 5); with no move left the
block waits, idle (R341, log 3). -/
def hostStep (s : State) : Answer :=
  match s.script with
  | [] => .next s
  | m :: ms => hostMove m (progressed { s with script := ms })

end Sys2Proof.Machine
end

