-- ==== Sys2Proof/Machine/Step.lean ====
section
/-! DEFINITION. One step of the machine: the block's step or the host's move (spec/00_scope.md R9, R10;
spec/60_exceptions.md R320, R321). -/

namespace Sys2Proof.Machine

open Sys2Proof

/-- One step: the block's when it is its turn, else the host's next move. -/
def step (s : State) : Host.Outcome State Fault Refusal :=
  if blockTurn s then blockStep s else hostStep s

/-- The state with a command word where the block takes its next one: PENDING, with BUSY = 1, as an accepted CMD write
leaves them (R31), the host waiting. -/
def State.withFetchWord (s : State) (nbits w : Nat) : State :=
  hostAwaits (latchCommand (BitVec.ofNat 32 (w % 2 ^ nbits)) s)

end Sys2Proof.Machine
end

