-- ==== Sys2Proof/Machine/Programs.lean ====
section
/-! DEFINITION. Command names, the assembler and the pseudo-commands of host programs (spec/30_encoding.md R110, R111).
A host program is a list of host moves. -/

namespace Sys2Proof.Machine

open Sys2Proof

/-- The mnemonic of a command (R105). -/
def mnemonic : Instr → String
  | .nop => "NOP"
  | .softReset => "SOFT_RESET"
  | .addSymbol _ => "ADD_SYMBOL"
  | .countSrc => "COUNT_SRC"
  | .build => "BUILD"
  | .assignCodes => "ASSIGN_CODES"
  | .makeHeader => "MAKE_HEADER"
  | .serialize => "SERIALIZE"
  | .deserialize => "DESERIALIZE"
  | .pushBits _ _ => "PUSH_BITS"
  | .pushCode _ => "PUSH_CODE"
  | .flush => "FLUSH"
  | .encodeSrc => "ENCODE_SRC"
  | .decodeStep => "DECODE_STEP"
  | .decodeFinish => "DECODE_FINISH"
  | .decodeRun => "DECODE_RUN"

/-- An operand of an assembler line: a number (decimal, hex or binary) or a character in quotes (R110). -/
inductive AsmOperand where
  | number (n : Nat)
  | char (c : Char)
  deriving DecidableEq, Repr

/-- The value an operand stands for (R110). -/
def AsmOperand.value : AsmOperand → Nat
  | .number n => n
  | .char c => c.toNat

/-- A byte operand, 0 to 255 (R110). -/
def asmByte (o : AsmOperand) : Option Byte :=
  if o.value < 256 then some (BitVec.ofNat 8 o.value) else none

/-- PUSH_BITS n, d: the count first, then the data byte (R104, R110). -/
def asmPushBits (n d : AsmOperand) : Option Instr :=
  match asmByte d with
  | none => none
  | some v =>
    if n.value < 16 && (Instr.pushBits (BitVec.ofNat 4 n.value) v).wf then
      some (.pushBits (BitVec.ofNat 4 n.value) v)
    else none

/-- The commands that take no operand (R110). -/
def plainCommands : List Instr :=
  [.nop, .softReset, .countSrc, .build, .assignCodes, .makeHeader, .serialize, .deserialize, .flush, .encodeSrc,
    .decodeStep, .decodeFinish, .decodeRun]

/-- One line of assembler: a mnemonic and its operands (R110). -/
def assemble (name : String) (ops : List AsmOperand) : Option Instr :=
  match ops with
  | [] => plainCommands.find? fun i => mnemonic i == name
  | [s] =>
    if name == "ADD_SYMBOL" then (asmByte s).map .addSymbol
    else if name == "PUSH_CODE" then (asmByte s).map .pushCode
    else none
  | [n, d] => if name == "PUSH_BITS" then asmPushBits n d else none
  | _ :: _ :: _ :: _ => none

/-- The value of a digit, its place in the list of digits, hex digits in either case (R110, log 15). -/
def digitValue (c : Char) : Option Nat :=
  "0123456789abcdef".toList.findIdx? fun d => d == c.toLower

/-- A number in a base: one digit or more, each below the base, the most significant first (R110). -/
def readNumber (base : Nat) (cs : List Char) : Option AsmOperand :=
  (cs.mapM digitValue).bind fun ds =>
    if ds ≠ [] ∧ ∀ d ∈ ds, d < base then some (.number (ds.foldl (fun n d => base * n + d) 0)) else none

/-- An operand's text: a character in single quotes, hex after 0x, binary after 0b, else decimal (R110). -/
def readOperand : List Char → Option AsmOperand
  | ['\'', '\\', 'n', '\''] => some (.char '\n')
  | ['\'', c, '\''] => some (.char c)
  | '0' :: 'x' :: ds => readNumber 16 ds
  | '0' :: 'b' :: ds => readNumber 2 ds
  | ds => readNumber 10 ds

/-- The pieces of a text between commas, a quoted comma not counting as one. The first argument is the piece so far. -/
def splitCommas : List Char → List Char → List (List Char)
  | piece, [] => [piece]
  | piece, '\'' :: ',' :: '\'' :: cs => splitCommas (piece ++ ['\'', ',', '\'']) cs
  | piece, ',' :: cs => piece :: splitCommas [] cs
  | piece, c :: cs => splitCommas (piece ++ [c]) cs

/-- A text without the spaces around it. -/
def trimSpaces (cs : List Char) : List Char :=
  ((cs.dropWhile (· == ' ')).reverse.dropWhile (· == ' ')).reverse

/-- The operands in the text after a mnemonic, none in an empty one. -/
def readOperands (cs : List Char) : Option (List AsmOperand) :=
  if trimSpaces cs == [] then some []
  else (splitCommas [] cs).mapM fun piece => readOperand (trimSpaces piece)

/-- The command of one line of assembler text (R110, log 15). -/
def assembleLine (line : String) : Option Instr :=
  (readOperands (line.toList.dropWhile (· != ' '))).bind fun ops =>
    assemble (String.ofList (line.toList.takeWhile (· != ' '))) ops

/-- One command under the handshake: write CMD, then wait until BUSY = 0 (R31, R91, R111). -/
def issue (i : Instr) : List HostMove := [.regWrite 32 0x00#8 (encode i), .awaitIdle]

/-- Commands issued one at a time under the handshake (R111). -/
def issueAll (is : List Instr) : List HostMove := is.flatMap issue

/-- PUSH_BIT b (R111). -/
def pseudoPushBit (b : Bool) : List Instr := [.pushBits 1#4 (BitVec.ofNat 8 b.toNat)]

/-- PUSH_BYTE d (R111). -/
def pseudoPushByte (d : Byte) : List Instr := [.pushBits 8#4 d]

/-- HEADER_GEN (R111). -/
def pseudoHeaderGen : List Instr := [.build, .assignCodes, .makeHeader]

/-- COMPRESS (R111): the compression order of R344. -/
def pseudoCompress : List HostMove :=
  issueAll (.countSrc :: pseudoHeaderGen ++ [.serialize]) ++ [.rewindSource] ++ issue .encodeSrc

/-- DECOMPRESS (R111): the decompression order of R345. -/
def pseudoDecompress : List HostMove := issueAll [.deserialize, .decodeRun]

end Sys2Proof.Machine
end

