-- ==== Sys2Proof/Safety.lean ====
section
/-! DEFINITION. What a safe run is, and the words the statements use: what every reachable state satisfies
(spec/10_state.md R71), and how the bit streams, the tree and the code table are read. -/

namespace Sys2Proof.Machine

open Sys2Proof

/-- A step that does not stop the machine. -/
def stepSafe (s : State) : Prop := ∃ t, step s = .next t

/-- The host neither presents nor rewinds the source while BUSY = 1 (R347). -/
def hostKeepsSource (s : State) : Prop :=
  s.blk.busy = true → ∀ m ms, s.script = m :: ms → m ≠ .rewindSource ∧ ∀ bs, m ≠ .presentSource bs

/-! ### The states a command leaves -/

/-- The block with an error recorded and everything else as it was: what R310 leaves. -/
def withError (code : BitVec 4) (s : State) : State :=
  { s with blk := { s.blk with errCode := code, errCmd := s.blk.pending, busy := false } }

/-- Everything but BUSY as it was. -/
def withIdle (s : State) : State := { s with blk := { s.blk with busy := false } }

/-- Every element of the block at the value the table of R70 gives it. -/
structure AtReset (b : Block) : Prop where
  handshake : b.busy = false ∧ b.pending = 0#32 ∧ b.ovr = false
  phase : b.phase.code = 0#3
  error : b.errCode = 0#4 ∧ b.errCmd = 0#32
  freq : (∀ s : Byte, freqAt b.freq s = 0#32) ∧ b.inCount = 0#32
  node : ∀ i : Fin 511, b.node[i] = { weight := 0#32, isLeaf := false, sym := 0#8, left := 0, right := 0 }
  tree : b.nodeCount = 0 ∧ b.nLeaf = 0 ∧ b.root = 0 ∧ b.treePresent = false
  ent : ∀ i : Fin 256, b.ent[i].sym = 0#8 ∧ b.ent[i].len = 0 ∧ ∀ k, b.ent[i].cell k = false
  table : b.entN = 0 ∧ b.totalBits = 0#32 ∧ b.symCount = 0#32
  decoder : b.remaining = 0#32 ∧ b.cand = [] ∧ b.candLen = 0
  packer : b.pkAcc = 0#8 ∧ b.pkCnt = 0
  unpacker : b.unpkByte = 0#8 ∧ b.unpkCnt = 0
  counters : b.hdrCount = 0#32 ∧ b.payCount = 0#32 ∧ b.outCount = 0#32
  selector : b.selIndex = 0#9 ∧ b.selWord = 0#3

/-! ### Streams -/

/-- The bytes of the source not yet read (R53). -/
def restOfSource (s : State) : List Byte := s.src.drop s.srcPos

/-- The bits held by the packer, in the order they were pushed: PK_ACC[7] down to PK_ACC[8 - PK_CNT] (R47). -/
def heldBits (b : Block) : Bits :=
  (List.range b.pkCnt.val).map fun k => b.pkAcc.getLsbD (7 - k)

/-- The bits the decoder has yet to read: the unpacker's UNPK_CNT last bits of UNPK_BYTE, then the source's, each byte's
bit 7 first (R48, R230). -/
def unreadBits (s : State) : Bits :=
  (bitsOfByte s.blk.unpkByte).drop (8 - s.blk.unpkCnt.val) ++ (restOfSource s).flatMap bitsOfByte

/-- One bit read by the unpacker on the way from `s` to `t`: the next bit of UNPK_BYTE while UNPK_CNT is not 0, else bit 7
of the next source byte, which is then counted and kept (R231). -/
def BitTaken (s t : State) (b : Bool) : Prop :=
  (s.blk.unpkCnt ≠ 0 ∧ b = s.blk.unpkByte.getLsbD (s.blk.unpkCnt.val - 1) ∧ t.srcPos = s.srcPos
    ∧ t.blk.payCount = s.blk.payCount ∧ t.blk.unpkByte = s.blk.unpkByte ∧ t.blk.unpkCnt.val = s.blk.unpkCnt.val - 1)
  ∨ (s.blk.unpkCnt = 0 ∧ ∃ x, s.src[s.srcPos]? = some x ∧ b = x.getLsbD 7 ∧ t.srcPos = s.srcPos + 1
    ∧ t.blk.payCount = s.blk.payCount + 1#32 ∧ t.blk.unpkByte = x ∧ t.blk.unpkCnt = 7)

/-! ### The code table and the tree -/

/-- The symbols counted at least once, ascending (R132, R136). -/
def countedSymbols (f : Vector Word 256) : List Byte :=
  ((List.range 256).map (BitVec.ofNat 8)).filter fun c => freqAt f c != 0#32

/-- The entry of least index below ENT_N with a property (R205, R234). -/
def firstEntry (b : Block) (p : Entry → Prop) (i : Fin 256) : Prop :=
  i.val < b.entN.val ∧ p b.ent[i] ∧ ∀ j : Fin 256, j < i → ¬ p b.ent[j]

/-- No entry has a property. -/
def noEntry (b : Block) (p : Entry → Prop) : Prop :=
  ∀ i : Fin 256, i.val < b.entN.val → ¬ p b.ent[i]

/-- No code is a start of another's (R148). -/
def PrefixFree (b : Block) : Prop :=
  ∀ i j : Fin 256, i.val < b.entN.val → j.val < b.entN.val → i ≠ j → ¬ b.ent[i].code <+: b.ent[j].code

/-- The node a path leads to, 0 for left and 1 for right (R144). -/
def follow (node : Vector Node 511) (i : Fin 511) : Bits → Fin 511
  | [] => i
  | b :: p => follow node (if b then node[i].right else node[i].left) p

/-- Node i has been created before index k and not yet been merged below it: it is in the priority collection when the
node of index k is made (R134, R136). -/
def Unmerged (b : Block) (k : Nat) (i : Fin 511) : Prop :=
  i.val < k ∧ ∀ j : Fin 511, b.nLeaf.val ≤ j.val → j.val < k → b.node[j].left ≠ i ∧ b.node[j].right ≠ i

/-- Node i precedes node j in the order of R137: the lesser weight, or the lesser index at equal weight. -/
def Precedes (b : Block) (i j : Fin 511) : Prop :=
  b.node[i].weight.toNat < b.node[j].weight.toNat ∨ b.node[i].weight = b.node[j].weight ∧ i.val < j.val

/-! ### Invariants (R71 and the rules named at each) -/

/-- IN_COUNT is the sum of the frequencies (R38, R71). -/
def CountInv (b : Block) : Prop :=
  b.inCount.toNat = (b.freq.toList.map fun w => w.toNat).sum

/-- The bits of PK_ACC below the held ones are 0 (R47, R71). -/
def PackerInv (b : Block) : Prop :=
  ∀ k, k < 8 - b.pkCnt.val → b.pkAcc.getLsbD k = false

/-- The read position is within the source (R53). -/
def PortInv (s : State) : Prop := s.srcPos ≤ s.src.length

/-- ERRCODE is 0 or a code the block raises, 2 to 9, and ERR_CMD is 0 while it is 0 (R36, R300, I13). -/
def ErrorInv (b : Block) : Prop :=
  (b.errCode = 0#4 → b.errCmd = 0#32) ∧ b.errCode ≠ 1#4 ∧ b.errCode.toNat ≤ 9

/-- The header counts in READY and DONE (R43, R44). -/
def HeaderInv (b : Block) : Prop :=
  b.phase = .ready ∨ b.phase = .done → b.totalBits.toNat ≤ 0x7FFFFFFF ∧ b.symCount.toNat ≤ 256

/-- The decoder's counters (R46, R71, R237): the candidate never holds more bits than are owed, it is full only after
CorruptPayload, and between commands without an error it holds fewer than are owed or nothing is owed and it is empty. -/
structure DecoderInv (b : Block) : Prop where
  idle : b.phase = .count ∨ b.phase = .built ∨ b.phase = .coded →
    b.remaining = 0#32 ∧ b.cand = [] ∧ b.unpkCnt = 0
  bounded : b.cand.length ≤ b.remaining.toNat
  running : b.errCode = 0#4 → b.cand.length < b.remaining.toNat ∨ b.remaining = 0#32
  corrupt : b.cand.length ≤ 256 ∧ (b.cand.length = 256 ↔ b.errCode = 3#4)
  finished : b.phase = .done → b.remaining = 0#32
  owed : b.phase = .ready ∨ b.phase = .done → b.remaining.toNat ≤ b.totalBits.toNat

/-- The tree (R39, R40, R71, R141): the leaves below NLEAF in ascending symbol order with their frequencies, then the
internal nodes over two lower ones, no node below two of them, and the last of them the root. -/
structure TreeInv (b : Block) : Prop where
  counting : b.phase = .count → b.nLeaf = 0
  size : b.nodeCount.val = 2 * b.nLeaf.val - 1
  present : b.treePresent = true ↔ b.nLeaf ≠ 0
  root : b.root.val = b.nodeCount.val - 1
  leaf : ∀ i : Fin 511, i.val < b.nLeaf.val →
    (nodeAt b.node i).isLeaf = true ∧ (nodeAt b.node i).left = 0 ∧ (nodeAt b.node i).right = 0
    ∧ (nodeAt b.node i).weight = freqAt b.freq (nodeAt b.node i).sym ∧ (nodeAt b.node i).weight ≠ 0#32
  ascending : ∀ i j : Fin 511, i < j → j.val < b.nLeaf.val → (nodeAt b.node i).sym < (nodeAt b.node j).sym
  inner : ∀ k : Fin 511, b.nLeaf.val ≤ k.val → k.val < b.nodeCount.val →
    (nodeAt b.node k).isLeaf = false ∧ (nodeAt b.node k).sym = 0#8
    ∧ (nodeAt b.node k).left < k ∧ (nodeAt b.node k).right < k ∧ (nodeAt b.node k).left ≠ (nodeAt b.node k).right
    ∧ (nodeAt b.node k).weight.toNat
      = (nodeAt b.node (nodeAt b.node k).left).weight.toNat + (nodeAt b.node (nodeAt b.node k).right).weight.toNat
  once : ∀ j k : Fin 511, b.nLeaf.val ≤ j.val → j < k → k.val < b.nodeCount.val →
    (nodeAt b.node k).left ≠ (nodeAt b.node j).left ∧ (nodeAt b.node k).left ≠ (nodeAt b.node j).right
    ∧ (nodeAt b.node k).right ≠ (nodeAt b.node j).left ∧ (nodeAt b.node k).right ≠ (nodeAt b.node j).right
  parent : ∀ i : Fin 511, i < b.root → ∃ k : Fin 511, b.nLeaf.val ≤ k.val ∧ k.val < b.nodeCount.val
    ∧ ((nodeAt b.node k).left = i ∨ (nodeAt b.node k).right = i)
  total : b.nLeaf ≠ 0 → (nodeAt b.node b.root).weight = b.inCount
  unused : ∀ i : Fin 511, b.nodeCount.val ≤ i.val → nodeAt b.node i = Node.zero

/-- The code table (R41, R42, R71): entries from ENT_N on hold 0, no code is longer than 255 bits, the table is empty until
codes are assigned or read, and assigned entries follow the leaves, each with a code (R146, R147). -/
structure TableInv (b : Block) : Prop where
  unused : ∀ i : Fin 256, b.entN.val ≤ i.val → b.ent[i] = Entry.zero
  short : ∀ i : Fin 256, b.ent[i].code.length ≤ 255
  closed : b.errCode = 0#4 → b.phase = .count ∨ b.phase = .built → b.entN = 0
  coded : b.phase = .coded → b.entN = b.nLeaf ∧ ∀ (i : Fin 256), i.val < b.entN.val →
    1 ≤ b.ent[i].code.length ∧ ∃ j : Fin 511, j.val = i.val ∧ b.ent[i].sym = (nodeAt b.node j).sym

end Sys2Proof.Machine
end

