-- ==== Sys2Proof/Certificates/Slice0/Obligations.lean ====
section
/-! DEFINITION. The statements about the model, from the numbered rules of spec/. -/

open Sys2Proof Sys2Proof.Machine

/-! ### Encoding -/

/-- Decoding the word of a well-formed command gives the command back, with every operand at every value the encoding
admits (R100, R101, R105). -/
def Obligations.DecodeOfEncode : Prop :=
  ∀ i : Instr, i.wf = true → decode (encode i) = .ok i

/-- A word that decodes is the word of the command it decodes to, and that command is well formed: no two words are one
command and no word is two (R107). -/
def Obligations.EncodeOfDecode : Prop :=
  ∀ (w : Word) (i : Instr), decode w = .ok i → i.wf = true ∧ encode i = w

/-- Words written out from the spec's encodings decode to the commands they stand for (R104, R105, 95_test_vectors.md). -/
def Obligations.SpecWordsDecode : Prop :=
  decode 0x00000000#32 = .ok .nop ∧ decode 0x00000001#32 = .ok .softReset
  ∧ decode 0x00006110#32 = .ok (.addSymbol 0x61#8) ∧ decode 0x00000012#32 = .ok .build
  ∧ decode 0x00000014#32 = .ok .makeHeader ∧ decode 0x00000021#32 = .ok .deserialize
  ∧ decode 0x00030530#32 = .ok (.pushBits 3#4 0x05#8) ∧ decode 0x0008FF30#32 = .ok (.pushBits 8#4 0xFF#8)
  ∧ decode 0x00002031#32 = .ok (.pushCode 0x20#8) ∧ decode 0x00000042#32 = .ok .decodeRun
  ∧ decode 0x00035030#32 = .error .unusedDataBits ∧ decode 0x00016110#32 = .error .reservedBits

/-- R104: a word with OPC 0x30 is PUSH_BITS if and only if bits [31:20] are 0, 1 ≤ NBITS ≤ 8 and SYM[7:NBITS] = 0; on every
other word with OPC 0x30 the block's step raises IllegalCommand. The rule's two examples are stated too. -/
def Obligations.PushBitsWordIsLegalIff : Prop :=
  (∀ w : Word, w.extractLsb' 0 8 = 0x30#8 →
    let n := w.extractLsb' 16 4
    let d := w.extractLsb' 8 8
    let legal := w.extractLsb' 20 12 = 0#12 ∧ 1 ≤ n.toNat ∧ n.toNat ≤ 8
      ∧ ∀ k, n.toNat ≤ k → k < 8 → d.getLsbD k = false
    (legal → decode w = .ok (.pushBits n d))
    ∧ (¬ legal → ∀ s : State, s.blk.busy = true → s.blk.errCode = 0#4 → s.blk.pending = w →
        blockStep s = .next (withError 5#4 s)))
  ∧ (∃ r, decode 0x00035030#32 = .error r)
  ∧ decode 0x00030530#32 = .ok (.pushBits 3#4 0x05#8) ∧ operandBits 3#4 0x05#8 = [true, false, true]

/-- R102, R106: nonzero bits [31:8] with the OPC of a command without operands, and every OPC outside the opcode map whatever
its other bits, raise IllegalCommand in the block's step; so do nonzero bits [31:16] with OPC 0x10 or 0x31. -/
def Obligations.ReservedWordsRaiseIllegalCommand : Prop :=
  ∀ s : State, s.blk.busy = true → s.blk.errCode = 0#4 →
    let w := s.blk.pending
    let opc := w.extractLsb' 0 8
    let plain := [0x00#8, 0x01#8, 0x11#8, 0x12#8, 0x13#8, 0x14#8, 0x20#8, 0x21#8, 0x32#8, 0x33#8, 0x40#8, 0x41#8, 0x42#8]
    (opc ∈ plain → w.extractLsb' 8 24 ≠ 0#24 → blockStep s = .next (withError 5#4 s))
    ∧ (opc = 0x10#8 ∨ opc = 0x31#8 → w.extractLsb' 16 16 ≠ 0#16 → blockStep s = .next (withError 5#4 s))
    ∧ (opc ∉ plain → opc ≠ 0x10#8 → opc ≠ 0x30#8 → opc ≠ 0x31#8 → blockStep s = .next (withError 5#4 s))

/-! ### The step -/

/-- When it is the block's turn (BUSY = 1 and the host waiting or without a move, log 2) and PENDING decodes to a command,
the step is that command's meaning and nothing more; otherwise the step is the host's next move, and with no move left the
machine keeps its state (R320, R321, R341). Which of the two moves when both could is the model's choice (log 2). Before a
host move a command in progress goes on by some number of port effects, which changes the model's own fields only (log 5). -/
def Obligations.StepRunsDecodedCommand : Prop :=
  (∀ s : State, blockTurn s = true → step s = blockStep s ∧ ∀ i : Instr, decode s.blk.pending = .ok i → step s = exec i s)
  ∧ (∀ (s : State) (m : HostMove) (ms : List HostMove), blockTurn s = false → s.script = m :: ms →
      step s = hostMove m (progressed { s with script := ms }))
  ∧ (∀ s : State, (s.blk.busy = false → progressed s = s)
      ∧ ∃ p d, s.progress ≤ p ∧ progressed s = { s with progress := p, draws := d })
  ∧ (∀ s : State, s.blk.busy = false → s.script = [] → step s = .next s)

/-- R312: while ERRCODE is not 0, every pending word other than exactly NOP's and SOFT_RESET's is refused: the block's step
changes nothing but BUSY <- 0. -/
def Obligations.ErrorsAreStickyForEveryWord : Prop :=
  ∀ s : State, s.blk.busy = true → s.blk.errCode ≠ 0#4 →
    s.blk.pending ≠ 0x00000000#32 → s.blk.pending ≠ 0x00000001#32 →
    blockStep s = .next (withIdle s)

/-- R307: outside the phases of its row, or with its extra condition false, a command raises SequenceError and does
nothing else. -/
def Obligations.OutOfOrderCommandsRaiseSequenceError : Prop :=
  ∀ s : State, s.blk.errCode = 0#4 →
    (s.blk.phase ≠ .count → (∀ c, exec (.addSymbol c) s = .next (withError 6#4 s))
      ∧ exec .countSrc s = .next (withError 6#4 s) ∧ exec .build s = .next (withError 6#4 s)
      ∧ exec .deserialize s = .next (withError 6#4 s))
    ∧ (s.blk.phase ≠ .built → exec .assignCodes s = .next (withError 6#4 s))
    ∧ (s.blk.phase ≠ .coded → exec .makeHeader s = .next (withError 6#4 s))
    ∧ (s.blk.phase ≠ .ready ∨ s.blk.pkCnt ≠ 0 → exec .serialize s = .next (withError 6#4 s))
    ∧ (s.blk.phase ≠ .ready → (∀ c, exec (.pushCode c) s = .next (withError 6#4 s))
      ∧ exec .encodeSrc s = .next (withError 6#4 s) ∧ exec .decodeStep s = .next (withError 6#4 s)
      ∧ exec .decodeRun s = .next (withError 6#4 s))
    ∧ (s.blk.phase ≠ .ready ∨ s.blk.remaining ≠ 0#32 → exec .decodeFinish s = .next (withError 6#4 s))

/-- No command ends in a fault or a refusal, and a step stops the machine only when the host moves the source while
BUSY = 1 (R310, R347, log 6). -/
def Obligations.EveryStepAnswers : Prop :=
  (∀ (i : Instr) (s : State), ∃ t, exec i s = .next t)
  ∧ (∀ s : State, hostKeepsSource s → stepSafe s)
  ∧ (∀ (s : State) (f : Fault), step s = .fault f →
      s.blk.busy = true ∧ ∃ m ms, s.script = m :: ms ∧ (m = .rewindSource ∨ ∃ bs, m = .presentSource bs))

/-! ### Control -/

/-- NOP changes nothing but BUSY <- 0, in every phase and also while ERRCODE is not 0 (R270). -/
def Obligations.NopOnlyClearsBusy : Prop :=
  ∀ s : State, exec .nop s = .next (withIdle s)

/-- SOFT_RESET gives every element of the block its reset value, in every phase and also while ERRCODE is not 0, and leaves
the source, its position and the sink; State.reset's block has the same values (R70, R271). -/
def Obligations.SoftResetRestoresEveryElement : Prop :=
  (∀ s : State, ∃ t, exec .softReset s = .next t ∧ AtReset t.blk ∧ t = { s with blk := t.blk })
  ∧ AtReset State.reset.blk

/-! ### Counting -/

/-- R131, for ADD_SYMBOL: FREQ of the symbol and IN_COUNT grow by 1 and nothing else changes; with IN_COUNT = 2^32-1 it
raises Overflow and writes nothing. Every symbol value counts (R130). -/
def Obligations.AddSymbolCountsOrOverflows : Prop :=
  ∀ (c : Byte) (s : State), s.blk.errCode = 0#4 → s.blk.phase = .count →
    (s.blk.inCount ≠ 0xFFFFFFFF#32 → ∃ t, exec (.addSymbol c) s = .next t
      ∧ (∀ d, freqAt t.blk.freq d = if d = c then freqAt s.blk.freq d + 1#32 else freqAt s.blk.freq d)
      ∧ t = { s with blk := { s.blk with freq := t.blk.freq, inCount := s.blk.inCount + 1#32, busy := false } })
    ∧ (s.blk.inCount = 0xFFFFFFFF#32 → exec (.addSymbol c) s = .next (withError 9#4 s))

/-- COUNT_SRC counts every byte left in the source and exhausts it, when the counts fit (R133). -/
def Obligations.CountSrcCountsEveryByte : Prop :=
  ∀ s : State, s.blk.errCode = 0#4 → s.blk.phase = .count → PortInv s →
    s.blk.inCount.toNat + (restOfSource s).length < 2 ^ 32 →
    ∃ t, exec .countSrc s = .next t
      ∧ (∀ c, freqAt t.blk.freq c = freqAt s.blk.freq c + BitVec.ofNat 32 ((restOfSource s).count c))
      ∧ t = { s with
          srcPos := s.src.length
          blk := { s.blk with
            freq := t.blk.freq
            inCount := s.blk.inCount + BitVec.ofNat 32 (restOfSource s).length
            busy := false } }

/-- COUNT_SRC past IN_COUNT = 2^32-1: the bytes before are counted, the byte whose count would overflow has been read and
is not counted, and Overflow is raised there (R131, R133, R311). -/
def Obligations.CountSrcOverflowsAtTheByte : Prop :=
  ∀ s : State, s.blk.errCode = 0#4 → s.blk.phase = .count →
    2 ^ 32 ≤ s.blk.inCount.toNat + (restOfSource s).length →
    let n := 2 ^ 32 - 1 - s.blk.inCount.toNat
    ∃ t, exec .countSrc s = .next t
      ∧ (∀ c, freqAt t.blk.freq c = freqAt s.blk.freq c + BitVec.ofNat 32 (((restOfSource s).take n).count c))
      ∧ t = { s with
          srcPos := s.srcPos + n + 1
          blk := { s.blk with
            freq := t.blk.freq
            inCount := 0xFFFFFFFF#32
            errCode := 9#4
            errCmd := s.blk.pending
            busy := false } }

/-! ### The tree -/

/-- BUILD places the leaves: one for each symbol counted at least once and no other, in ascending symbol value from index 0
on, each with its frequency; it writes only the tree, PHASE and BUSY (R132, R135, R136, R139). -/
def Obligations.BuildPlacesLeavesInSymbolOrder : Prop :=
  ∀ s : State, s.blk.errCode = 0#4 → s.blk.phase = .count →
    ∃ t, exec .build s = .next t
      ∧ t.blk.nLeaf.val = (countedSymbols s.blk.freq).length
      ∧ (∀ (i : Fin 511) (h : i.val < (countedSymbols s.blk.freq).length),
          t.blk.node[i] = ⟨freqAt s.blk.freq (countedSymbols s.blk.freq)[i.val], true,
            (countedSymbols s.blk.freq)[i.val], 0, 0⟩)
      ∧ t = { s with blk := { s.blk with
          node := t.blk.node
          nodeCount := t.blk.nodeCount
          nLeaf := t.blk.nLeaf
          root := t.blk.root
          treePresent := t.blk.treePresent
          phase := .built
          busy := false } }

/-- BUILD merges greedily: each internal node k has as left child the least unmerged node in the order (weight, index), as
right child the next least, and as weight their sum; there are NLEAF-1 merges, the last node is the root, and nodes from
NODE_COUNT on are not written (R134 to R141). -/
def Obligations.BuildMergesTheTwoLeast : Prop :=
  ∀ s : State, s.blk.errCode = 0#4 → s.blk.phase = .count →
    ∃ t, exec .build s = .next t
      ∧ t.blk.nodeCount.val = 2 * t.blk.nLeaf.val - 1
      ∧ (t.blk.treePresent = true ↔ t.blk.nLeaf ≠ 0)
      ∧ t.blk.root.val = t.blk.nodeCount.val - 1
      ∧ (∀ k : Fin 511, t.blk.nLeaf.val ≤ k.val → k.val < t.blk.nodeCount.val →
          ∃ a b : Fin 511,
            t.blk.node[k] = ⟨t.blk.node[a].weight + t.blk.node[b].weight, false, 0#8, a, b⟩
            ∧ Unmerged t.blk k.val a ∧ Unmerged t.blk k.val b ∧ Precedes t.blk a b
            ∧ ∀ i : Fin 511, Unmerged t.blk k.val i → i ≠ a → i ≠ b → Precedes t.blk b i)
      ∧ (∀ i : Fin 511, t.blk.nodeCount.val ≤ i.val → t.blk.node[i] = s.blk.node[i])

/-! ### Codes and counts -/

/-- ASSIGN_CODES gives leaf i of a tree the path to it as the code of entry i, with the leaf's symbol; a single leaf gets
the code "0"; every length is 1 to 255; entries from NLEAF on and everything but ENT, ENT_N, PHASE and BUSY are unchanged
(R143 to R147). -/
def Obligations.AssignCodesFollowsTheTree : Prop :=
  ∀ s : State, s.blk.errCode = 0#4 → s.blk.phase = .built → TreeInv s.blk →
    ∃ t, exec .assignCodes s = .next t
      ∧ (∀ (i : Fin 256) (j : Fin 511), j.val = i.val → i.val < s.blk.nLeaf.val →
          t.blk.ent[i].sym = s.blk.node[j].sym
          ∧ 1 ≤ t.blk.ent[i].len ∧ t.blk.ent[i].len ≤ 255
          ∧ (s.blk.nLeaf.val = 1 → t.blk.ent[i].code = [false])
          ∧ (1 < s.blk.nLeaf.val → follow s.blk.node s.blk.root t.blk.ent[i].code = j
              ∧ ∀ p q, t.blk.ent[i].code = p ++ q → q ≠ [] → s.blk.node[follow s.blk.node s.blk.root p].isLeaf = false))
      ∧ (∀ i : Fin 256, s.blk.nLeaf.val ≤ i.val → t.blk.ent[i] = s.blk.ent[i])
      ∧ t = { s with blk := { s.blk with ent := t.blk.ent, entN := s.blk.nLeaf, phase := .coded, busy := false } }

/-- The codes ASSIGN_CODES writes are prefix-free: no code is a start of another's (R148, which the spec derives from R147). -/
def Obligations.AssignedCodesArePrefixFree : Prop :=
  ∀ s : State, s.blk.errCode = 0#4 → s.blk.phase = .built → TreeInv s.blk →
    ∃ t, exec .assignCodes s = .next t ∧ PrefixFree t.blk

/-- MAKE_HEADER: with T the sum over the valid entries of frequency × code length, TOTAL_BITS and REMAINING become T,
SYM_COUNT becomes ENT_N, the candidate is emptied and PHASE is READY; a T above 2^31-1 raises Overflow and writes
nothing (R149 to R152). -/
def Obligations.MakeHeaderSumsWeightedLengths : Prop :=
  ∀ s : State, s.blk.errCode = 0#4 → s.blk.phase = .coded →
    let T := ∑ i : Fin 256, if i.val < s.blk.entN.val
      then (freqAt s.blk.freq s.blk.ent[i].sym).toNat * s.blk.ent[i].len else 0
    (T ≤ 0x7FFFFFFF → exec .makeHeader s = .next { s with blk := { s.blk with
      totalBits := BitVec.ofNat 32 T
      symCount := BitVec.ofNat 32 s.blk.entN.val
      remaining := BitVec.ofNat 32 T
      cand := []
      phase := .ready
      busy := false } })
    ∧ (0x7FFFFFFF < T → exec .makeHeader s = .next (withError 9#4 s))

/-! ### The header -/

/-- The byte forms of a header: PutU32 and GetU32 in both byte orders, and the bytes of an entry, whose code byte j has bit
(7-k) equal to code bit 8j+k and 0 past the end (R172). -/
def Obligations.HeaderBytesAreAsSpecified : Prop :=
  (∀ (v : Word) (j : Nat), j < 4 → (u32Bytes .le v)[j]? = some (v.extractLsb' (8 * j) 8)
    ∧ (u32Bytes .be v)[j]? = some (v.extractLsb' (8 * (3 - j)) 8))
  ∧ (∀ b0 b1 b2 b3 : Byte, u32OfBytes .le b0 b1 b2 b3 = b3 ++ b2 ++ b1 ++ b0
    ∧ u32OfBytes .be b0 b1 b2 b3 = b0 ++ b1 ++ b2 ++ b3)
  ∧ (∀ e : Entry, (entryBytes e).length = 2 + (e.len + 7) / 8
    ∧ (entryBytes e)[0]? = some e.sym ∧ (entryBytes e)[1]? = some (BitVec.ofNat 8 e.len)
    ∧ ∀ j k, j < (e.len + 7) / 8 → k < 8 →
        ∃ b, (entryBytes e)[2 + j]? = some b ∧ b.getLsbD (7 - k) = e.code.getD (8 * j + k) false)

/-- SERIALIZE appends to the sink TOTAL_BITS, SYM_COUNT and the entries below ENT_N in index order, counts each byte in
HDR_COUNT, and changes nothing else; the header has 8 + Σ (2 + ceil(len/8)) bytes (R173, R174). -/
def Obligations.SerializeWritesTheHeader : Prop :=
  ∀ s : State, s.blk.errCode = 0#4 → s.blk.phase = .ready → s.blk.pkCnt = 0 →
    let es := (List.finRange 256).filterMap fun i => if i.val < s.blk.entN.val then some s.blk.ent[i] else none
    let hdr := u32Bytes s.cfg.hdrOrder s.blk.totalBits ++ u32Bytes s.cfg.hdrOrder s.blk.symCount ++ es.flatMap entryBytes
    hdr.length = 8 + (es.map fun e => 2 + (e.len + 7) / 8).sum
    ∧ exec .serialize s = .next { s with
        snk := s.snk ++ hdr
        blk := { s.blk with hdrCount := s.blk.hdrCount + BitVec.ofNat 32 hdr.length, busy := false } }

/-- DESERIALIZE on a source that holds a whole header: `raw` lists for each entry its symbol byte, its length byte and its
code bytes, any padding bits included. The entries are stored with the first `len` bits of their code bytes, the counts
and REMAINING are loaded, the header's bytes are consumed and counted, and nothing else changes (R179, R180, R181). -/
def Obligations.DeserializeReadsTheTable : Prop :=
  ∀ (s : State) (t c : Word) (raw : List (Byte × Byte × List Byte)) (rest : List Byte),
    s.blk.errCode = 0#4 → s.blk.phase = .count → t.msb = false → raw.length ≤ 256 → c.toNat = raw.length →
    (∀ r ∈ raw, r.2.2.length = (r.2.1.toNat + 7) / 8) →
    restOfSource s = u32Bytes s.cfg.hdrOrder t ++ u32Bytes s.cfg.hdrOrder c
      ++ (raw.flatMap fun r => r.1 :: r.2.1 :: r.2.2) ++ rest →
    let n := 8 + (raw.map fun r => 2 + r.2.2.length).sum
    ∃ u, exec .deserialize s = .next u
      ∧ u.blk.entN.val = raw.length
      ∧ (∀ (i : Fin 256) (h : i.val < raw.length), u.blk.ent[i] =
          { sym := raw[i.val].1, code := (raw[i.val].2.2.flatMap bitsOfByte).take raw[i.val].2.1.toNat })
      ∧ (∀ i : Fin 256, raw.length ≤ i.val → u.blk.ent[i] = s.blk.ent[i])
      ∧ u = { s with
          srcPos := s.srcPos + n
          blk := { s.blk with
            ent := u.blk.ent
            entN := u.blk.entN
            totalBits := t
            symCount := c
            remaining := t
            cand := []
            hdrCount := s.blk.hdrCount + BitVec.ofNat 32 n
            phase := .ready
            busy := false } }

/-- R178: after both integers are read, a negative totalEncodedBits, or a symbolCount that is negative or above 256, raises
HeaderRange; the two counts hold the values read and nothing else but the eight bytes read changes. -/
def Obligations.DeserializeChecksTheRange : Prop :=
  ∀ (s : State) (t c : Word) (rest : List Byte),
    s.blk.errCode = 0#4 → s.blk.phase = .count →
    t.toInt < 0 ∨ c.toInt < 0 ∨ 256 < c.toInt →
    restOfSource s = u32Bytes s.cfg.hdrOrder t ++ u32Bytes s.cfg.hdrOrder c ++ rest →
    exec .deserialize s = .next { s with
      srcPos := s.srcPos + 8
      blk := { s.blk with
        totalBits := t
        symCount := c
        hdrCount := s.blk.hdrCount + 8#32
        errCode := 8#4
        errCmd := s.blk.pending
        busy := false } }

/-- DESERIALIZE on a source that ends too early raises TruncatedHeader at the byte that is missing: in the first integer, in
the second, or in the entry after `raw` whole ones, of which `part` is what the source holds. Whatever was read before
stays, the unfinished entry is not written, ENT_N counts the whole ones (R177, R180, R181, R302). -/
def Obligations.DeserializeStopsWhereTheHeaderEnds : Prop :=
  ∀ s : State, s.blk.errCode = 0#4 → s.blk.phase = .count →
    let n := (restOfSource s).length
    (n < 4 → exec .deserialize s = .next { s with
        srcPos := s.srcPos + n
        blk := { s.blk with
          hdrCount := s.blk.hdrCount + BitVec.ofNat 32 n
          errCode := 2#4
          errCmd := s.blk.pending
          busy := false } })
    ∧ (∀ (t : Word) (more : List Byte), more.length < 4 → restOfSource s = u32Bytes s.cfg.hdrOrder t ++ more →
        exec .deserialize s = .next { s with
          srcPos := s.srcPos + n
          blk := { s.blk with
            totalBits := t
            hdrCount := s.blk.hdrCount + BitVec.ofNat 32 n
            errCode := 2#4
            errCmd := s.blk.pending
            busy := false } })
    ∧ (∀ (t c : Word) (raw : List (Byte × Byte × List Byte)) (part : List Byte),
        t.msb = false → c.toNat ≤ 256 → raw.length < c.toNat →
        (∀ r ∈ raw, r.2.2.length = (r.2.1.toNat + 7) / 8) →
        (∀ sym len bytes, part = sym :: len :: bytes → bytes.length < (len.toNat + 7) / 8) →
        restOfSource s = u32Bytes s.cfg.hdrOrder t ++ u32Bytes s.cfg.hdrOrder c
          ++ (raw.flatMap fun r => r.1 :: r.2.1 :: r.2.2) ++ part →
        ∃ u, exec .deserialize s = .next u
          ∧ u.blk.entN.val = raw.length
          ∧ (∀ (i : Fin 256) (h : i.val < raw.length), u.blk.ent[i] =
              { sym := raw[i.val].1, code := (raw[i.val].2.2.flatMap bitsOfByte).take raw[i.val].2.1.toNat })
          ∧ (∀ i : Fin 256, raw.length ≤ i.val → u.blk.ent[i] = s.blk.ent[i])
          ∧ u = { s with
              srcPos := s.srcPos + n
              blk := { s.blk with
                ent := u.blk.ent
                entN := u.blk.entN
                totalBits := t
                symCount := c
                hdrCount := s.blk.hdrCount + BitVec.ofNat 32 n
                errCode := 2#4
                errCmd := s.blk.pending
                busy := false } })

/-- What SERIALIZE writes, DESERIALIZE reads back: for every table whose codes have at most 255 bits and whose counts are in
range, a block of the same HDR_ORDER that finds the header's bytes in its source loads the same counts and entries and
stops at the byte after the header (R174, R180; the header half of R248). -/
def Obligations.DeserializeReadsBackSerialize : Prop :=
  ∀ s : State, s.blk.errCode = 0#4 → s.blk.phase = .ready → s.blk.pkCnt = 0 →
    s.blk.totalBits.toNat ≤ 0x7FFFFFFF → s.blk.symCount.toNat = s.blk.entN.val →
    (∀ i : Fin 256, i.val < s.blk.entN.val → s.blk.ent[i].len ≤ 255) →
    ∃ t hdr, exec .serialize s = .next t ∧ t.snk = s.snk ++ hdr
      ∧ ∀ (u : State) (rest : List Byte), u.cfg = s.cfg → u.blk.errCode = 0#4 → u.blk.phase = .count →
          restOfSource u = hdr ++ rest →
          ∃ v, exec .deserialize u = .next v ∧ v.blk.phase = .ready ∧ restOfSource v = rest
            ∧ v.blk.totalBits = s.blk.totalBits ∧ v.blk.symCount = s.blk.symCount
            ∧ v.blk.remaining = s.blk.totalBits ∧ v.blk.entN = s.blk.entN
            ∧ ∀ i : Fin 256, i.val < s.blk.entN.val → v.blk.ent[i] = s.blk.ent[i]

/-! ### The bit packer -/

/-- PUSH_BITS: the bits held before, then the data bits d[n-1] to d[0], are exactly the bits of the bytes written to the
sink, most significant bit first, followed by the bits held after; only the packer, the sink and PAY_COUNT change
(R200, R201, R203). -/
def Obligations.PushBitsKeepsBitOrder : Prop :=
  ∀ (n : BitVec 4) (d : Byte) (s : State), s.blk.errCode = 0#4 →
    ∃ t out, exec (.pushBits n d) s = .next t
      ∧ out.flatMap bitsOfByte ++ heldBits t.blk
          = heldBits s.blk ++ ((List.range n.toNat).map fun k => d.getLsbD (n.toNat - 1 - k))
      ∧ t = { s with
          snk := s.snk ++ out
          blk := { s.blk with
            pkAcc := t.blk.pkAcc
            pkCnt := t.blk.pkCnt
            payCount := s.blk.payCount + BitVec.ofNat 32 out.length
            busy := false } }

/-- PUSH_CODE pushes the bits of the code of the valid entry of least index that has the symbol, in stream order, and
changes only the packer, the sink and PAY_COUNT; without such an entry it raises UnknownSymbol and writes nothing
(R204, R205, R308). -/
def Obligations.PushCodePushesTheFirstEntry : Prop :=
  ∀ (c : Byte) (s : State), s.blk.errCode = 0#4 → s.blk.phase = .ready →
    (∀ i : Fin 256, firstEntry s.blk (fun e => e.sym = c) i →
      ∃ t out, exec (.pushCode c) s = .next t
        ∧ out.flatMap bitsOfByte ++ heldBits t.blk = heldBits s.blk ++ s.blk.ent[i].code
        ∧ t = { s with
            snk := s.snk ++ out
            blk := { s.blk with
              pkAcc := t.blk.pkAcc
              pkCnt := t.blk.pkCnt
              payCount := s.blk.payCount + BitVec.ofNat 32 out.length
              busy := false } })
    ∧ (noEntry s.blk (fun e => e.sym = c) → exec (.pushCode c) s = .next (withError 7#4 s))

/-- FLUSH writes PK_ACC as one byte and clears the packer when it holds bits, and changes nothing when it holds none
(R202, R206). -/
def Obligations.FlushWritesThePartialByte : Prop :=
  ∀ s : State, s.blk.errCode = 0#4 →
    (s.blk.pkCnt ≠ 0 → exec .flush s = .next { s with
        snk := s.snk ++ [s.blk.pkAcc]
        blk := { s.blk with payCount := s.blk.payCount + 1#32, pkAcc := 0#8, pkCnt := 0, busy := false } })
    ∧ (s.blk.pkCnt = 0 → exec .flush s = .next (withIdle s))

/-- ENCODE_SRC on a source whose bytes all have an entry: the bits held before and the codes of all remaining bytes in
order are the bits written, followed by fewer than eight 0 bits to fill the last byte; the source is exhausted and the
packer left empty (R202, R207). `codes` lists the code of each byte. -/
def Obligations.EncodeSrcPacksEveryCode : Prop :=
  ∀ (s : State) (codes : List Bits), s.blk.errCode = 0#4 → s.blk.phase = .ready → PortInv s → PackerInv s.blk →
    List.Forall₂ (fun c code => ∃ i : Fin 256, firstEntry s.blk (fun e => e.sym = c) i ∧ s.blk.ent[i].code = code)
      (restOfSource s) codes →
    ∃ t out pad, exec .encodeSrc s = .next t
      ∧ out.flatMap bitsOfByte = heldBits s.blk ++ codes.flatten ++ List.replicate pad false
      ∧ pad < 8
      ∧ t.blk.pkCnt = 0
      ∧ t = { s with
          srcPos := s.src.length
          snk := s.snk ++ out
          blk := { s.blk with
            pkAcc := t.blk.pkAcc
            pkCnt := t.blk.pkCnt
            payCount := s.blk.payCount + BitVec.ofNat 32 out.length
            busy := false } }

/-- ENCODE_SRC at the first source byte without an entry: that byte is consumed, UnknownSymbol is raised, whole bytes already
packed stay in the sink and the partial byte stays in the packer unflushed (R207, R311). -/
def Obligations.EncodeSrcStopsAtUnknownSymbol : Prop :=
  ∀ (s : State) (before rest : List Byte) (c : Byte) (codes : List Bits),
    s.blk.errCode = 0#4 → s.blk.phase = .ready →
    restOfSource s = before ++ c :: rest →
    List.Forall₂ (fun c code => ∃ i : Fin 256, firstEntry s.blk (fun e => e.sym = c) i ∧ s.blk.ent[i].code = code)
      before codes →
    noEntry s.blk (fun e => e.sym = c) →
    ∃ t out, exec .encodeSrc s = .next t
      ∧ out.flatMap bitsOfByte ++ heldBits t.blk = heldBits s.blk ++ codes.flatten
      ∧ t = { s with
          srcPos := s.srcPos + before.length + 1
          snk := s.snk ++ out
          blk := { s.blk with
            pkAcc := t.blk.pkAcc
            pkCnt := t.blk.pkCnt
            payCount := s.blk.payCount + BitVec.ofNat 32 out.length
            errCode := 7#4
            errCmd := s.blk.pending
            busy := false } }

/-! ### The decoder -/

/-- DECODE_STEP with bits owed and a bit to read: the bit joins the candidate; a match emits the symbol of the valid entry
of least index, subtracts the candidate's length from REMAINING and empties the candidate; no match with fewer bits in
the candidate than are owed, and at most 255, keeps the candidate. Nothing else changes (R231, R234, R235, R239). -/
def Obligations.DecodeStepReadsOneBit : Prop :=
  ∀ (s : State) (b : Bool) (bs : Bits), s.blk.errCode = 0#4 → s.blk.phase = .ready → s.blk.remaining ≠ 0#32 →
    unreadBits s = b :: bs →
    let c := s.blk.cand ++ [b]
    (∀ i : Fin 256, firstEntry s.blk (fun e => e.code = c) i →
      ∃ t, exec .decodeStep s = .next t ∧ BitTaken s t b ∧ unreadBits t = bs
        ∧ t = { s with
            srcPos := t.srcPos
            snk := s.snk ++ [s.blk.ent[i].sym]
            blk := { s.blk with
              unpkByte := t.blk.unpkByte
              unpkCnt := t.blk.unpkCnt
              payCount := t.blk.payCount
              outCount := s.blk.outCount + 1#32
              remaining := s.blk.remaining - BitVec.ofNat 32 c.length
              cand := []
              busy := false } })
    ∧ (noEntry s.blk (fun e => e.code = c) → c.length ≤ 255 → c.length ≠ s.blk.remaining.toNat →
      ∃ t, exec .decodeStep s = .next t ∧ BitTaken s t b ∧ unreadBits t = bs
        ∧ t = { s with
            srcPos := t.srcPos
            blk := { s.blk with
              unpkByte := t.blk.unpkByte
              unpkCnt := t.blk.unpkCnt
              payCount := t.blk.payCount
              cand := c
              busy := false } })

/-- The errors of the decode step, in their order: no bit left to read raises TrailingOrMissingData with the candidate
unchanged; a candidate of 256 bits without a match raises CorruptPayload; a candidate as long as what is owed without a
match raises TrailingOrMissingData (R235 to R238, R315). -/
def Obligations.DecodeStepRaisesInOrder : Prop :=
  ∀ s : State, s.blk.errCode = 0#4 → s.blk.phase = .ready → s.blk.remaining ≠ 0#32 →
    (unreadBits s = [] → exec .decodeStep s = .next (withError 4#4 s))
    ∧ ∀ (b : Bool) (bs : Bits), unreadBits s = b :: bs →
        let c := s.blk.cand ++ [b]
        noEntry s.blk (fun e => e.code = c) → 255 < c.length ∨ c.length = s.blk.remaining.toNat →
        ∃ t, exec .decodeStep s = .next t ∧ BitTaken s t b ∧ unreadBits t = bs
          ∧ t = { s with
              srcPos := t.srcPos
              blk := { s.blk with
                unpkByte := t.blk.unpkByte
                unpkCnt := t.blk.unpkCnt
                payCount := t.blk.payCount
                cand := c
                errCode := if 255 < c.length then 3#4 else 4#4
                errCmd := s.blk.pending
                busy := false } }

/-- With nothing owed DECODE_STEP reads no bit and changes nothing (R239, R240). -/
def Obligations.DecodeStepIsIdleWhenNothingIsOwed : Prop :=
  ∀ s : State, s.blk.errCode = 0#4 → s.blk.phase = .ready → s.blk.remaining = 0#32 →
    exec .decodeStep s = .next (withIdle s)

/-- DECODE_FINISH with nothing owed: PHASE becomes DONE when the candidate is empty and the source exhausted; a candidate
that is not empty or a source that is not exhausted raises TrailingOrMissingData and nothing is read (R241). -/
def Obligations.DecodeFinishChecksTheEnd : Prop :=
  ∀ s : State, s.blk.errCode = 0#4 → s.blk.phase = .ready → s.blk.remaining = 0#32 →
    (s.blk.cand = [] → s.srcPos = s.src.length →
      exec .decodeFinish s = .next { s with blk := { s.blk with phase := .done, busy := false } })
    ∧ (s.blk.cand ≠ [] ∨ s.srcPos ≠ s.src.length → exec .decodeFinish s = .next (withError 4#4 s))

/-- DECODE_RUN decodes a payload: with a prefix-free table of nonempty codes, an empty candidate, and unread bits that are
the codes of the entries `ms`, all owed, followed by fewer than eight padding bits of any value, it emits the entries'
symbols in order, exhausts the source and ends in DONE (R232 to R237, R245, R246; the payload half of R248). -/
def Obligations.DecodeRunDecodesThePayload : Prop :=
  ∀ (s : State) (ms : List (Fin 256)) (pad : Bits),
    s.blk.errCode = 0#4 → s.blk.phase = .ready → s.blk.cand = [] → PortInv s → PrefixFree s.blk →
    (∀ i : Fin 256, i.val < s.blk.entN.val → 1 ≤ s.blk.ent[i].len ∧ s.blk.ent[i].len ≤ 255) →
    (∀ i ∈ ms, i.val < s.blk.entN.val) →
    unreadBits s = (ms.flatMap fun i => s.blk.ent[i].code) ++ pad → pad.length < 8 →
    s.blk.remaining.toNat = (ms.map fun i => s.blk.ent[i].len).sum →
    ∃ t, exec .decodeRun s = .next t
      ∧ unreadBits t = pad
      ∧ t = { s with
          srcPos := s.src.length
          snk := s.snk ++ (ms.map fun i => s.blk.ent[i].sym)
          blk := { s.blk with
            unpkByte := t.blk.unpkByte
            unpkCnt := t.blk.unpkCnt
            payCount := s.blk.payCount + BitVec.ofNat 32 (s.src.length - s.srcPos)
            outCount := s.blk.outCount + BitVec.ofNat 32 ms.length
            remaining := 0#32
            phase := .done
            busy := false } }

/-- DECODE_RUN goes on from DECODE_STEPs: after one that raised no error it answers what it would have answered before it;
one that raised an error is DECODE_RUN's answer too; with nothing owed it is DECODE_FINISH (R245, R246). -/
def Obligations.DecodeRunContinuesFromSteps : Prop :=
  (∀ s t : State, s.blk.errCode = 0#4 → s.blk.phase = .ready → s.blk.remaining ≠ 0#32 →
    exec .decodeStep s = .next t →
    (t.blk.errCode = 0#4 → exec .decodeRun s = exec .decodeRun t)
    ∧ (t.blk.errCode ≠ 0#4 → exec .decodeRun s = .next t))
  ∧ (∀ s : State, s.blk.remaining = 0#32 → exec .decodeRun s = exec .decodeFinish s)

/-- How DECODE_RUN can end: in DONE with nothing owed and the source exhausted, or with CorruptPayload and 256 bits in the
candidate, or with TrailingOrMissingData, where REMAINING = 0, or CAND_LEN = REMAINING, or UNPK_CNT = 0 with
CAND_LEN < REMAINING tells the three causes apart, tested in that order. It only appends symbols of the table to the sink,
counted in OUT_COUNT (R245, R246, R303, R304, R311). -/
def Obligations.DecodeRunEndsInOneOfThreeWays : Prop :=
  ∀ s : State, s.blk.errCode = 0#4 → s.blk.phase = .ready → PortInv s → DecoderInv s.blk →
    ∃ t out, exec .decodeRun s = .next t
      ∧ t.snk = s.snk ++ out ∧ t.blk.outCount = s.blk.outCount + BitVec.ofNat 32 out.length
      ∧ (∀ x ∈ out, ∃ i : Fin 256, i.val < s.blk.entN.val ∧ s.blk.ent[i].sym = x)
      ∧ ((t.blk.errCode = 0#4 ∧ t.blk.phase = .done ∧ t.blk.remaining = 0#32 ∧ t.blk.cand = []
            ∧ t.srcPos = t.src.length)
        ∨ (t.blk.errCode = 3#4 ∧ t.blk.phase = .ready ∧ t.blk.candLen = 256)
        ∨ (t.blk.errCode = 4#4 ∧ t.blk.phase = .ready
            ∧ ((t.blk.remaining = 0#32 ∧ t.srcPos < t.src.length)
              ∨ (t.blk.remaining ≠ 0#32 ∧ t.blk.candLen = t.blk.remaining.toNat)
              ∨ (t.blk.unpkCnt = 0 ∧ t.blk.candLen < t.blk.remaining.toNat ∧ t.srcPos = t.src.length))))

/-- R247: the table of the decode state machine's states: FAILED refuses the three decode commands, DONE answers them with
SequenceError, DRAINED leaves DECODE_STEP without effect and lets DECODE_FINISH and DECODE_RUN end it, OWING answers
DECODE_FINISH with SequenceError and moves on by DECODE_STEP. -/
def Obligations.DecodeStateMachineTable : Prop :=
  ∀ s : State,
    (decodeState s.blk = some .failed → ∀ i ∈ [Instr.decodeStep, .decodeFinish, .decodeRun], exec i s = .next (withIdle s))
    ∧ (decodeState s.blk = some .done →
        ∀ i ∈ [Instr.decodeStep, .decodeFinish, .decodeRun], exec i s = .next (withError 6#4 s))
    ∧ (decodeState s.blk = some .drained → exec .decodeStep s = .next (withIdle s)
        ∧ ∀ i ∈ [Instr.decodeFinish, .decodeRun], ∃ t, exec i s = .next t
          ∧ (decodeState t.blk = some .done ∨ decodeState t.blk = some .failed))
    ∧ (decodeState s.blk = some .owing → exec .decodeFinish s = .next (withError 6#4 s)
        ∧ (∃ t, exec .decodeStep s = .next t ∧ (decodeState t.blk = some .owing ∨ decodeState t.blk = some .drained
          ∨ decodeState t.blk = some .failed))
        ∧ ∃ t, exec .decodeRun s = .next t ∧ (decodeState t.blk = some .done ∨ decodeState t.blk = some .failed))

/-! ### The host -/

/-- A register write (R272): CMD latches its word and sets BUSY, or sets OVR alone when BUSY = 1; SEL takes its two fields at
any time (R61); every other offset (R69), a misaligned offset and a width other than 32 bits (R87) change nothing. That an
accepted CMD write sets `progress`, the model's own count of the command's port effects, to 0 is the model's choice (log 5,
DESIGN CHOICE). -/
def Obligations.RegisterWritesTakeEffectOnlyAtCmdAndSel : Prop :=
  ∀ (s : State) (v : Word),
    (s.blk.busy = false → regWrite 32 0x00#8 v s =
        { s with blk := { s.blk with pending := v, busy := true }, progress := 0 })
    ∧ (s.blk.busy = true → regWrite 32 0x00#8 v s = { s with blk := { s.blk with ovr := true } })
    ∧ (∃ t, regWrite 32 0x40#8 v s = t ∧ t.blk.selIndex.toNat = v.toNat % 512 ∧ t.blk.selWord.toNat = v.toNat / 2 ^ 16 % 8
        ∧ t = { s with blk := { s.blk with selIndex := t.blk.selIndex, selWord := t.blk.selWord } })
    ∧ (∀ a : Byte, a ≠ 0x00#8 → a ≠ 0x40#8 → regWrite 32 a v s = s)
    ∧ (∀ (n : Nat) (a : Byte), n ≠ 32 ∨ a.toNat % 4 ≠ 0 → regWrite n a v s = s)

/-- What the registers read while BUSY = 0, field by field (R54 to R69). -/
def Obligations.IdleRegistersReadTheirFields : Prop :=
  ∀ s : State, s.blk.busy = false →
    let rd := fun a => readValue 32 a s
    (rd 0x00#8 = 0#32
      ∧ (rd 0x04#8).toNat = (if s.blk.errCode = 0#4 then 0 else 2) + 4 * s.blk.ovr.toNat + 16 * s.blk.phase.code.toNat
      ∧ (rd 0x08#8).toNat = s.blk.errCode.toNat ∧ rd 0x0C#8 = s.blk.errCmd)
    ∧ (rd 0x10#8 = s.blk.totalBits ∧ rd 0x14#8 = s.blk.symCount ∧ rd 0x18#8 = s.blk.inCount ∧ rd 0x1C#8 = s.blk.hdrCount
      ∧ rd 0x20#8 = s.blk.payCount ∧ rd 0x24#8 = s.blk.outCount ∧ rd 0x28#8 = s.blk.remaining)
    ∧ (s.blk.candLen < 512 → (rd 0x2C#8).toNat = s.blk.candLen)
    ∧ (rd 0x30#8).toNat = s.blk.pkAcc.toNat + 2 ^ 8 * s.blk.pkCnt.val
    ∧ (rd 0x34#8).toNat = s.blk.unpkByte.toNat + 2 ^ 8 * s.blk.unpkCnt.val
    ∧ (rd 0x38#8).toNat = s.blk.nodeCount.val + 2 ^ 16 * s.blk.root.val + 2 ^ 31 * s.blk.treePresent.toNat
    ∧ (rd 0x3C#8).toNat = s.blk.entN.val + 2 ^ 16 * s.blk.nLeaf.val
    ∧ (rd 0x40#8).toNat = s.blk.selIndex.toNat + 2 ^ 16 * s.blk.selWord.toNat
    ∧ (rd 0x5C#8 = 0x48554601#32 ∧ (rd 0x60#8 = if s.cfg.hdrOrder = .le then 0#32 else 1#32))
    ∧ (∀ a : Byte, 0x64 ≤ a.toNat → rd a = 0#32)

/-- What the indirect data registers read while BUSY = 0: the selected element, and 0 out of range (R64 to R68). -/
def Obligations.IndirectRegistersReadTheSelectedElement : Prop :=
  ∀ s : State, s.blk.busy = false →
    let rd := fun a => readValue 32 a s
    let sel := s.blk.selIndex.toNat
    (∀ c : Byte, sel = c.toNat → rd 0x44#8 = freqAt s.blk.freq c)
    ∧ (256 ≤ sel → rd 0x44#8 = 0#32)
    ∧ (∀ i : Fin 511, sel = i.val → i.val < s.blk.nodeCount.val → rd 0x48#8 = s.blk.node[i].weight
        ∧ (rd 0x4C#8).toNat = s.blk.node[i].left.val + 2 ^ 9 * s.blk.node[i].right.val + 2 ^ 18 * s.blk.node[i].sym.toNat
          + 2 ^ 31 * s.blk.node[i].isLeaf.toNat)
    ∧ (s.blk.nodeCount.val ≤ sel → rd 0x48#8 = 0#32 ∧ rd 0x4C#8 = 0#32)
    ∧ (∀ i : Fin 256, sel = i.val → i.val < s.blk.entN.val → s.blk.ent[i].len ≤ 255 →
        (rd 0x50#8).toNat = s.blk.ent[i].sym.toNat + 2 ^ 8 * s.blk.ent[i].len
        ∧ ∀ k, k < 32 → (rd 0x54#8).getLsbD (31 - k) = s.blk.ent[i].cell (32 * s.blk.selWord.toNat + k))
    ∧ (s.blk.entN.val ≤ sel → rd 0x50#8 = 0#32 ∧ rd 0x54#8 = 0#32)
    ∧ (∀ k, k < 32 → (rd 0x58#8).getLsbD (31 - k) = s.blk.cand.getD (32 * s.blk.selWord.toNat + k) false)

/-- R89: while BUSY = 1 a read of STATUS shows BUSY = 1 and the current OVR, and ID, CONFIG and SEL read as ever; a misaligned
offset or another width reads 0 in every state (R87); and a read changes neither the block nor the streams (R88). That the
value read is appended to `seen` is the model's own record of what the host was shown (log 14, DESIGN CHOICE). -/
def Obligations.BusyReadsShowBusyAndOverrun : Prop :=
  (∀ s : State, s.blk.busy = true →
    ((readValue 32 0x04#8 s).getLsbD 0 = true ∧ (readValue 32 0x04#8 s).getLsbD 2 = s.blk.ovr)
    ∧ readValue 32 0x5C#8 s = 0x48554601#32
    ∧ (readValue 32 0x60#8 s = if s.cfg.hdrOrder = .le then 0#32 else 1#32)
    ∧ (readValue 32 0x40#8 s).toNat = s.blk.selIndex.toNat + 2 ^ 16 * s.blk.selWord.toNat)
  ∧ (∀ (s : State) (n : Nat) (a : Byte), n ≠ 32 ∨ a.toNat % 4 ≠ 0 → readValue n a s = 0#32)
  ∧ (∀ (s : State) (n : Nat) (a : Byte), ∃ t, hostMove (.regRead n a) s = .next t ∧ t.blk = s.blk ∧ t.src = s.src
      ∧ t.srcPos = s.srcPos ∧ t.snk = s.snk ∧ t.seen = s.seen ++ [.reg (readValue n a s)])

/-- The hardware reset gives every element of the block its reset value and drops a pending command, and neither the source,
its position nor the sink is changed by it: with BUSY = 0 the fields srcPos and snk stay. With BUSY = 1 the position and the
sink stay as they are at that moment, between those the command in progress began with and those it would end with; how far
the command has got, and that the bytes it has read stay read, is the model's reading (log 5, DEDUCED) of R340. -/
def Obligations.HardResetDropsTheCommand : Prop :=
  ∀ s : State, ∃ t, hostMove .hardReset s = .next t ∧ AtReset t.blk
    ∧ t = { s with blk := t.blk, srcPos := portPos s, snk := portSink s, progress := 0 }
    ∧ portPos t = portPos s ∧ portSink t = portSink s
    ∧ (s.blk.busy = false → t.srcPos = s.srcPos ∧ t.snk = s.snk)
    ∧ s.srcPos ≤ t.srcPos ∧ s.snk <+: t.snk
    ∧ (s.blk.busy = true → ∀ u, blockStep s = .next u → t.srcPos ≤ u.srcPos ∧ t.snk <+: u.snk)

/-- The host presents a source positioned at its start, or rewinds, only while BUSY = 0; while BUSY = 1 the model has no such
move and stops (R82, R347, log 6). -/
def Obligations.SourceMovesOnlyWhileIdle : Prop :=
  ∀ (s : State) (bytes : List Byte),
    (s.blk.busy = false → hostMove (.presentSource bytes) s = .next { s with src := bytes, srcPos := 0 }
      ∧ hostMove .rewindSource s = .next { s with srcPos := 0 })
    ∧ (s.blk.busy = true → hostMove (.presentSource bytes) s = .fault .sourceChangedWhileBusy
      ∧ hostMove .rewindSource s = .fault .sourceChangedWhileBusy)

/-! ### Invariants -/

/-- The reset state meets every invariant. -/
def Obligations.ResetMeetsTheInvariants : Prop :=
  CountInv State.reset.blk ∧ PackerInv State.reset.blk ∧ PortInv State.reset ∧ ErrorInv State.reset.blk
  ∧ HeaderInv State.reset.blk ∧ DecoderInv State.reset.blk ∧ TreeInv State.reset.blk ∧ TableInv State.reset.blk

/-- Every step keeps IN_COUNT = Σ FREQ[s] (R38, R71). -/
def Obligations.StepKeepsTheCount : Prop :=
  ∀ s t : State, step s = .next t → CountInv s.blk → CountInv t.blk

/-- Every step keeps the bits of PK_ACC below the held ones 0 (R47, R71, R201). -/
def Obligations.StepKeepsThePackerAligned : Prop :=
  ∀ s t : State, step s = .next t → PackerInv s.blk → PackerInv t.blk

/-- Every step keeps the read position within the source, only appends to the sink, and never writes HDR_ORDER; only a host
move changes the source's bytes, and only a new source or a rewind moves its position back (R53, R63, R81, R82, R83). The
sink as the host can see it, also while a command is in progress (log 5), only grows too. -/
def Obligations.StepKeepsTheStreams : Prop :=
  ∀ s t : State, step s = .next t → PortInv s →
    PortInv t ∧ (∃ out, t.snk = s.snk ++ out) ∧ t.cfg = s.cfg ∧ portSink s <+: portSink t
    ∧ (blockTurn s = true ∨ (∀ m ms, s.script = m :: ms → m ≠ .rewindSource ∧ ∀ bs, m ≠ .presentSource bs) →
        portPos s ≤ portPos t)
    ∧ (blockTurn s = true → t.src = s.src ∧ s.srcPos ≤ t.srcPos ∧ t.script = s.script ∧ t.seen = s.seen)

/-- Every step keeps ERRCODE 0 or one of the codes 2 to 9, with ERR_CMD 0 while it is 0 (R36, R300, R301), and the header
counts in range in READY and DONE (R43, R44). -/
def Obligations.StepKeepsErrorAndHeaderRanges : Prop :=
  ∀ s t : State, step s = .next t → ErrorInv s.blk → HeaderInv s.blk → ErrorInv t.blk ∧ HeaderInv t.blk

/-- Every step keeps the decoder's counters in order: the candidate never holds more bits than are owed, holds 256 only
after CorruptPayload, and REMAINING never passes TOTAL_BITS (R46, R71, R237). -/
def Obligations.StepKeepsTheDecoderBounded : Prop :=
  ∀ s t : State, step s = .next t → DecoderInv s.blk → DecoderInv t.blk

/-- Every step keeps the tree a tree: 2·NLEAF-1 nodes, leaves in symbol order with their frequencies, every internal node's
weight the exact sum of its children's, and the root's weight IN_COUNT (R39, R40, R71, R141, R142). -/
def Obligations.StepKeepsTheTree : Prop :=
  ∀ s t : State, step s = .next t → CountInv s.blk → TreeInv s.blk → TreeInv t.blk

/-- Every step keeps the code table in form: entries from ENT_N on hold 0, no code above 255 bits, and assigned entries
follow the leaves (R41, R42, R71, R143, R146). -/
def Obligations.StepKeepsTheTable : Prop :=
  ∀ s t : State, step s = .next t → TreeInv s.blk → TableInv s.blk → TableInv t.blk

/-- PHASE moves only along the document's order of operations, or back to COUNT by a reset (R35). -/
def Obligations.PhaseMovesOnlyForward : Prop :=
  ∀ s t : State, step s = .next t →
    t.blk.phase = s.blk.phase ∨ AtReset t.blk
    ∨ (s.blk.phase = .count ∧ (t.blk.phase = .built ∨ t.blk.phase = .ready))
    ∨ (s.blk.phase = .built ∧ t.blk.phase = .coded) ∨ (s.blk.phase = .coded ∧ t.blk.phase = .ready)
    ∨ (s.blk.phase = .ready ∧ t.blk.phase = .done)

/-- Return from an error is only by reset: while ERRCODE is not 0 a step either keeps ERRCODE, ERR_CMD, PHASE, FREQ, the whole
tree, the whole code table and the sink's bytes, or resets the block; and SOFT_RESET is the only command that does (R312,
R313). -/
def Obligations.OnlyResetClearsAnError : Prop :=
  (∀ s t : State, step s = .next t → s.blk.errCode ≠ 0#4 →
    (t.blk.errCode = s.blk.errCode ∧ t.blk.errCmd = s.blk.errCmd ∧ t.blk.phase = s.blk.phase ∧ t.blk.node = s.blk.node
      ∧ t.blk.nodeCount = s.blk.nodeCount ∧ t.blk.nLeaf = s.blk.nLeaf ∧ t.blk.root = s.blk.root
      ∧ t.blk.treePresent = s.blk.treePresent ∧ t.blk.ent = s.blk.ent ∧ t.blk.entN = s.blk.entN
      ∧ t.blk.freq = s.blk.freq ∧ t.snk = s.snk)
    ∨ AtReset t.blk)
  ∧ (∀ (i : Instr) (s t : State), exec i s = .next t → s.blk.errCode ≠ 0#4 → i ≠ .softReset → t = withIdle s)

/-- The selector does not affect any command but SOFT_RESET, which clears it: with another selector the command does the
same, and it leaves the selector as it was (R52). -/
def Obligations.CommandsIgnoreTheSelector : Prop :=
  ∀ (i : Instr) (s t : State) (x : BitVec 9) (y : BitVec 3), i ≠ .softReset → exec i s = .next t →
    t.blk.selIndex = s.blk.selIndex ∧ t.blk.selWord = s.blk.selWord
    ∧ exec i { s with blk := { s.blk with selIndex := x, selWord := y } }
        = .next { t with blk := { t.blk with selIndex := x, selWord := y } }

/-- Which commands write what: FREQ and IN_COUNT only ADD_SYMBOL and COUNT_SRC, in COUNT; the tree only BUILD; the table only
ASSIGN_CODES and DESERIALIZE; TOTAL_BITS and SYM_COUNT only MAKE_HEADER and DESERIALIZE; REMAINING and the candidate only
these two, DECODE_STEP and DECODE_RUN; the packer only the packer's four commands; the unpacker and OUT_COUNT only
DECODE_STEP and DECODE_RUN; HDR_COUNT only SERIALIZE and DESERIALIZE; PAY_COUNT only the packer's commands, DECODE_STEP and
DECODE_RUN; OVR, PENDING, HDR_ORDER, the source's bytes and the host's side none. SOFT_RESET resets all (R37 to R51, R181). -/
def Obligations.CommandsWriteOnlyTheirOwnState : Prop :=
  ∀ (i : Instr) (s t : State), exec i s = .next t → i ≠ .softReset →
    let packs := (∃ n d, i = .pushBits n d) ∨ (∃ c, i = .pushCode c) ∨ i = .flush ∨ i = .encodeSrc
    let decodes := i = .decodeStep ∨ i = .decodeRun
    ((∀ c, i ≠ .addSymbol c) → i ≠ .countSrc → t.blk.freq = s.blk.freq ∧ t.blk.inCount = s.blk.inCount)
    ∧ (s.blk.phase ≠ .count → t.blk.freq = s.blk.freq ∧ t.blk.inCount = s.blk.inCount)
    ∧ (i ≠ .build → t.blk.node = s.blk.node ∧ t.blk.nodeCount = s.blk.nodeCount ∧ t.blk.nLeaf = s.blk.nLeaf
        ∧ t.blk.root = s.blk.root ∧ t.blk.treePresent = s.blk.treePresent)
    ∧ (i ≠ .assignCodes → i ≠ .deserialize → t.blk.ent = s.blk.ent ∧ t.blk.entN = s.blk.entN)
    ∧ (i ≠ .makeHeader → i ≠ .deserialize → t.blk.totalBits = s.blk.totalBits ∧ t.blk.symCount = s.blk.symCount)
    ∧ (i ≠ .makeHeader → i ≠ .deserialize → ¬ decodes → t.blk.remaining = s.blk.remaining ∧ t.blk.cand = s.blk.cand)
    ∧ (¬ packs → t.blk.pkAcc = s.blk.pkAcc ∧ t.blk.pkCnt = s.blk.pkCnt)
    ∧ (¬ decodes → t.blk.unpkByte = s.blk.unpkByte ∧ t.blk.unpkCnt = s.blk.unpkCnt ∧ t.blk.outCount = s.blk.outCount)
    ∧ (i ≠ .serialize → i ≠ .deserialize → t.blk.hdrCount = s.blk.hdrCount)
    ∧ (¬ packs → ¬ decodes → t.blk.payCount = s.blk.payCount)
    ∧ (t.blk.ovr = s.blk.ovr ∧ t.blk.pending = s.blk.pending ∧ t.blk.busy = false)
    ∧ t.cfg = s.cfg ∧ t.src = s.src ∧ t.script = s.script ∧ t.seen = s.seen ∧ t.draws = s.draws
    ∧ t.progress = s.progress

/-- Which commands touch the streams, PHASE and the error registers: the sink grows only by SERIALIZE, the packer's commands,
DECODE_STEP and DECODE_RUN; the source is read only by COUNT_SRC, DESERIALIZE, ENCODE_SRC, DECODE_STEP and DECODE_RUN; PHASE
is written only by BUILD, ASSIGN_CODES, MAKE_HEADER, DESERIALIZE, DECODE_FINISH and DECODE_RUN; and the error registers
either keep their values or, from ERRCODE = 0, hold an error and the pending word (R35, R36, R53, R80, R81, R310). -/
def Obligations.CommandsTouchStreamsAndPhaseAsListed : Prop :=
  ∀ (i : Instr) (s t : State), exec i s = .next t → i ≠ .softReset →
    let packs := (∃ n d, i = .pushBits n d) ∨ (∃ c, i = .pushCode c) ∨ i = .flush ∨ i = .encodeSrc
    let decodes := i = .decodeStep ∨ i = .decodeRun
    (∃ out, t.snk = s.snk ++ out ∧ (¬ packs → ¬ decodes → i ≠ .serialize → out = []))
    ∧ (s.srcPos ≤ t.srcPos ∧ (¬ decodes → i ≠ .countSrc → i ≠ .deserialize → i ≠ .encodeSrc → t.srcPos = s.srcPos))
    ∧ (t.blk.phase = s.blk.phase ∨ i = .build ∨ i = .assignCodes ∨ i = .makeHeader ∨ i = .deserialize ∨ i = .decodeFinish
        ∨ i = .decodeRun)
    ∧ (t.blk.errCode ≠ 0#4 → s.blk.errCode = 0#4 → t.blk.phase = s.blk.phase ∧ t.blk.errCmd = s.blk.pending)
    ∧ (t.blk.errCode = 0#4 ∨ s.blk.errCode ≠ 0#4 → t.blk.errCode = s.blk.errCode ∧ t.blk.errCmd = s.blk.errCmd)

/-! ### The command in progress -/

/-- The ports while a command is in progress: they start where the command found them, go on one byte read or one byte
written at a time, and when all of its effects have been made they are where the block's step leaves them; the sink shows a
prefix of the command's bytes before, and all of them with BUSY = 0 (R90, R94). A sink read appends what the sink holds at
that moment to the model's record `seen` (log 14) and changes nothing else. The counter `progress` is the model's (log 5). -/
def Obligations.PortsShowTheCommandInOrder : Prop :=
  (∀ s : State, s.blk.busy = false → portPos s = s.srcPos ∧ portSink s = s.snk)
  ∧ (∀ s u : State, s.blk.busy = true → blockStep s = .next u →
      (s.progress = 0 → portPos s = s.srcPos ∧ portSink s = s.snk)
      ∧ portPos s ≤ u.srcPos ∧ portSink s <+: u.snk
      ∧ ((pendingEffects s).length ≤ s.progress → portPos s = u.srcPos ∧ portSink s = u.snk))
  ∧ (∀ s t : State, t = { s with progress := s.progress + 1 } →
      (portPos t = portPos s + 1 ∧ portSink t = portSink s)
      ∨ (portPos t = portPos s ∧ ∃ b, portSink t = portSink s ++ [b])
      ∨ (portPos t = portPos s ∧ portSink t = portSink s ∧ (pendingEffects s).length ≤ s.progress))
  ∧ (∀ s : State, hostMove .readSink s = .next { s with seen := s.seen ++ [.sink (portSink s)] })

/-- ENCODE_SRC in progress has written only what the source bytes it has read give: what the sink shows is a start of what
the command writes when the source ends right after those bytes (R90, R207; the command in progress as in log 5). -/
def Obligations.EncodeSrcWritesOnlyWhatItHasRead : Prop :=
  ∀ s : State, s.blk.busy = true → decode s.blk.pending = .ok .encodeSrc →
    ∃ u, exec .encodeSrc { s with src := s.src.take (portPos s) } = .next u ∧ portSink s <+: u.snk
end

