-- ==== Sys2Proof/Laws/State.lean ====
section
/-! SUPPORT. One lemma for each field of State under each update of the machine, so that no later proof unfolds an update. -/

namespace Sys2Proof.Machine

open Sys2Proof

@[simp] theorem withBlk_cfg (s : State) (b : Block) : (s.withBlk b).cfg = s.cfg := rfl
@[simp] theorem withBlk_blk (s : State) (b : Block) : (s.withBlk b).blk = b := rfl
@[simp] theorem withBlk_src (s : State) (b : Block) : (s.withBlk b).src = s.src := rfl
@[simp] theorem withBlk_srcPos (s : State) (b : Block) : (s.withBlk b).srcPos = s.srcPos := rfl
@[simp] theorem withBlk_snk (s : State) (b : Block) : (s.withBlk b).snk = s.snk := rfl
@[simp] theorem withBlk_script (s : State) (b : Block) : (s.withBlk b).script = s.script := rfl
@[simp] theorem withBlk_seen (s : State) (b : Block) : (s.withBlk b).seen = s.seen := rfl
@[simp] theorem withBlk_draws (s : State) (b : Block) : (s.withBlk b).draws = s.draws := rfl
@[simp] theorem withBlk_progress (s : State) (b : Block) : (s.withBlk b).progress = s.progress := rfl

@[simp] theorem retire_cfg (s : State) : (retire s).cfg = s.cfg := rfl
@[simp] theorem retire_blk (s : State) : (retire s).blk = { s.blk with busy := false } := rfl
@[simp] theorem retire_src (s : State) : (retire s).src = s.src := rfl
@[simp] theorem retire_srcPos (s : State) : (retire s).srcPos = s.srcPos := rfl
@[simp] theorem retire_snk (s : State) : (retire s).snk = s.snk := rfl
@[simp] theorem retire_script (s : State) : (retire s).script = s.script := rfl
@[simp] theorem retire_seen (s : State) : (retire s).seen = s.seen := rfl
@[simp] theorem retire_draws (s : State) : (retire s).draws = s.draws := rfl
@[simp] theorem retire_progress (s : State) : (retire s).progress = s.progress := rfl

@[simp] theorem errorEntry_cfg (e : ErrKind) (s : State) : (errorEntry e s).cfg = s.cfg := rfl
@[simp] theorem errorEntry_blk (e : ErrKind) (s : State) :
    (errorEntry e s).blk = { s.blk with errCode := e.code, errCmd := s.blk.pending, busy := false } := rfl
@[simp] theorem errorEntry_src (e : ErrKind) (s : State) : (errorEntry e s).src = s.src := rfl
@[simp] theorem errorEntry_srcPos (e : ErrKind) (s : State) : (errorEntry e s).srcPos = s.srcPos := rfl
@[simp] theorem errorEntry_snk (e : ErrKind) (s : State) : (errorEntry e s).snk = s.snk := rfl
@[simp] theorem errorEntry_script (e : ErrKind) (s : State) : (errorEntry e s).script = s.script := rfl
@[simp] theorem errorEntry_seen (e : ErrKind) (s : State) : (errorEntry e s).seen = s.seen := rfl
@[simp] theorem errorEntry_draws (e : ErrKind) (s : State) : (errorEntry e s).draws = s.draws := rfl
@[simp] theorem errorEntry_progress (e : ErrKind) (s : State) : (errorEntry e s).progress = s.progress := rfl

@[simp] theorem resetBlock_cfg (s : State) : (resetBlock s).cfg = s.cfg := rfl
@[simp] theorem resetBlock_blk (s : State) : (resetBlock s).blk = Block.reset := rfl
@[simp] theorem resetBlock_src (s : State) : (resetBlock s).src = s.src := rfl
@[simp] theorem resetBlock_srcPos (s : State) : (resetBlock s).srcPos = s.srcPos := rfl
@[simp] theorem resetBlock_snk (s : State) : (resetBlock s).snk = s.snk := rfl
@[simp] theorem resetBlock_script (s : State) : (resetBlock s).script = s.script := rfl
@[simp] theorem resetBlock_seen (s : State) : (resetBlock s).seen = s.seen := rfl
@[simp] theorem resetBlock_draws (s : State) : (resetBlock s).draws = s.draws := rfl
@[simp] theorem resetBlock_progress (s : State) : (resetBlock s).progress = s.progress := rfl

@[simp] theorem setPhase_cfg (p : Phase) (s : State) : (setPhase p s).cfg = s.cfg := rfl
@[simp] theorem setPhase_blk (p : Phase) (s : State) : (setPhase p s).blk = { s.blk with phase := p } := rfl
@[simp] theorem setPhase_src (p : Phase) (s : State) : (setPhase p s).src = s.src := rfl
@[simp] theorem setPhase_srcPos (p : Phase) (s : State) : (setPhase p s).srcPos = s.srcPos := rfl
@[simp] theorem setPhase_snk (p : Phase) (s : State) : (setPhase p s).snk = s.snk := rfl
@[simp] theorem setPhase_script (p : Phase) (s : State) : (setPhase p s).script = s.script := rfl
@[simp] theorem setPhase_seen (p : Phase) (s : State) : (setPhase p s).seen = s.seen := rfl
@[simp] theorem setPhase_draws (p : Phase) (s : State) : (setPhase p s).draws = s.draws := rfl
@[simp] theorem setPhase_progress (p : Phase) (s : State) : (setPhase p s).progress = s.progress := rfl

@[simp] theorem snkWrite_cfg (b : Byte) (s : State) : (snkWrite b s).cfg = s.cfg := rfl
@[simp] theorem snkWrite_blk (b : Byte) (s : State) : (snkWrite b s).blk = s.blk := rfl
@[simp] theorem snkWrite_src (b : Byte) (s : State) : (snkWrite b s).src = s.src := rfl
@[simp] theorem snkWrite_srcPos (b : Byte) (s : State) : (snkWrite b s).srcPos = s.srcPos := rfl
@[simp] theorem snkWrite_snk (b : Byte) (s : State) : (snkWrite b s).snk = s.snk ++ [b] := rfl
@[simp] theorem snkWrite_script (b : Byte) (s : State) : (snkWrite b s).script = s.script := rfl
@[simp] theorem snkWrite_seen (b : Byte) (s : State) : (snkWrite b s).seen = s.seen := rfl
@[simp] theorem snkWrite_draws (b : Byte) (s : State) : (snkWrite b s).draws = s.draws := rfl
@[simp] theorem snkWrite_progress (b : Byte) (s : State) : (snkWrite b s).progress = s.progress := rfl

@[simp] theorem countOne_cfg (c : Byte) (s : State) : (countOne c s).cfg = s.cfg := rfl
@[simp] theorem countOne_blk (c : Byte) (s : State) :
    (countOne c s).blk = { s.blk with
      freq := s.blk.freq.set c.toNat (freqAt s.blk.freq c + 1#32) c.isLt
      inCount := s.blk.inCount + 1#32 } := rfl
@[simp] theorem countOne_src (c : Byte) (s : State) : (countOne c s).src = s.src := rfl
@[simp] theorem countOne_srcPos (c : Byte) (s : State) : (countOne c s).srcPos = s.srcPos := rfl
@[simp] theorem countOne_snk (c : Byte) (s : State) : (countOne c s).snk = s.snk := rfl
@[simp] theorem countOne_script (c : Byte) (s : State) : (countOne c s).script = s.script := rfl
@[simp] theorem countOne_seen (c : Byte) (s : State) : (countOne c s).seen = s.seen := rfl
@[simp] theorem countOne_draws (c : Byte) (s : State) : (countOne c s).draws = s.draws := rfl
@[simp] theorem countOne_progress (c : Byte) (s : State) : (countOne c s).progress = s.progress := rfl

@[simp] theorem buildTree_cfg (s : State) : (buildTree s).cfg = s.cfg := rfl
@[simp] theorem buildTree_blk (s : State) :
    (buildTree s).blk = { s.blk with
      node := (builtForest s.blk).node
      nodeCount := Fin.ofNat 512 (builtForest s.blk).next
      nLeaf := Fin.ofNat 257 (leafNodes s.blk.freq).length
      treePresent := (leafNodes s.blk.freq).length != 0
      root := (builtForest s.blk).pool.headD 0
      phase := .built } := rfl
@[simp] theorem buildTree_src (s : State) : (buildTree s).src = s.src := rfl
@[simp] theorem buildTree_srcPos (s : State) : (buildTree s).srcPos = s.srcPos := rfl
@[simp] theorem buildTree_snk (s : State) : (buildTree s).snk = s.snk := rfl
@[simp] theorem buildTree_script (s : State) : (buildTree s).script = s.script := rfl
@[simp] theorem buildTree_seen (s : State) : (buildTree s).seen = s.seen := rfl
@[simp] theorem buildTree_draws (s : State) : (buildTree s).draws = s.draws := rfl
@[simp] theorem buildTree_progress (s : State) : (buildTree s).progress = s.progress := rfl

@[simp] theorem assignCodes_cfg (s : State) : (assignCodes s).cfg = s.cfg := rfl
@[simp] theorem assignCodes_blk (s : State) :
    (assignCodes s).blk = { s.blk with ent := codeEntries s.blk, entN := s.blk.nLeaf, phase := .coded } := rfl
@[simp] theorem assignCodes_src (s : State) : (assignCodes s).src = s.src := rfl
@[simp] theorem assignCodes_srcPos (s : State) : (assignCodes s).srcPos = s.srcPos := rfl
@[simp] theorem assignCodes_snk (s : State) : (assignCodes s).snk = s.snk := rfl
@[simp] theorem assignCodes_script (s : State) : (assignCodes s).script = s.script := rfl
@[simp] theorem assignCodes_seen (s : State) : (assignCodes s).seen = s.seen := rfl
@[simp] theorem assignCodes_draws (s : State) : (assignCodes s).draws = s.draws := rfl
@[simp] theorem assignCodes_progress (s : State) : (assignCodes s).progress = s.progress := rfl

@[simp] theorem writeHeaderBytes_cfg (bs : List Byte) (s : State) : (writeHeaderBytes bs s).cfg = s.cfg := rfl
@[simp] theorem writeHeaderBytes_blk (bs : List Byte) (s : State) :
    (writeHeaderBytes bs s).blk = { s.blk with hdrCount := s.blk.hdrCount + BitVec.ofNat 32 bs.length } := rfl
@[simp] theorem writeHeaderBytes_src (bs : List Byte) (s : State) : (writeHeaderBytes bs s).src = s.src := rfl
@[simp] theorem writeHeaderBytes_srcPos (bs : List Byte) (s : State) : (writeHeaderBytes bs s).srcPos = s.srcPos := rfl
@[simp] theorem writeHeaderBytes_snk (bs : List Byte) (s : State) : (writeHeaderBytes bs s).snk = s.snk ++ bs := rfl
@[simp] theorem writeHeaderBytes_script (bs : List Byte) (s : State) : (writeHeaderBytes bs s).script = s.script := rfl
@[simp] theorem writeHeaderBytes_seen (bs : List Byte) (s : State) : (writeHeaderBytes bs s).seen = s.seen := rfl
@[simp] theorem writeHeaderBytes_draws (bs : List Byte) (s : State) : (writeHeaderBytes bs s).draws = s.draws := rfl
@[simp] theorem writeHeaderBytes_progress (bs : List Byte) (s : State) : (writeHeaderBytes bs s).progress = s.progress := rfl

@[simp] theorem countHeaderByte_cfg (s : State) : (countHeaderByte s).cfg = s.cfg := rfl
@[simp] theorem countHeaderByte_blk (s : State) : (countHeaderByte s).blk = { s.blk with hdrCount := s.blk.hdrCount + 1#32 } := rfl
@[simp] theorem countHeaderByte_src (s : State) : (countHeaderByte s).src = s.src := rfl
@[simp] theorem countHeaderByte_srcPos (s : State) : (countHeaderByte s).srcPos = s.srcPos := rfl
@[simp] theorem countHeaderByte_snk (s : State) : (countHeaderByte s).snk = s.snk := rfl
@[simp] theorem countHeaderByte_script (s : State) : (countHeaderByte s).script = s.script := rfl
@[simp] theorem countHeaderByte_seen (s : State) : (countHeaderByte s).seen = s.seen := rfl
@[simp] theorem countHeaderByte_draws (s : State) : (countHeaderByte s).draws = s.draws := rfl
@[simp] theorem countHeaderByte_progress (s : State) : (countHeaderByte s).progress = s.progress := rfl

@[simp] theorem storeEntry_cfg (i : Nat) (e : Entry) (s : State) : (storeEntry i e s).cfg = s.cfg := rfl
@[simp] theorem storeEntry_blk (i : Nat) (e : Entry) (s : State) :
    (storeEntry i e s).blk = { s.blk with ent := s.blk.ent.setIfInBounds i e, entN := Fin.ofNat 257 (i + 1) } := rfl
@[simp] theorem storeEntry_src (i : Nat) (e : Entry) (s : State) : (storeEntry i e s).src = s.src := rfl
@[simp] theorem storeEntry_srcPos (i : Nat) (e : Entry) (s : State) : (storeEntry i e s).srcPos = s.srcPos := rfl
@[simp] theorem storeEntry_snk (i : Nat) (e : Entry) (s : State) : (storeEntry i e s).snk = s.snk := rfl
@[simp] theorem storeEntry_script (i : Nat) (e : Entry) (s : State) : (storeEntry i e s).script = s.script := rfl
@[simp] theorem storeEntry_seen (i : Nat) (e : Entry) (s : State) : (storeEntry i e s).seen = s.seen := rfl
@[simp] theorem storeEntry_draws (i : Nat) (e : Entry) (s : State) : (storeEntry i e s).draws = s.draws := rfl
@[simp] theorem storeEntry_progress (i : Nat) (e : Entry) (s : State) : (storeEntry i e s).progress = s.progress := rfl

@[simp] theorem armDecoder_cfg (v : Word) (s : State) : (armDecoder v s).cfg = s.cfg := rfl
@[simp] theorem armDecoder_blk (v : Word) (s : State) : (armDecoder v s).blk = { s.blk with remaining := v, cand := [], phase := .ready } := rfl
@[simp] theorem armDecoder_src (v : Word) (s : State) : (armDecoder v s).src = s.src := rfl
@[simp] theorem armDecoder_srcPos (v : Word) (s : State) : (armDecoder v s).srcPos = s.srcPos := rfl
@[simp] theorem armDecoder_snk (v : Word) (s : State) : (armDecoder v s).snk = s.snk := rfl
@[simp] theorem armDecoder_script (v : Word) (s : State) : (armDecoder v s).script = s.script := rfl
@[simp] theorem armDecoder_seen (v : Word) (s : State) : (armDecoder v s).seen = s.seen := rfl
@[simp] theorem armDecoder_draws (v : Word) (s : State) : (armDecoder v s).draws = s.draws := rfl
@[simp] theorem armDecoder_progress (v : Word) (s : State) : (armDecoder v s).progress = s.progress := rfl

@[simp] theorem setTotalBits_cfg (v : Word) (s : State) : (setTotalBits v s).cfg = s.cfg := rfl
@[simp] theorem setTotalBits_blk (v : Word) (s : State) : (setTotalBits v s).blk = { s.blk with totalBits := v } := rfl
@[simp] theorem setTotalBits_src (v : Word) (s : State) : (setTotalBits v s).src = s.src := rfl
@[simp] theorem setTotalBits_srcPos (v : Word) (s : State) : (setTotalBits v s).srcPos = s.srcPos := rfl
@[simp] theorem setTotalBits_snk (v : Word) (s : State) : (setTotalBits v s).snk = s.snk := rfl
@[simp] theorem setTotalBits_script (v : Word) (s : State) : (setTotalBits v s).script = s.script := rfl
@[simp] theorem setTotalBits_seen (v : Word) (s : State) : (setTotalBits v s).seen = s.seen := rfl
@[simp] theorem setTotalBits_draws (v : Word) (s : State) : (setTotalBits v s).draws = s.draws := rfl
@[simp] theorem setTotalBits_progress (v : Word) (s : State) : (setTotalBits v s).progress = s.progress := rfl

@[simp] theorem setSymCount_cfg (v : Word) (s : State) : (setSymCount v s).cfg = s.cfg := rfl
@[simp] theorem setSymCount_blk (v : Word) (s : State) : (setSymCount v s).blk = { s.blk with symCount := v } := rfl
@[simp] theorem setSymCount_src (v : Word) (s : State) : (setSymCount v s).src = s.src := rfl
@[simp] theorem setSymCount_srcPos (v : Word) (s : State) : (setSymCount v s).srcPos = s.srcPos := rfl
@[simp] theorem setSymCount_snk (v : Word) (s : State) : (setSymCount v s).snk = s.snk := rfl
@[simp] theorem setSymCount_script (v : Word) (s : State) : (setSymCount v s).script = s.script := rfl
@[simp] theorem setSymCount_seen (v : Word) (s : State) : (setSymCount v s).seen = s.seen := rfl
@[simp] theorem setSymCount_draws (v : Word) (s : State) : (setSymCount v s).draws = s.draws := rfl
@[simp] theorem setSymCount_progress (v : Word) (s : State) : (setSymCount v s).progress = s.progress := rfl

@[simp] theorem clearTable_cfg (s : State) : (clearTable s).cfg = s.cfg := rfl
@[simp] theorem clearTable_blk (s : State) : (clearTable s).blk = { s.blk with entN := 0 } := rfl
@[simp] theorem clearTable_src (s : State) : (clearTable s).src = s.src := rfl
@[simp] theorem clearTable_srcPos (s : State) : (clearTable s).srcPos = s.srcPos := rfl
@[simp] theorem clearTable_snk (s : State) : (clearTable s).snk = s.snk := rfl
@[simp] theorem clearTable_script (s : State) : (clearTable s).script = s.script := rfl
@[simp] theorem clearTable_seen (s : State) : (clearTable s).seen = s.seen := rfl
@[simp] theorem clearTable_draws (s : State) : (clearTable s).draws = s.draws := rfl
@[simp] theorem clearTable_progress (s : State) : (clearTable s).progress = s.progress := rfl

@[simp] theorem emitPacked_cfg (a : Byte) (s : State) : (emitPacked a s).cfg = s.cfg := rfl
@[simp] theorem emitPacked_blk (a : Byte) (s : State) :
    (emitPacked a s).blk = { s.blk with payCount := s.blk.payCount + 1#32, pkAcc := 0#8, pkCnt := 0 } := rfl
@[simp] theorem emitPacked_src (a : Byte) (s : State) : (emitPacked a s).src = s.src := rfl
@[simp] theorem emitPacked_srcPos (a : Byte) (s : State) : (emitPacked a s).srcPos = s.srcPos := rfl
@[simp] theorem emitPacked_snk (a : Byte) (s : State) : (emitPacked a s).snk = s.snk ++ [a] := rfl
@[simp] theorem emitPacked_script (a : Byte) (s : State) : (emitPacked a s).script = s.script := rfl
@[simp] theorem emitPacked_seen (a : Byte) (s : State) : (emitPacked a s).seen = s.seen := rfl
@[simp] theorem emitPacked_draws (a : Byte) (s : State) : (emitPacked a s).draws = s.draws := rfl
@[simp] theorem emitPacked_progress (a : Byte) (s : State) : (emitPacked a s).progress = s.progress := rfl

@[simp] theorem loadUnpacker_cfg (x : Byte) (s : State) : (loadUnpacker x s).cfg = s.cfg := rfl
@[simp] theorem loadUnpacker_blk (x : Byte) (s : State) :
    (loadUnpacker x s).blk = { s.blk with unpkByte := x, unpkCnt := 8, payCount := s.blk.payCount + 1#32 } := rfl
@[simp] theorem loadUnpacker_src (x : Byte) (s : State) : (loadUnpacker x s).src = s.src := rfl
@[simp] theorem loadUnpacker_srcPos (x : Byte) (s : State) : (loadUnpacker x s).srcPos = s.srcPos := rfl
@[simp] theorem loadUnpacker_snk (x : Byte) (s : State) : (loadUnpacker x s).snk = s.snk := rfl
@[simp] theorem loadUnpacker_script (x : Byte) (s : State) : (loadUnpacker x s).script = s.script := rfl
@[simp] theorem loadUnpacker_seen (x : Byte) (s : State) : (loadUnpacker x s).seen = s.seen := rfl
@[simp] theorem loadUnpacker_draws (x : Byte) (s : State) : (loadUnpacker x s).draws = s.draws := rfl
@[simp] theorem loadUnpacker_progress (x : Byte) (s : State) : (loadUnpacker x s).progress = s.progress := rfl

@[simp] theorem dropBit_cfg (s : State) : (dropBit s).cfg = s.cfg := rfl
@[simp] theorem dropBit_blk (s : State) :
    (dropBit s).blk = { s.blk with unpkCnt := Fin.ofNat 9 (s.blk.unpkCnt.val - 1) } := rfl
@[simp] theorem dropBit_src (s : State) : (dropBit s).src = s.src := rfl
@[simp] theorem dropBit_srcPos (s : State) : (dropBit s).srcPos = s.srcPos := rfl
@[simp] theorem dropBit_snk (s : State) : (dropBit s).snk = s.snk := rfl
@[simp] theorem dropBit_script (s : State) : (dropBit s).script = s.script := rfl
@[simp] theorem dropBit_seen (s : State) : (dropBit s).seen = s.seen := rfl
@[simp] theorem dropBit_draws (s : State) : (dropBit s).draws = s.draws := rfl
@[simp] theorem dropBit_progress (s : State) : (dropBit s).progress = s.progress := rfl

@[simp] theorem growCand_cfg (b : Bool) (s : State) : (growCand b s).cfg = s.cfg := rfl
@[simp] theorem growCand_blk (b : Bool) (s : State) : (growCand b s).blk = { s.blk with cand := s.blk.cand ++ [b] } := rfl
@[simp] theorem growCand_src (b : Bool) (s : State) : (growCand b s).src = s.src := rfl
@[simp] theorem growCand_srcPos (b : Bool) (s : State) : (growCand b s).srcPos = s.srcPos := rfl
@[simp] theorem growCand_snk (b : Bool) (s : State) : (growCand b s).snk = s.snk := rfl
@[simp] theorem growCand_script (b : Bool) (s : State) : (growCand b s).script = s.script := rfl
@[simp] theorem growCand_seen (b : Bool) (s : State) : (growCand b s).seen = s.seen := rfl
@[simp] theorem growCand_draws (b : Bool) (s : State) : (growCand b s).draws = s.draws := rfl
@[simp] theorem growCand_progress (b : Bool) (s : State) : (growCand b s).progress = s.progress := rfl

@[simp] theorem emitSymbol_cfg (c : Byte) (s : State) : (emitSymbol c s).cfg = s.cfg := rfl
@[simp] theorem emitSymbol_blk (c : Byte) (s : State) :
    (emitSymbol c s).blk = { s.blk with
      outCount := s.blk.outCount + 1#32
      remaining := s.blk.remaining - BitVec.ofNat 32 s.blk.candLen
      cand := [] } := rfl
@[simp] theorem emitSymbol_src (c : Byte) (s : State) : (emitSymbol c s).src = s.src := rfl
@[simp] theorem emitSymbol_srcPos (c : Byte) (s : State) : (emitSymbol c s).srcPos = s.srcPos := rfl
@[simp] theorem emitSymbol_snk (c : Byte) (s : State) : (emitSymbol c s).snk = s.snk ++ [c] := rfl
@[simp] theorem emitSymbol_script (c : Byte) (s : State) : (emitSymbol c s).script = s.script := rfl
@[simp] theorem emitSymbol_seen (c : Byte) (s : State) : (emitSymbol c s).seen = s.seen := rfl
@[simp] theorem emitSymbol_draws (c : Byte) (s : State) : (emitSymbol c s).draws = s.draws := rfl
@[simp] theorem emitSymbol_progress (c : Byte) (s : State) : (emitSymbol c s).progress = s.progress := rfl

@[simp] theorem regRead_cfg (n : Nat) (a : Byte) (s : State) : (regRead n a s).cfg = s.cfg := rfl
@[simp] theorem regRead_blk (n : Nat) (a : Byte) (s : State) : (regRead n a s).blk = s.blk := rfl
@[simp] theorem regRead_src (n : Nat) (a : Byte) (s : State) : (regRead n a s).src = s.src := rfl
@[simp] theorem regRead_srcPos (n : Nat) (a : Byte) (s : State) : (regRead n a s).srcPos = s.srcPos := rfl
@[simp] theorem regRead_snk (n : Nat) (a : Byte) (s : State) : (regRead n a s).snk = s.snk := rfl
@[simp] theorem regRead_script (n : Nat) (a : Byte) (s : State) : (regRead n a s).script = s.script := rfl
@[simp] theorem regRead_seen (n : Nat) (a : Byte) (s : State) : (regRead n a s).seen = s.seen ++ [.reg (readValue n a s)] := rfl
@[simp] theorem regRead_draws (n : Nat) (a : Byte) (s : State) : (regRead n a s).draws = s.draws + 1 := rfl
@[simp] theorem regRead_progress (n : Nat) (a : Byte) (s : State) : (regRead n a s).progress = s.progress := rfl

@[simp] theorem latchCommand_cfg (w : Word) (s : State) : (latchCommand w s).cfg = s.cfg := rfl
@[simp] theorem latchCommand_blk (w : Word) (s : State) : (latchCommand w s).blk = { s.blk with pending := w, busy := true } := rfl
@[simp] theorem latchCommand_src (w : Word) (s : State) : (latchCommand w s).src = s.src := rfl
@[simp] theorem latchCommand_srcPos (w : Word) (s : State) : (latchCommand w s).srcPos = s.srcPos := rfl
@[simp] theorem latchCommand_snk (w : Word) (s : State) : (latchCommand w s).snk = s.snk := rfl
@[simp] theorem latchCommand_script (w : Word) (s : State) : (latchCommand w s).script = s.script := rfl
@[simp] theorem latchCommand_seen (w : Word) (s : State) : (latchCommand w s).seen = s.seen := rfl
@[simp] theorem latchCommand_draws (w : Word) (s : State) : (latchCommand w s).draws = s.draws := rfl
@[simp] theorem latchCommand_progress (w : Word) (s : State) : (latchCommand w s).progress = 0 := rfl

end Sys2Proof.Machine
end

