-- ==== Sys2Proof/Laws/Run.lean ====
section
/-! SUPPORT. Runs of pseudocode, the order of checks, and everything `exec` can do (spec/30_encoding.md R109, spec/60_exceptions.md R310, R312). -/

namespace Sys2Proof.Machine

open Sys2Proof

@[simp] theorem Run.bind_done {α β : Type} (a : α) (s : State) (f : α → State → Run β) :
    (Run.done a s).bind f = f a s := rfl

@[simp] theorem Run.bind_raised {α β : Type} (e : ErrKind) (s : State) (f : α → State → Run β) :
    (Run.raised e s : Run α).bind f = .raised e s := rfl

/-- A run of two parts ends well exactly when both parts do. -/
theorem Run.bind_eq_done {α β : Type} {r : Run α} {f : α → State → Run β} {b : β} {t : State} :
    r.bind f = .done b t ↔ ∃ a u, r = .done a u ∧ f a u = .done b t := by
  cases r <;> simp

/-- A run of two parts raises exactly when one of its parts does. -/
theorem Run.bind_eq_raised {α β : Type} {r : Run α} {f : α → State → Run β} {e : ErrKind} {t : State} :
    r.bind f = .raised e t ↔ r = .raised e t ∨ ∃ a u, r = .done a u ∧ f a u = .raised e t := by
  cases r <;> simp

@[simp] theorem conclude_done (s : State) : conclude (.done () s) = .next (retire s) := rfl

@[simp] theorem conclude_raised (e : ErrKind) (s : State) : conclude (.raised e s) = .next (errorEntry e s) := rfl

theorem retire_eq_withIdle (s : State) : retire s = withIdle s := rfl

theorem errorEntry_eq_withError (e : ErrKind) (s : State) : errorEntry e s = withError e.code s := rfl

/-- R312: refused while ERRCODE is not 0. -/
theorem runCommand_refused {i : Instr} {body : State → Run Unit} {s : State} (h : s.blk.errCode ≠ 0#4) :
    runCommand i body s = .next (retire s) := by simp [runCommand, h]

/-- R307: SequenceError outside the command's phases or with its extra condition false. -/
theorem runCommand_outOfOrder {i : Instr} {body : State → Run Unit} {s : State} (h : s.blk.errCode = 0#4)
    (hp : phaseLegal i s.blk.phase = false ∨ extraLegal i s.blk = false) :
    runCommand i body s = .next (errorEntry .sequenceError s) := by
  rcases hp with hp | hp
  · simp [runCommand, h, hp]
  · by_cases hq : phaseLegal i s.blk.phase = false <;> simp [runCommand, h, hp, hq]

/-- R109: past the checks the command's rule runs. -/
theorem runCommand_runs {i : Instr} {body : State → Run Unit} {s : State} (h : s.blk.errCode = 0#4)
    (hp : phaseLegal i s.blk.phase = true) (hx : extraLegal i s.blk = true) :
    runCommand i body s = conclude (body s) := by simp [runCommand, h, hp, hx]

theorem conclude_cases {r : Run Unit} {t : State} (h : conclude r = .next t) :
    (∃ u, r = .done () u ∧ t = retire u) ∨ ∃ e u, r = .raised e u ∧ t = errorEntry e u := by
  cases r with
  | done a u => exact .inl ⟨u, rfl, (Host.Outcome.next.inj h).symm⟩
  | raised e u => exact .inr ⟨e, u, rfl, (Host.Outcome.next.inj h).symm⟩

theorem conclude_next (r : Run Unit) : ∃ t, conclude r = .next t := by
  cases r <;> exact ⟨_, rfl⟩

/-- Everything a command under the order of checks can do. -/
theorem runCommand_cases {i : Instr} {body : State → Run Unit} {s t : State} (h : runCommand i body s = .next t) :
    (s.blk.errCode ≠ 0#4 ∧ t = retire s)
    ∨ (s.blk.errCode = 0#4 ∧ t = errorEntry .sequenceError s)
    ∨ (s.blk.errCode = 0#4 ∧ phaseLegal i s.blk.phase = true ∧ extraLegal i s.blk = true
        ∧ ((∃ u, body s = .done () u ∧ t = retire u) ∨ ∃ e u, body s = .raised e u ∧ t = errorEntry e u)) := by
  unfold runCommand at h
  split at h
  · exact .inl ⟨‹_›, by simpa [eq_comm] using h⟩
  · rename_i h0
    have h0 : s.blk.errCode = 0#4 := by simpa using h0
    split at h
    · exact .inr (.inl ⟨h0, by simpa [eq_comm] using h⟩)
    · split at h
      · exact .inr (.inl ⟨h0, by simpa [eq_comm] using h⟩)
      · exact .inr (.inr ⟨h0, by simpa using ‹¬ phaseLegal _ _ = false›, by simpa using ‹¬ extraLegal _ _ = false›,
          conclude_cases h⟩)

theorem runCommand_next (i : Instr) (body : State → Run Unit) (s : State) : ∃ t, runCommand i body s = .next t := by
  unfold runCommand
  split
  · exact ⟨_, rfl⟩
  · split
    · exact ⟨_, rfl⟩
    · split
      · exact ⟨_, rfl⟩
      · exact conclude_next _

theorem exec_eq_runCommand {i : Instr} (hn : i ≠ .nop) (hr : i ≠ .softReset) (s : State) :
    exec i s = runCommand i (bodyOf i) s := by
  cases i <;> first | rfl | exact absurd rfl hn | exact absurd rfl hr

/-- Everything `exec` can do: reset, only BUSY, SequenceError, or the body's end or raise. -/
theorem exec_cases {i : Instr} {s t : State} (h : exec i s = .next t) :
    (i = .softReset ∧ t = resetBlock s) ∨ (t = retire s)
    ∨ (s.blk.errCode = 0#4 ∧ t = errorEntry .sequenceError s)
    ∨ (s.blk.errCode = 0#4 ∧ i ≠ .nop ∧ i ≠ .softReset ∧ phaseLegal i s.blk.phase = true ∧ extraLegal i s.blk = true
        ∧ ((∃ u, bodyOf i s = .done () u ∧ t = retire u) ∨ ∃ e u, bodyOf i s = .raised e u ∧ t = errorEntry e u)) := by
  by_cases hn : i = .nop
  · subst hn; exact .inr (.inl (by simpa [exec, execNop, eq_comm] using h))
  by_cases hr : i = .softReset
  · subst hr; exact .inl ⟨rfl, by simpa [exec, execSoftReset, eq_comm] using h⟩
  rw [exec_eq_runCommand hn hr] at h
  rcases runCommand_cases h with ⟨_, h⟩ | h | ⟨h0, hp, hx, h⟩
  · exact .inr (.inl h)
  · exact .inr (.inr (.inl h))
  · exact .inr (.inr (.inr ⟨h0, hn, hr, hp, hx, h⟩))

/-- Every command answers a next state. -/
theorem exec_next (i : Instr) (s : State) : ∃ t, exec i s = .next t := by
  by_cases hn : i = .nop
  · subst hn; exact ⟨_, rfl⟩
  by_cases hr : i = .softReset
  · subst hr; exact ⟨_, rfl⟩
  rw [exec_eq_runCommand hn hr]; exact runCommand_next _ _ _

theorem atReset_reset : AtReset Block.reset := by
  constructor <;> try (simp [Block.reset, Phase.code, freqAt, Node.zero, Entry.zero, Entry.len, Entry.cell, Block.candLen])

/-- A legal command in order, with no error recorded, is its body. -/
theorem exec_runs {i : Instr} {s : State} (hn : i ≠ .nop) (hr : i ≠ .softReset) (h : s.blk.errCode = 0#4)
    (hp : phaseLegal i s.blk.phase = true) (hx : extraLegal i s.blk = true) :
    exec i s = conclude (bodyOf i s) := by
  rw [exec_eq_runCommand hn hr, runCommand_runs h hp hx]

/-- An error entry leaves ERRCODE not 0. -/
theorem errCode_errorEntry (e : ErrKind) (s : State) : (errorEntry e s).blk.errCode ≠ 0#4 := by
  cases e <;> simp [errorEntry, State.withBlk, ErrKind.code]

end Sys2Proof.Machine
end

