-- ==== Sys2Proof/Laws/Streams.lean ====
section
/-! SUPPORT. The source and the sink (spec/10_state.md R53). -/

namespace Sys2Proof.Machine

open Sys2Proof

/-- SrcRead at EOF. -/
theorem srcRead_none {s : State} : srcRead s = none ↔ restOfSource s = [] := by
  unfold srcRead restOfSource
  cases h : s.src[s.srcPos]? with
  | none => simpa using h
  | some b => simp [List.getElem?_eq_some_iff] at h; simpa using h.1

/-- SrcRead of a byte moves the position by one and nothing else. -/
theorem srcRead_some {s s' : State} {b : Byte} : srcRead s = some (b, s') ↔
    s.src[s.srcPos]? = some b ∧ s' = { s with srcPos := s.srcPos + 1 } := by
  unfold srcRead
  cases h : s.src[s.srcPos]? with
  | none => simp
  | some b => simp [eq_comm]

theorem restOfSource_cons {s : State} {b : Byte} {bs : List Byte} (h : restOfSource s = b :: bs) :
    srcRead s = some (b, { s with srcPos := s.srcPos + 1 }) ∧ s.src.drop (s.srcPos + 1) = bs := by
  unfold restOfSource at h
  have h1 : s.src[s.srcPos]? = some b := by
    rw [← List.head?_drop, h]; rfl
  refine ⟨srcRead_some.2 ⟨h1, rfl⟩, ?_⟩
  rw [← List.tail_drop, h]; rfl

theorem restOfSource_of_read {s : State} {b : Byte} (h : s.src[s.srcPos]? = some b) :
    restOfSource s = b :: s.src.drop (s.srcPos + 1) := by
  unfold restOfSource
  obtain ⟨h1, rfl⟩ := List.getElem?_eq_some_iff.1 h
  exact List.drop_eq_getElem_cons h1

theorem srcLeft_eq (s : State) : srcLeft s = (restOfSource s).length := by simp [srcLeft, restOfSource]

/-- The read position does not move back or leave the source, and the sink only grows. -/
def Onward (s u : State) : Prop := s.srcPos ≤ u.srcPos ∧ (PortInv s → PortInv u) ∧ ∃ out, u.snk = s.snk ++ out

theorem Onward.refl (s : State) : Onward s s := ⟨le_refl _, id, [], by simp⟩

theorem Onward.trans {s t u : State} (h : Onward s t) (h' : Onward t u) : Onward s u := by
  obtain ⟨a, b, o, c⟩ := h
  obtain ⟨a', b', o', c'⟩ := h'
  exact ⟨le_trans a a', fun x => b' (b x), o ++ o', by rw [c', c, List.append_assoc]⟩

theorem srcRead_onward {s s' : State} {b : Byte} (h : srcRead s = some (b, s')) :
    s' = { s with srcPos := s.srcPos + 1 } ∧ Onward s s' := by
  obtain ⟨h1, rfl⟩ := srcRead_some.1 h
  refine ⟨rfl, by simp, fun _ => ?_, [], by simp⟩
  have := (List.getElem?_eq_some_iff.1 h1).1
  unfold PortInv; simp; omega

end Sys2Proof.Machine
end

