-- ==== Sys2Proof/Laws/Counting.lean ====
section
/-! SUPPORT. Counting symbols (spec/40_tree_builder.md R131, R133). -/

namespace Sys2Proof.Machine

open Sys2Proof

theorem freqAt_set (f : Vector Word 256) (c d : Byte) (v : Word) :
    freqAt (f.set c.toNat v c.isLt) d = if d = c then v else freqAt f d := by
  unfold freqAt
  rw [Vector.getElem_set]
  by_cases h : d = c
  · simp [h]
  · have : c.toNat ≠ d.toNat := fun h' => h (BitVec.eq_of_toNat_eq h'.symm)
    simp [h, this]

/-- The state after counting `bs`. -/
def countBytes : List Byte → State → State
  | [], s => s
  | b :: bs, s => countBytes bs (countOne b { s with srcPos := s.srcPos + 1 })

/-- COUNT_SRC's loop when the counts fit (R133). -/
theorem countLoop_done (bs : List Byte) : ∀ (n : Nat) (s : State) , restOfSource s = bs → bs.length ≤ n →
    s.blk.inCount.toNat + bs.length < 2 ^ 32 → countLoop n s = .done () (countBytes bs s) := by
  induction bs with
  | nil =>
    intro n s h hn hc
    cases n with
    | zero => rfl
    | succ n => simp [countLoop, srcRead_none.2 h, countBytes]
  | cons b bs ih =>
    intro n s h hn hc
    cases n with
    | zero => simp at hn
    | succ n =>
      obtain ⟨h1, h2⟩ := restOfSource_cons h
      simp only [List.length_cons] at hn hc
      have hm : s.blk.inCount ≠ 0xFFFFFFFF#32 := by
        intro hm; rw [hm] at hc; simp at hc; omega
      simp only [countLoop, h1, countSymbol]
      rw [if_neg hm, Run.bind_done, countBytes]
      apply ih n
      · simpa [restOfSource] using h2
      · omega
      · simp only [countOne_blk, BitVec.toNat_add]; simp; omega

/-- What counting a list of bytes leaves. -/
theorem countBytes_facts (bs : List Byte) : ∀ s : State,
    (∀ c, freqAt (countBytes bs s).blk.freq c = freqAt s.blk.freq c + BitVec.ofNat 32 (bs.count c))
    ∧ countBytes bs s = { s with srcPos := s.srcPos + bs.length, blk := { s.blk with
        freq := (countBytes bs s).blk.freq, inCount := s.blk.inCount + BitVec.ofNat 32 bs.length } } := by
  induction bs with
  | nil => intro s; simp [countBytes]
  | cons b bs ih =>
    intro s
    obtain ⟨h1, h2⟩ := ih (countOne b { s with srcPos := s.srcPos + 1 })
    constructor
    · intro c
      rw [countBytes, h1 c]
      simp only [countOne_blk, freqAt_set]
      by_cases h : c = b
      · subst h; simp [BitVec.ofNat_add]; ac_rfl
      · have : ¬ b = c := fun h' => h h'.symm
        simp [h, this]
    · rw [countBytes, h2]
      simp [BitVec.ofNat_add, State.withBlk, countOne]
      constructor
      · ac_rfl
      · omega

/-- COUNT_SRC's loop when the counts do not fit (R131, R133). -/
theorem countLoop_overflow (bs : List Byte) (k : Nat) : ∀ (n : Nat) (s : State), restOfSource s = bs → bs.length ≤ n →
    s.blk.inCount.toNat + k = 2 ^ 32 - 1 → k < bs.length →
    countLoop n s = .raised .overflow { countBytes (bs.take k) s with srcPos := s.srcPos + k + 1 } := by
  induction k generalizing bs with
  | zero =>
    intro n s h hn hc hk
    cases bs with
    | nil => simp at hk
    | cons b bs =>
      cases n with
      | zero => simp at hn
      | succ n =>
        obtain ⟨h1, h2⟩ := restOfSource_cons h
        have hm : s.blk.inCount = 0xFFFFFFFF#32 := by
          apply BitVec.eq_of_toNat_eq; simp; omega
        simp only [countLoop, h1, countSymbol]
        rw [if_pos hm, Run.bind_raised]
        simp [countBytes]
  | succ k ih =>
    intro n s h hn hc hk
    cases bs with
    | nil => simp at hk
    | cons b bs =>
      cases n with
      | zero => simp at hn
      | succ n =>
        obtain ⟨h1, h2⟩ := restOfSource_cons h
        simp only [List.length_cons] at hn hk
        have hm : s.blk.inCount ≠ 0xFFFFFFFF#32 := by
          intro hm; rw [hm] at hc; simp at hc
        simp only [countLoop, h1, countSymbol]
        rw [if_neg hm, Run.bind_done, ih bs n _ (by simpa [restOfSource] using h2) (by omega) _ (by omega)]
        · simp [countBytes, Nat.add_comm, Nat.add_left_comm]
        · simp only [countOne_blk, BitVec.toNat_add]; simp; omega

end Sys2Proof.Machine
end

