-- ==== Sys2Proof/Laws/Packer.lean ====
section
/-! SUPPORT. The bit packer and the search of the code table (spec/42_bitpacker.md). -/

namespace Sys2Proof.Machine

open Sys2Proof

theorem getLsbD_setByteBit (a : Byte) (i j : Nat) (b : Bool) (hi : i < 8) :
    (setByteBit a i b).getLsbD j = if j = i then b else a.getLsbD j := by
  have h1 : ∀ j < 8, ((1#8 <<< i : Byte)).getLsbD j = decide (j = i) := by
    revert hi; clear a b
    revert i
    decide
  unfold setByteBit
  by_cases hj : j < 8
  · cases b
    · simp only [Bool.false_eq_true, if_false, BitVec.getLsbD_and, BitVec.getLsbD_not, h1 j hj, hj]
      by_cases h : j = i <;> simp [h]
    · simp only [if_true, BitVec.getLsbD_or, h1 j hj]
      by_cases h : j = i <;> simp [h]
  · rw [BitVec.getLsbD_of_ge _ _ (by omega), BitVec.getLsbD_of_ge _ _ (by omega), if_neg (by omega)]

theorem bitsOfByte_length (b : Byte) : (bitsOfByte b).length = 8 := by simp [bitsOfByte]

theorem heldBits_length (b : Block) : (heldBits b).length = b.pkCnt.val := by simp [heldBits]

/-- What pushing leaves: the bits `x` have gone through the packer on the way from `s` to `t`. -/
def Packed (s t : State) (x : Bits) : Prop :=
  ∃ out, out.flatMap bitsOfByte ++ heldBits t.blk = heldBits s.blk ++ x
    ∧ t = { s with
        snk := s.snk ++ out
        blk := { s.blk with
          pkAcc := t.blk.pkAcc, pkCnt := t.blk.pkCnt
          payCount := s.blk.payCount + BitVec.ofNat 32 out.length } }

/-- PushBit keeps bit order (R200, R201). -/
theorem pushBit_packed (b : Bool) (s : State) : Packed s (pushBit b s) [b] := by
  unfold pushBit
  split
  · rename_i h
    refine ⟨[setByteBit s.blk.pkAcc 0 b], ?_, ?_⟩
    · simp [heldBits, bitsOfByte, h, List.range_succ, getLsbD_setByteBit]
    · simp [emitPacked, State.withBlk, snkWrite]
  · rename_i h
    have hlt : s.blk.pkCnt.val < 7 := by omega
    refine ⟨[], ?_, ?_⟩
    · have : (s.blk.pkCnt.val + 1) % 8 = s.blk.pkCnt.val + 1 := by omega
      simp only [heldBits, State.withBlk, Fin.ofNat, this, List.flatMap_nil, List.nil_append, List.range_succ, List.map_append]
      congr 1
      · apply List.map_congr_left
        intro k hk
        rw [List.mem_range] at hk
        rw [getLsbD_setByteBit _ _ _ _ (by omega), if_neg (by omega)]
      · simp only [List.map_cons, List.map_nil]; rw [getLsbD_setByteBit _ _ _ _ (by omega), if_pos rfl]
    · simp [State.withBlk]

theorem Packed.refl (s : State) : Packed s s [] := ⟨[], by simp, by simp⟩

theorem Packed.trans {s t u : State} {x y : Bits} (h : Packed s t x) (h' : Packed t u y) : Packed s u (x ++ y) := by
  obtain ⟨o, h1, h2⟩ := h
  obtain ⟨o', h1', h2'⟩ := h'
  refine ⟨o ++ o', ?_, ?_⟩
  · rw [List.flatMap_append, List.append_assoc, h1', ← List.append_assoc, h1, List.append_assoc]
  · rw [h2'] ; rw [h2]; simp [BitVec.ofNat_add]; ac_rfl

/-- Pushing a sequence keeps bit order (R203). -/
theorem pushAll_packed (x : Bits) : ∀ s, Packed s (pushAll x s) x := by
  induction x with
  | nil => exact Packed.refl
  | cons b x ih => intro s; exact (pushBit_packed b s).trans (ih _)

theorem Packed.entries {s t : State} {x : Bits} (h : Packed s t x) : t.blk.entries = s.blk.entries := by
  obtain ⟨o, _, h⟩ := h; rw [h]; rfl

theorem entries_length (b : Block) : b.entries.length = b.entN.val := by
  simp [Block.entries]; omega

theorem entries_getElem (b : Block) (i : Nat) (h : i < b.entries.length) :
    b.entries[i] = b.ent[i]'(by have := entries_length b; omega) := by
  simp [Block.entries]

/-- The search of a table finds the entry of least index (R205, R234). -/
theorem find_first {b : Block} {p : Entry → Prop} [DecidablePred p] {i : Fin 256} (h : firstEntry b p i) :
    b.entries.find? (fun e => decide (p e)) = some b.ent[i] := by
  obtain ⟨h1, h2, h3⟩ := h
  have hl := entries_length b
  rw [List.find?_eq_some_iff_getElem]
  refine ⟨by simpa using h2, i.val, by omega, ?_, ?_⟩
  · rw [entries_getElem]; rfl
  · intro j hj
    have := h3 ⟨j, by omega⟩ hj
    rw [entries_getElem]; simpa using this

/-- The search of a table without such an entry finds none. -/
theorem find_none {b : Block} {p : Entry → Prop} [DecidablePred p] (h : noEntry b p) :
    b.entries.find? (fun e => decide (p e)) = none := by
  rw [List.find?_eq_none]
  intro e he
  obtain ⟨i, hi, rfl⟩ := List.getElem_of_mem he
  have hl := entries_length b
  rw [entries_getElem]
  simpa using h ⟨i, by omega⟩ (by simp; omega)

theorem findSym_first {b : Block} {c : Byte} {i : Fin 256} (h : firstEntry b (fun e => e.sym = c) i) :
    findSym c b = some b.ent[i] := by
  have := find_first h
  unfold findSym; simpa [BEq.beq] using this

theorem findSym_none {b : Block} {c : Byte} (h : noEntry b (fun e => e.sym = c)) : findSym c b = none := by
  have := find_none h
  unfold findSym; simpa [BEq.beq] using this

/-- ENCODE_SRC's loop when every byte has an entry (R207). -/
theorem encodeLoop_done (bs : List Byte) : ∀ (n : Nat) (s : State) (codes : List Bits), restOfSource s = bs → bs.length ≤ n →
    List.Forall₂ (fun c code => ∃ i : Fin 256, firstEntry s.blk (fun e => e.sym = c) i ∧ s.blk.ent[i].code = code) bs codes →
    ∃ t, encodeLoop n s = .done () t ∧ Packed { s with srcPos := s.srcPos + bs.length } t codes.flatten := by
  induction bs with
  | nil =>
    intro n s codes h hn hf
    cases hf
    refine ⟨s, ?_, by simpa using Packed.refl s⟩
    cases n with
    | zero => rfl
    | succ n => simp [encodeLoop, srcRead_none.2 h]
  | cons b bs ih =>
    intro n s codes h hn hf
    cases hf with
    | cons h1 h2 =>
    rename_i code codes
    obtain ⟨i, hi, rfl⟩ := h1
    cases n with
    | zero => simp at hn
    | succ n =>
      obtain ⟨hr, hd⟩ := restOfSource_cons h
      have hp := pushAll_packed s.blk.ent[i].code { s with srcPos := s.srcPos + 1 }
      obtain ⟨o, ho1, ho2⟩ := id hp
      have hrest : restOfSource (pushAll s.blk.ent[i].code { s with srcPos := s.srcPos + 1 }) = bs := by
        rw [ho2]; exact hd
      have hent : (pushAll s.blk.ent[i].code { s with srcPos := s.srcPos + 1 }).blk.ent = s.blk.ent := by rw [ho2]
      have hentn : (pushAll s.blk.ent[i].code { s with srcPos := s.srcPos + 1 }).blk.entN = s.blk.entN := by rw [ho2]
      obtain ⟨t, ht, hpt⟩ := ih n _ codes hrest (by simp at hn; omega) (by
        simp only [firstEntry, hent, hentn] at h2 ⊢; exact h2)
      refine ⟨t, ?_, ?_⟩
      · simp only [encodeLoop, hr, pushSymbol]
        rw [findSym_first (b := s.blk) hi]
        simpa using ht
      · rw [List.flatten_cons]
        refine Packed.trans ?_ hpt
        obtain ⟨o, ho1, ho2⟩ := hp
        refine ⟨o, ho1, ?_⟩
        rw [ho2]; simp; omega

/-- ENCODE_SRC's loop up to the first byte without an entry (R207). -/
theorem encodeLoop_unknown (bs : List Byte) : ∀ (n : Nat) (s : State) (codes : List Bits) (c : Byte) (rest : List Byte),
    restOfSource s = bs ++ c :: rest → bs.length < n →
    List.Forall₂ (fun c code => ∃ i : Fin 256, firstEntry s.blk (fun e => e.sym = c) i ∧ s.blk.ent[i].code = code) bs codes →
    noEntry s.blk (fun e => e.sym = c) →
    ∃ t, encodeLoop n s = .raised .unknownSymbol t ∧ Packed { s with srcPos := s.srcPos + bs.length + 1 } t codes.flatten := by
  induction bs with
  | nil =>
    intro n s codes c rest h hn hf hno
    cases hf
    cases n with
    | zero => simp at hn
    | succ n =>
      obtain ⟨hr, hd⟩ := restOfSource_cons h
      refine ⟨{ s with srcPos := s.srcPos + 1 }, ?_, by simpa using Packed.refl _⟩
      simp only [encodeLoop, hr, pushSymbol]
      rw [findSym_none (b := s.blk) hno]; rfl
  | cons b bs ih =>
    intro n s codes c rest h hn hf hno
    cases hf with
    | cons h1 h2 =>
    rename_i code codes
    obtain ⟨i, hi, rfl⟩ := h1
    cases n with
    | zero => simp at hn
    | succ n =>
      obtain ⟨hr, hd⟩ := restOfSource_cons h
      have hp := pushAll_packed s.blk.ent[i].code { s with srcPos := s.srcPos + 1 }
      obtain ⟨o, ho1, ho2⟩ := id hp
      have hrest : restOfSource (pushAll s.blk.ent[i].code { s with srcPos := s.srcPos + 1 }) = bs ++ c :: rest := by
        rw [ho2]; exact hd
      have hent : (pushAll s.blk.ent[i].code { s with srcPos := s.srcPos + 1 }).blk.ent = s.blk.ent := by rw [ho2]
      have hentn : (pushAll s.blk.ent[i].code { s with srcPos := s.srcPos + 1 }).blk.entN = s.blk.entN := by rw [ho2]
      obtain ⟨t, ht, hpt⟩ := ih n _ codes c rest hrest (by simp at hn; omega) (by
        simp only [firstEntry, hent, hentn] at h2 ⊢; exact h2) (by simp only [noEntry, hent, hentn] at hno ⊢; exact hno)
      refine ⟨t, ?_, ?_⟩
      · simp only [encodeLoop, hr, pushSymbol]
        rw [findSym_first (b := s.blk) hi]
        simpa using ht
      · rw [List.flatten_cons]
        refine Packed.trans ?_ hpt
        obtain ⟨o, ho1, ho2⟩ := hp
        refine ⟨o, ho1, ?_⟩
        rw [ho2]; simp; omega

end Sys2Proof.Machine
end

