-- ==== Sys2Proof/Laws/Decoder.lean ====
section
/-! SUPPORT. The unpacker and the decoder (spec/43_decoder.md). -/

namespace Sys2Proof.Machine

open Sys2Proof

theorem bitsOfByte_drop (x : Byte) (n : Nat) (h1 : 0 < n) (h2 : n ≤ 8) :
    (bitsOfByte x).drop (8 - n) = x.getLsbD (n - 1) :: (bitsOfByte x).drop (8 - (n - 1)) := by
  have hl : 8 - n < (bitsOfByte x).length := by rw [bitsOfByte_length]; omega
  rw [List.drop_eq_getElem_cons hl]
  congr 1
  · simp only [bitsOfByte, List.getElem_map, List.getElem_range]; congr 1; omega
  · congr 1; omega

/-- Everything but what the unpacker writes is as it was. -/
def UnpackFrame (s t : State) : Prop :=
  t = { s with srcPos := t.srcPos, blk := { s.blk with
    unpkByte := t.blk.unpkByte, unpkCnt := t.blk.unpkCnt, payCount := t.blk.payCount } }

/-- The unpacker with a bit left (R231). -/
theorem unpackBit_some {s : State} {b : Bool} {bs : Bits} (h : unreadBits s = b :: bs) :
    ∃ t, unpackBit s = .done b t ∧ BitTaken s t b ∧ unreadBits t = bs ∧ UnpackFrame s t := by
  unfold unreadBits at h
  by_cases hc : s.blk.unpkCnt.val = 0
  · rw [hc, Nat.sub_zero, List.drop_of_length_le (by rw [bitsOfByte_length]), List.nil_append] at h
    cases hr : restOfSource s with
    | nil => rw [hr] at h; simp at h
    | cons x xs =>
      obtain ⟨h1, h2⟩ := restOfSource_cons hr
      rw [hr, List.flatMap_cons] at h
      have hb := bitsOfByte_drop x 8 (by omega) (by omega)
      rw [show 8 - 8 = 0 by rfl, List.drop_zero] at hb
      rw [hb] at h
      simp only [List.cons_append, List.cons.injEq] at h
      obtain ⟨rfl, h4⟩ := h
      refine ⟨dropBit (loadUnpacker x { s with srcPos := s.srcPos + 1 }), ?_, ?_, ?_, rfl⟩
      · unfold unpackBit; rw [if_pos hc, h1]; rfl
      · refine .inr ⟨Fin.ext hc, x, ?_, rfl, rfl, rfl, rfl, rfl⟩
        exact (srcRead_some.1 h1).1
      · unfold unreadBits
        show (bitsOfByte x).drop (8 - 7) ++ (s.src.drop (s.srcPos + 1)).flatMap bitsOfByte = bs
        rw [h2, ← h4]
  · have hlt := s.blk.unpkCnt.isLt
    rw [bitsOfByte_drop _ _ (by omega) (by omega)] at h
    simp only [List.cons_append, List.cons.injEq] at h
    obtain ⟨rfl, h4⟩ := h
    have hv : ((Fin.ofNat 9 (s.blk.unpkCnt.val - 1)).val : Nat) = s.blk.unpkCnt.val - 1 := by
      simp only [Fin.ofNat]; omega
    refine ⟨dropBit s, ?_, .inl ⟨fun h => hc (by rw [h]; rfl), rfl, rfl, rfl, rfl, hv⟩, ?_, rfl⟩
    · unfold unpackBit; rw [if_neg hc]; rfl
    · unfold unreadBits
      show (bitsOfByte s.blk.unpkByte).drop (8 - (Fin.ofNat 9 (s.blk.unpkCnt.val - 1)).val) ++ (restOfSource s).flatMap bitsOfByte = bs
      rw [hv, h4]

/-- The unpacker with no bit left (R231, R238). -/
theorem unpackBit_none {s : State} (h : unreadBits s = []) : unpackBit s = .raised .trailingOrMissingData s ∧ s.blk.unpkCnt = 0 ∧ restOfSource s = [] := by
  unfold unreadBits at h
  rw [List.append_eq_nil_iff] at h
  have hc : s.blk.unpkCnt.val = 0 := by
    have := congrArg List.length h.1
    simp [bitsOfByte_length] at this; omega
  have hr : restOfSource s = [] := by
    cases hr : restOfSource s with
    | nil => rfl
    | cons x xs =>
      have := congrArg List.length h.2
      rw [hr] at this; simp [bitsOfByte_length] at this
  refine ⟨?_, Fin.ext hc, hr⟩
  unfold unpackBit; rw [if_pos hc, srcRead_none.2 hr]

theorem matchCand_eq (b : Block) : matchCand b = b.entries.find? (fun e => decide (e.code = b.cand)) := by
  unfold matchCand; congr 1; funext e; rw [Bool.eq_iff_iff]; simp

theorem matchCand_first {b : Block} {i : Fin 256} (h : firstEntry b (fun e => e.code = b.cand) i) :
    matchCand b = some b.ent[i] := by
  rw [matchCand_eq]; exact find_first h

theorem matchCand_none {b : Block} (h : noEntry b (fun e => e.code = b.cand)) : matchCand b = none := by
  rw [matchCand_eq]; exact find_none h

theorem exec_decodeStep {s : State} (h0 : s.blk.errCode = 0#4) (hp : s.blk.phase = .ready) (hr : s.blk.remaining ≠ 0#32) :
    exec .decodeStep s = conclude (decodeStepBody s) := by
  rw [exec_runs (by simp) (by simp) h0 (by simp [phaseLegal, hp]) rfl]
  simp only [bodyOf, decodeStep, if_neg hr]

theorem bitsLeft_eq (s : State) : bitsLeft s = (unreadBits s).length := by
  unfold bitsLeft unreadBits
  have : ∀ l : List Byte, (l.flatMap bitsOfByte).length = 8 * l.length := by
    intro l; induction l with
    | nil => rfl
    | cons a l ih => simp only [List.flatMap_cons, List.length_append, ih, bitsOfByte_length, List.length_cons]; omega
  have hlt := s.blk.unpkCnt.isLt
  rw [List.length_append, this, List.length_drop, bitsOfByte_length, srcLeft_eq]
  omega

/-- A body that ends well has read exactly one bit. -/
theorem decodeStepBody_done {s t : State} (h : decodeStepBody s = .done () t) : bitsLeft s = bitsLeft t + 1
    ∧ t.blk.errCode = s.blk.errCode ∧ t.blk.phase = s.blk.phase ∧ t.blk.pkCnt = s.blk.pkCnt := by
  unfold decodeStepBody at h
  cases hu : unreadBits s with
  | nil => rw [(unpackBit_none hu).1] at h; cases h
  | cons b bs =>
    obtain ⟨t', h1, h2, h3, h4⟩ := unpackBit_some hu
    rw [h1, Run.bind_done] at h
    have : t.blk.unpkByte = t'.blk.unpkByte ∧ t.blk.unpkCnt = t'.blk.unpkCnt ∧ t.src = t'.src ∧ t.srcPos = t'.srcPos ∧ t.blk.errCode = t'.blk.errCode
        ∧ t.blk.phase = t'.blk.phase ∧ t.blk.pkCnt = t'.blk.pkCnt := by
      unfold resolveCand at h
      split at h
      · cases h; exact ⟨rfl, rfl, rfl, rfl, rfl, rfl, rfl⟩
      · split at h
        · cases h
        · split at h
          · cases h
          · cases h; exact ⟨rfl, rfl, rfl, rfl, rfl, rfl, rfl⟩
    obtain ⟨a1, a2, a3, a4, a5, a6, a7⟩ := this
    refine ⟨?_, ?_, ?_, ?_⟩
    · rw [bitsLeft_eq, bitsLeft_eq, hu]
      have : unreadBits t = unreadBits t' := by simp only [unreadBits, restOfSource, a1, a2, a3, a4]
      rw [this, h3]; simp
    · rw [a5, h4]
    · rw [a6, h4]
    · rw [a7, h4]

theorem exec_decodeRun {s : State} (h0 : s.blk.errCode = 0#4) (hp : s.blk.phase = .ready) :
    exec .decodeRun s = conclude (decodeAll s) :=
  exec_runs (by simp) (by simp) h0 (by simp [phaseLegal, hp]) rfl

/-- More iterations than bits left change nothing. -/
theorem decodeLoop_mono {s : State} {n : Nat} : bitsLeft s ≤ n → decodeLoop n s = decodeLoop (bitsLeft s) s := by
  generalize hk : bitsLeft s = k
  induction k generalizing s n with
  | zero =>
    intro _
    cases n with
    | zero => rfl
    | succ n =>
      simp only [decodeLoop]
      split
      · rfl
      · have hu : unreadBits s = [] := by rw [← List.length_eq_zero_iff, ← bitsLeft_eq, hk]
        rw [decodeStepBody, (unpackBit_none hu).1]; rfl
  | succ k ih =>
    intro hn
    cases n with
    | zero => omega
    | succ n =>
      simp only [decodeLoop]
      split
      · rfl
      · cases hb : decodeStepBody s with
        | raised e t => rfl
        | done a t =>
          rw [Run.bind_done, Run.bind_done]
          have := (decodeStepBody_done hb).1
          exact ih (by omega) (by omega)

/-- DecodeRun() as its own recursion (R245). -/
theorem decodeAll_eq (s : State) : decodeAll s = if s.blk.remaining = 0#32 then decodeFinishBody s
    else (decodeStepBody s).bind fun _ t => decodeAll t := by
  unfold decodeAll
  rw [← decodeLoop_mono (n := bitsLeft s + 1) (by omega)]
  simp only [decodeLoop]
  split
  · rfl
  · cases hb : decodeStepBody s with
    | raised e t => rfl
    | done a t =>
      rw [Run.bind_done, Run.bind_done]
      have := (decodeStepBody_done hb).1
      rw [decodeLoop_mono (by omega)]

/-- What a decode command may write. -/
def DecodeFrame (s t : State) : Prop :=
  t = { s with srcPos := t.srcPos, snk := t.snk, blk := { s.blk with
    unpkByte := t.blk.unpkByte, unpkCnt := t.blk.unpkCnt, payCount := t.blk.payCount
    outCount := t.blk.outCount, remaining := t.blk.remaining, cand := t.blk.cand } }

theorem DecodeFrame.trans {s t u : State} (h : DecodeFrame s t) (h' : DecodeFrame t u) : DecodeFrame s u := by
  unfold DecodeFrame at *; rw [h'] ; rw [h]

theorem UnpackFrame.decode {s t : State} (h : UnpackFrame s t) : DecodeFrame s t := by
  unfold UnpackFrame at h; unfold DecodeFrame; rw [h]

/-- Source position and PAY_COUNT move together, within the source. -/
def ReadOn (s t : State) : Prop :=
  s.srcPos ≤ t.srcPos ∧ t.blk.payCount = s.blk.payCount + BitVec.ofNat 32 (t.srcPos - s.srcPos) ∧ (PortInv s → PortInv t)

theorem ReadOn.refl (s : State) : ReadOn s s := ⟨le_refl _, by simp, id⟩

theorem ReadOn.trans {s t u : State} (h : ReadOn s t) (h' : ReadOn t u) : ReadOn s u := by
  obtain ⟨a, b, c⟩ := h
  obtain ⟨a', b', c'⟩ := h'
  refine ⟨le_trans a a', ?_, fun x => c' (c x)⟩
  rw [b', b, BitVec.add_assoc, ← BitVec.ofNat_add]
  congr 2; omega

theorem BitTaken.readOn {s t : State} {b : Bool} (h : BitTaken s t b) (hs : t.src = s.src) : ReadOn s t := by
  rcases h with ⟨_, _, h1, h2, _⟩ | ⟨_, x, hx, _, h1, h2, _⟩
  · refine ⟨by omega, by rw [h2, h1]; simp, fun h => ?_⟩
    unfold PortInv at *; rw [h1, hs]; exact h
  · refine ⟨by omega, by rw [h2, h1]; simp, fun h => ?_⟩
    have := (List.getElem?_eq_some_iff.1 hx).1
    unfold PortInv at *; rw [h1, hs]; omega

/-- Everything one decode step can do. -/
theorem decodeStepBody_cases (s : State) :
    (unreadBits s = [] ∧ decodeStepBody s = .raised .trailingOrMissingData s)
    ∨ ∃ b bs t, unreadBits s = b :: bs ∧ unreadBits t = bs ∧ UnpackFrame s t ∧ ReadOn s t
        ∧ decodeStepBody s = resolveCand (growCand b t)
        ∧ ((∃ e, matchCand { s.blk with cand := s.blk.cand ++ [b] } = some e
              ∧ decodeStepBody s = .done () (emitSymbol e.sym (growCand b t)))
          ∨ (matchCand { s.blk with cand := s.blk.cand ++ [b] } = none ∧ 255 < s.blk.cand.length + 1
              ∧ decodeStepBody s = .raised .corruptPayload (growCand b t))
          ∨ (matchCand { s.blk with cand := s.blk.cand ++ [b] } = none ∧ s.blk.cand.length + 1 ≤ 255
              ∧ s.blk.cand.length + 1 = s.blk.remaining.toNat
              ∧ decodeStepBody s = .raised .trailingOrMissingData (growCand b t))
          ∨ (matchCand { s.blk with cand := s.blk.cand ++ [b] } = none ∧ s.blk.cand.length + 1 ≤ 255
              ∧ s.blk.cand.length + 1 ≠ s.blk.remaining.toNat
              ∧ decodeStepBody s = .done () (growCand b t))) := by
  cases hu : unreadBits s with
  | nil => exact .inl ⟨rfl, by rw [decodeStepBody, (unpackBit_none hu).1]; rfl⟩
  | cons b bs =>
    obtain ⟨t, h1, h2, h3, h4⟩ := unpackBit_some hu
    have hx : decodeStepBody s = resolveCand (growCand b t) := by rw [decodeStepBody, h1, Run.bind_done]
    have hm : matchCand (growCand b t).blk = matchCand { s.blk with cand := s.blk.cand ++ [b] } := by
      rw [h4]; rfl
    have e3 : (growCand b t).blk.candLen = s.blk.cand.length + 1 := by rw [h4]; simp [growCand, Block.candLen, State.withBlk]
    have e4 : (growCand b t).blk.remaining = s.blk.remaining := by rw [h4]; rfl
    refine .inr ⟨b, bs, t, rfl, h3, h4, h2.readOn (by rw [h4]), hx, ?_⟩
    rw [hx, resolveCand, hm, e3, e4]
    cases matchCand { s.blk with cand := s.blk.cand ++ [b] } with
    | some e => exact .inl ⟨e, rfl, rfl⟩
    | none =>
      by_cases h5 : 255 < s.blk.cand.length + 1
      · exact .inr (.inl ⟨rfl, h5, by simp only [if_pos h5, gt_iff_lt]⟩)
      · by_cases h6 : s.blk.cand.length + 1 = s.blk.remaining.toNat
        · exact .inr (.inr (.inl ⟨rfl, by omega, h6, by simp only [if_neg h5, gt_iff_lt, if_pos h6]⟩))
        · exact .inr (.inr (.inr ⟨rfl, by omega, h6, by simp only [if_neg h5, gt_iff_lt, if_neg h6]⟩))

theorem decodeStepBody_frame {s t : State} : (decodeStepBody s = .done () t ∨ ∃ e, decodeStepBody s = .raised e t) →
    DecodeFrame s t := by
  intro h
  rcases decodeStepBody_cases s with ⟨_, h1⟩ | ⟨b, bs, t', _, _, hf, _, _, h1⟩
  · rcases h with h | ⟨e, h⟩
    · rw [h1] at h; cases h
    · rw [h1] at h; cases h; rfl
  · have : ∃ x, (t = emitSymbol x (growCand b t')) ∨ t = growCand b t' := by
      rcases h1 with ⟨e, _, h1⟩ | ⟨_, _, h1⟩ | ⟨_, _, _, h1⟩ | ⟨_, _, _, h1⟩ <;> rcases h with h | ⟨e', h⟩ <;> rw [h1] at h <;> cases h
      · exact ⟨_, .inl rfl⟩
      · exact ⟨0, .inr rfl⟩
      · exact ⟨0, .inr rfl⟩
      · exact ⟨0, .inr rfl⟩
    unfold UnpackFrame at hf
    obtain ⟨x, h | h⟩ := this
    · rw [h]; unfold DecodeFrame; rw [hf]; rfl
    · rw [h]; unfold DecodeFrame; rw [hf]; rfl

theorem decodeState_failed {b : Block} (h : b.errCode ≠ 0#4) : decodeState b = some .failed := by
  simp [decodeState, h]

/-- A decode in progress: no error, READY, and fewer bits in the candidate than are owed. -/
structure Going (s : State) : Prop where
  err : s.blk.errCode = 0#4
  phase : s.blk.phase = .ready
  owed : s.blk.cand.length < s.blk.remaining.toNat ∨ (s.blk.remaining = 0#32 ∧ s.blk.cand = [])
  short : s.blk.cand.length ≤ 255

theorem going_of_decoderInv {s : State} (h0 : s.blk.errCode = 0#4) (hp : s.blk.phase = .ready) (h : DecoderInv s.blk) : Going s := by
  refine ⟨h0, hp, ?_, ?_⟩
  · rcases h.running h0 with h1 | h1
    · exact .inl h1
    · have := h.bounded; rw [h1] at this
      exact .inr ⟨h1, List.length_eq_zero_iff.1 (by simpa using this)⟩
  · have := h.corrupt.1
    have h2 : s.blk.cand.length ≠ 256 := by
      intro h3; have := h.corrupt.2.1 h3; rw [h0] at this; cases this
    omega

theorem matchCand_mem {b : Block} {e : Entry} (h : matchCand b = some e) : ∃ i : Fin 256, i.val < b.entN.val ∧ b.ent[i] = e ∧ e.code = b.cand := by
  rw [matchCand_eq] at h
  have h1 := List.mem_of_find?_eq_some h
  have h2 := List.find?_some h
  obtain ⟨i, hi, rfl⟩ := List.getElem_of_mem h1
  have hl := entries_length b
  refine ⟨⟨i, by omega⟩, by simp; omega, ?_, by simpa using h2⟩
  rw [entries_getElem]; rfl

/-- A step that goes on emits at most one symbol of the table. -/
theorem decodeStepBody_going {s t : State} (hg : Going s) (hr : s.blk.remaining ≠ 0#32) (h : decodeStepBody s = .done () t) :
    Going t ∧ DecodeFrame s t ∧ ReadOn s t ∧ ∃ out, t.snk = s.snk ++ out ∧ t.blk.outCount = s.blk.outCount + BitVec.ofNat 32 out.length
      ∧ (∀ x ∈ out, ∃ i : Fin 256, i.val < s.blk.entN.val ∧ s.blk.ent[i].sym = x) ∧ t.blk.remaining.toNat ≤ s.blk.remaining.toNat := by
  have howed : s.blk.cand.length < s.blk.remaining.toNat := by
    rcases hg.owed with h | h
    · exact h
    · exact absurd h.1 hr
  have hff := decodeStepBody_frame (.inl h)
  have hlt := s.blk.remaining.isLt
  rcases decodeStepBody_cases s with ⟨_, h1⟩ | ⟨b, bs, t', _, _, hf, hro, _, h1⟩
  · rw [h1] at h; cases h
  · rcases h1 with ⟨e, hm, h1⟩ | ⟨_, _, h1⟩ | ⟨_, _, _, h1⟩ | ⟨hm, hl, hne, h1⟩ <;> rw [h1] at h <;> cases h
    · obtain ⟨i, hi, he, hc⟩ := matchCand_mem hm
      have hrem : (emitSymbol e.sym (growCand b t')).blk.remaining.toNat = s.blk.remaining.toNat - (s.blk.cand.length + 1) := by
        have : (emitSymbol e.sym (growCand b t')).blk.remaining = s.blk.remaining - BitVec.ofNat 32 (s.blk.cand.length + 1) := by
          rw [hf]; simp [emitSymbol, growCand, State.withBlk, Block.candLen]
        rw [this, BitVec.toNat_sub_of_le]
        · simp only [BitVec.toNat_ofNat]; rw [Nat.mod_eq_of_lt]; omega
        · rw [BitVec.le_def]; simp only [BitVec.toNat_ofNat]; rw [Nat.mod_eq_of_lt]; omega
          omega
      refine ⟨⟨by rw [hff]; exact hg.err, by rw [hff]; exact hg.phase, ?_, by simp [emitSymbol]⟩, hff, hro, [e.sym], ?_, ?_, ?_, by omega⟩
      · have hc0 : (emitSymbol e.sym (growCand b t')).blk.cand = [] := rfl
        rw [hc0, hrem]
        by_cases hz : s.blk.remaining.toNat - (s.blk.cand.length + 1) = 0
        · refine .inr ⟨BitVec.eq_of_toNat_eq ?_, rfl⟩
          rw [hrem, hz]; rfl
        · exact .inl (by simp; omega)
      · rw [hf]; rfl
      · rw [hf]; rfl
      · intro x hx
        simp only [List.mem_cons, List.not_mem_nil, or_false] at hx
        exact ⟨i, hi, by rw [hx, ← he]⟩
    · have e1 : (growCand b t').blk.cand = s.blk.cand ++ [b] := by rw [hf]; rfl
      have e2 : (growCand b t').blk.remaining = s.blk.remaining := by rw [hf]; rfl
      refine ⟨⟨by rw [hff]; exact hg.err, by rw [hff]; exact hg.phase, ?_, ?_⟩, hff, hro, [], ?_, ?_, ?_, ?_⟩
      · rw [e1, e2, List.length_append]; simp; omega
      · rw [e1, List.length_append]; simp; omega
      · rw [hf]; simp [growCand, State.withBlk]
      · rw [hf]; simp [growCand, State.withBlk]
      · simp
      · rw [e2]

/-- In a prefix-free table a code is matched exactly when it is complete. -/
theorem matchCand_prefixFree {b : Block} (hpf : PrefixFree b) {i : Fin 256} (hi : i.val < b.entN.val) {c : Bits} :
    (c = b.ent[i].code → matchCand { b with cand := c } = some b.ent[i])
    ∧ (c <+: b.ent[i].code → c ≠ b.ent[i].code → matchCand { b with cand := c } = none) := by
  constructor
  · intro hc
    apply matchCand_first
    refine ⟨hi, hc.symm, ?_⟩
    intro j hj hc'
    have hj' : j.val < b.entN.val := by have : j.val < i.val := hj; omega
    apply hpf j i hj' hi (by intro h; subst h; exact absurd hj (lt_irrefl _))
    have : b.ent[j].code = c := hc'
    rw [this, hc]
  · intro h1 h2
    apply matchCand_none
    intro j hj hc'
    have hc'' : b.ent[j].code = c := hc'
    by_cases hij : j = i
    · subst hij; exact h2 hc''.symm
    · exact hpf j i hj hi hij (by rw [hc'']; exact h1)

/-- Emitting one symbol. -/
def Emitted (s t : State) (e : Entry) : Prop :=
  t = { s with srcPos := t.srcPos, snk := s.snk ++ [e.sym], blk := { s.blk with
    unpkByte := t.blk.unpkByte, unpkCnt := t.blk.unpkCnt, payCount := t.blk.payCount
    outCount := s.blk.outCount + 1#32, remaining := s.blk.remaining - BitVec.ofNat 32 e.len, cand := [] } }

theorem Emitted.exists {s t : State} {e : Entry} (h : Emitted s t e) : ∃ p x c q, t = { s with srcPos := p, snk := s.snk ++ [e.sym], blk := { s.blk with
        unpkByte := x, unpkCnt := c, payCount := q, outCount := s.blk.outCount + 1#32
        remaining := s.blk.remaining - BitVec.ofNat 32 e.len, cand := [] } } := ⟨_, _, _, _, h⟩

theorem UnpackFrame.exists {s t : State} (h : UnpackFrame s t) : ∃ p x c q, t = { s with srcPos := p, blk := { s.blk with unpkByte := x, unpkCnt := c, payCount := q } } := ⟨_, _, _, _, h⟩

/-- What the codes of a payload leave, before the final check. -/
def Drained (s t : State) (out : List Byte) : Prop :=
        t = { s with
          srcPos := t.srcPos
          snk := s.snk ++ out
          blk := { s.blk with
            unpkByte := t.blk.unpkByte
            unpkCnt := t.blk.unpkCnt
            payCount := t.blk.payCount
            outCount := s.blk.outCount + BitVec.ofNat 32 out.length
            remaining := 0#32
            cand := [] } }

theorem Drained.exists {s t : State} {out : List Byte} (h : Drained s t out) : ∃ p x c q, t = { s with srcPos := p, snk := s.snk ++ out, blk := { s.blk with
        unpkByte := x, unpkCnt := c, payCount := q, outCount := s.blk.outCount + BitVec.ofNat 32 out.length, remaining := 0#32, cand := [] } } := ⟨_, _, _, _, h⟩

/-- DecodeRun() over the bits of one code of a prefix-free table emits its symbol (R245). -/
theorem decodeAll_code {i : Fin 256} (r : Bits) : ∀ (s : State) (pre more : Bits), s.blk.cand = pre → PrefixFree s.blk → i.val < s.blk.entN.val →
    s.blk.ent[i].code = pre ++ r → r ≠ [] → s.blk.ent[i].len ≤ 255 → s.blk.ent[i].len ≤ s.blk.remaining.toNat →
    unreadBits s = r ++ more →
    ∃ t, decodeAll s = decodeAll t ∧ unreadBits t = more ∧ ReadOn s t ∧ Emitted s t s.blk.ent[i] := by
  induction r with
  | nil => intro s pre more _ _ _ _ h; exact absurd rfl h
  | cons b r ih =>
    intro s pre more hcand hpf hi hcode _ hl hrem hu
    have hlen : s.blk.ent[i].len = pre.length + (r.length + 1) := by rw [Entry.len, hcode]; simp
    have hr : s.blk.remaining ≠ 0#32 := by
      intro h; have hz : s.blk.remaining.toNat = 0 := by rw [h]; rfl
      omega
    rw [decodeAll_eq, if_neg hr]
    rcases decodeStepBody_cases s with ⟨h1, _⟩ | ⟨b', bs, t', hu', ht', hf, hro, _, h1⟩
    · rw [h1] at hu; cases hu
    rw [hu] at hu'
    simp only [List.cons_append, List.cons.injEq] at hu'
    obtain ⟨rfl, rfl⟩ := hu'
    cases r with
    | nil =>
      have hm := (matchCand_prefixFree hpf hi (c := s.blk.cand ++ [b])).1 (by rw [hcode, hcand])
      rcases h1 with ⟨e, hm', h1⟩ | ⟨hm', _, _⟩ | ⟨hm', _⟩ | ⟨hm', _⟩
      · rw [hm] at hm'; cases hm'
        refine ⟨emitSymbol s.blk.ent[i].sym (growCand b t'), by rw [h1, Run.bind_done], ht', hro, ?_⟩
        obtain ⟨p, x, c, q, rfl⟩ := UnpackFrame.exists hf
        have hcl : s.blk.cand.length = pre.length := by rw [hcand]
        have hl2 : (growCand b { s with srcPos := p, blk := { s.blk with unpkByte := x, unpkCnt := c, payCount := q } }).blk.candLen = s.blk.ent[i].len := by
          rw [hlen]; show (s.blk.cand ++ [b]).length = _; rw [List.length_append, hcl]; rfl
        unfold Emitted
        conv_lhs => unfold emitSymbol
        rw [hl2]; rfl
      all_goals rw [hm] at hm'; cases hm'
    | cons b2 r =>
      have hm := (matchCand_prefixFree hpf hi (c := s.blk.cand ++ [b])).2 (by rw [hcode, hcand]; exact ⟨b2 :: r, by simp⟩)
        (by rw [hcode, hcand]; simp)
      have hcl : s.blk.cand.length = pre.length := by rw [hcand]
      simp only [List.length_cons] at hlen
      rcases h1 with ⟨e, hm', h1⟩ | ⟨hm', h2, _⟩ | ⟨hm', _, h2, _⟩ | ⟨hm', _, _, h1⟩
      · rw [hm] at hm'; cases hm'
      · omega
      · omega
      · rw [h1, Run.bind_done]
        have e0 : (growCand b t').blk = { s.blk with unpkByte := t'.blk.unpkByte, unpkCnt := t'.blk.unpkCnt, payCount := t'.blk.payCount, cand := s.blk.cand ++ [b] } := by
          rw [hf]; rfl
        obtain ⟨t, g1, g2, g3, g4⟩ := ih (growCand b t') (pre ++ [b]) more (by rw [e0, hcand]) (by rw [e0]; exact hpf) (by rw [e0]; exact hi)
          (by rw [e0]; simpa using hcode) (by simp) (by rw [e0]; exact hl) (by rw [e0]; exact hrem) ht'
        refine ⟨t, g1, g2, ReadOn.trans (t := growCand b t') hro g3, ?_⟩
        unfold Emitted at g4 ⊢
        obtain ⟨p, x, c, q, rfl⟩ := UnpackFrame.exists hf
        rw [g4]; rfl

end Sys2Proof.Machine
end

