-- ==== Sys2Proof/Laws/Encoding.lean ====
section
/-! SUPPORT. The fields of a command word and the checks on it (spec/30_encoding.md R100 to R104). -/

namespace Sys2Proof.Machine

open Sys2Proof

theorem getLsbD_packWord (n : BitVec 4) (d c : Byte) (i : Nat) : (packWord n d c).getLsbD i =
    if i < 8 then c.getLsbD i else if i < 16 then d.getLsbD (i - 8) else if i < 20 then n.getLsbD (i - 16) else false := by
  have h : (packWord n d c).getLsbD i = BitVec.getLsbD (w := 12 + 4 + 8 + 8) (((0#12 ++ n) ++ d) ++ c) i := rfl
  rw [h, BitVec.getLsbD_append, BitVec.getLsbD_append, BitVec.getLsbD_append]
  by_cases h1 : i < 8
  · simp [h1]
  · by_cases h2 : i < 16
    · have : i - 8 < 8 := by omega
      simp [h1, h2, this]
    · by_cases h3 : i < 20
      · have h4 : ¬ i - 8 < 8 := by omega
        have h5 : i - 8 - 8 < 4 := by omega
        have h6 : i - 8 - 8 = i - 16 := by omega
        have h7 : i - 16 < 4 := by omega
        simp [h1, h2, h3, h4, h6, h7]
      · have h4 : ¬ i - 8 < 8 := by omega
        have h5 : ¬ i - 8 - 8 < 4 := by omega
        simp [h1, h2, h3, h4, h5]

theorem opcField_packWord (n : BitVec 4) (d c : Byte) : opcField (packWord n d c) = c := by
  apply BitVec.eq_of_getLsbD_eq; intro i hi
  simp [opcField, getLsbD_packWord, hi]

theorem symField_packWord (n : BitVec 4) (d c : Byte) : symField (packWord n d c) = d := by
  apply BitVec.eq_of_getLsbD_eq; intro i hi
  have h1 : ¬ 8 + i < 8 := by omega
  have h2 : 8 + i < 16 := by omega
  simp [symField, getLsbD_packWord, hi, h1, h2]

theorem nbitsField_packWord (n : BitVec 4) (d c : Byte) : nbitsField (packWord n d c) = n := by
  apply BitVec.eq_of_getLsbD_eq; intro i hi
  have h1 : ¬ 16 + i < 8 := by omega
  have h2 : ¬ 16 + i < 16 := by omega
  have h3 : 16 + i < 20 := by omega
  simp [nbitsField, getLsbD_packWord, hi, h1, h2, h3]

theorem rsvField_packWord (n : BitVec 4) (d c : Byte) : rsvField (packWord n d c) = 0#12 := by
  apply BitVec.eq_of_getLsbD_eq; intro i hi
  have h1 : ¬ 20 + i < 8 := by omega
  have h2 : ¬ 20 + i < 16 := by omega
  have h3 : ¬ 20 + i < 20 := by omega
  simp [rsvField, getLsbD_packWord, h1, h2, h3]

/-- A word with RSV = 0 is made of its fields (R100). -/
theorem packWord_fields (w : Word) (h : rsvField w = 0#12) :
    packWord (nbitsField w) (symField w) (opcField w) = w := by
  apply BitVec.eq_of_getLsbD_eq; intro i hi
  have hr : ∀ j, j < 12 → w.getLsbD (20 + j) = false := by
    intro j hj
    have := congrArg (fun x => x.getLsbD j) h
    simpa [rsvField, hj] using this
  rw [getLsbD_packWord]
  simp only [opcField, symField, nbitsField, BitVec.getLsbD_extractLsb']
  split
  · simp [*]
  · split
    · rw [show 8 + (i - 8) = i by omega]; simp; omega
    · split
      · rw [show 16 + (i - 16) = i by omega]; simp; omega
      · have := hr (i - 20) (by omega)
        rw [show 20 + (i - 20) = i by omega] at this
        exact this.symm

/-- The block's step on a word that is no legal command (R306). -/
theorem blockStep_illegal {s : State} {r} (h0 : s.blk.errCode = 0#4) (hd : decode s.blk.pending = .error r) :
    blockStep s = .next (withError 5#4 s) := by
  simp [blockStep, hd, illegalWord, h0]; rfl

/-- The data-bit check of PUSH_BITS, bit by bit (R104). -/
theorem dataBitsOk_iff (n : BitVec 4) (d : Byte) : dataBitsOk n d = true ↔ ∀ k, n.toNat ≤ k → k < 8 → d.getLsbD k = false := by
  unfold dataBitsOk
  rw [beq_iff_eq]
  constructor
  · intro h k h1 h2
    have := congrArg (fun x => x.getLsbD (k - n.toNat)) h
    simpa [h1] using this
  · intro h
    apply BitVec.eq_of_getLsbD_eq; intro i hi
    simp
    by_cases h2 : n.toNat + i < 8
    · exact h _ (by omega) h2
    · exact BitVec.getLsbD_of_ge _ _ (by omega)

theorem bits24_of_fields (w : Word) (h1 : symField w = 0#8) (h2 : nbitsField w = 0#4) (h3 : rsvField w = 0#12) : w.extractLsb' 8 24 = 0#24 := by
  have := packWord_fields w h3
  rw [← this, h1, h2]
  apply BitVec.eq_of_getLsbD_eq; intro i hi
  have h1 : ¬ 8 + i < 8 := by omega
  simp [getLsbD_packWord, h1]

theorem bits16_of_fields (w : Word) (h2 : nbitsField w = 0#4) (h3 : rsvField w = 0#12) : w.extractLsb' 16 16 = 0#16 := by
  have := packWord_fields w h3
  rw [← this, h2]
  apply BitVec.eq_of_getLsbD_eq; intro i hi
  have h1 : ¬ (16 + i < 8) := by omega
  have h2 : ¬ (16 + i < 16) := by omega
  simp [getLsbD_packWord, h1, h2]

end Sys2Proof.Machine
end

