-- ==== Sys2Proof/Laws/Frames.lean ====
section
/-! SUPPORT. What each command may write: one frame for each shape of command. -/

namespace Sys2Proof.Machine

open Sys2Proof

/-- Only the source position, FREQ and IN_COUNT may differ. -/
def CountFrame (s u : State) : Prop :=
  u = { s with srcPos := u.srcPos, blk := { s.blk with freq := u.blk.freq, inCount := u.blk.inCount } }

/-- Only the source position and HDR_COUNT may differ. -/
def HdrReadFrame (s u : State) : Prop :=
  u = { s with srcPos := u.srcPos, blk := { s.blk with hdrCount := u.blk.hdrCount } }

/-- Only the source position, HDR_COUNT, the table and the header counts may differ. -/
def TableReadFrame (s u : State) : Prop :=
  u = { s with srcPos := u.srcPos, blk := { s.blk with hdrCount := u.blk.hdrCount, ent := u.blk.ent, entN := u.blk.entN, totalBits := u.blk.totalBits, symCount := u.blk.symCount } }

/-- Only the source position, HDR_COUNT and the table may differ. -/
def EntFrame (s u : State) : Prop :=
  u = { s with srcPos := u.srcPos, blk := { s.blk with hdrCount := u.blk.hdrCount, ent := u.blk.ent, entN := u.blk.entN } }

theorem EntFrame.trans {s t u : State} (h : EntFrame s t) (h' : EntFrame t u) : EntFrame s u := by
  unfold EntFrame at *; rw [h'] ; rw [h]

theorem EntFrame.table {s t : State} (h : EntFrame s t) : TableReadFrame s t := by
  unfold EntFrame at h; unfold TableReadFrame; rw [h]

theorem HdrReadFrame.ent {s t : State} (h : HdrReadFrame s t) : EntFrame s t := by
  unfold HdrReadFrame at h; unfold EntFrame; rw [h]

/-- Only the streams, the packer and PAY_COUNT may differ. -/
def PackFrame (s u : State) : Prop :=
  u = { s with srcPos := u.srcPos, snk := u.snk, blk := { s.blk with pkAcc := u.blk.pkAcc, pkCnt := u.blk.pkCnt, payCount := u.blk.payCount } }

theorem CountFrame.trans {s t u : State} (h : CountFrame s t) (h' : CountFrame t u) : CountFrame s u := by
  unfold CountFrame at *; rw [h'] ; rw [h]

theorem HdrReadFrame.trans {s t u : State} (h : HdrReadFrame s t) (h' : HdrReadFrame t u) : HdrReadFrame s u := by
  unfold HdrReadFrame at *; rw [h'] ; rw [h]

theorem TableReadFrame.trans {s t u : State} (h : TableReadFrame s t) (h' : TableReadFrame t u) : TableReadFrame s u := by
  unfold TableReadFrame at *; rw [h'] ; rw [h]

theorem PackFrame.trans {s t u : State} (h : PackFrame s t) (h' : PackFrame t u) : PackFrame s u := by
  unfold PackFrame at *; rw [h'] ; rw [h]

theorem HdrReadFrame.table {s t : State} (h : HdrReadFrame s t) : TableReadFrame s t := by
  unfold HdrReadFrame at h; unfold TableReadFrame; rw [h]

theorem countSymbol_state (b : Byte) (s : State) : CountFrame s (countSymbol b s).state ∧ Onward s (countSymbol b s).state := by
  unfold countSymbol
  split
  · exact ⟨rfl, Onward.refl s⟩
  · exact ⟨rfl, le_refl _, id, [], by simp [Run.state]⟩

theorem Run.state_bind {α β : Type} (r : Run α) (f : α → State → Run β) : (∃ a u, r = .done a u ∧ (r.bind f).state = (f a u).state) ∨ (∃ e u, r = .raised e u ∧ r.bind f = .raised e u ∧ (r.bind f).state = r.state) := by
  cases r with
  | done a u => exact .inl ⟨a, u, rfl, rfl⟩
  | raised e u => exact .inr ⟨e, u, rfl, rfl, rfl⟩

theorem countLoop_state (n : Nat) : ∀ s : State, CountFrame s (countLoop n s).state ∧ Onward s (countLoop n s).state := by
  induction n with
  | zero => intro s; exact ⟨rfl, Onward.refl s⟩
  | succ n ih =>
    intro s
    simp only [countLoop]
    cases h : srcRead s with
    | none => exact ⟨rfl, Onward.refl s⟩
    | some p =>
      obtain ⟨b, s'⟩ := p
      obtain ⟨h1, h2⟩ := srcRead_onward h
      have h3 := countSymbol_state b s'
      have hf : CountFrame s s' := by rw [h1]; rfl
      simp only
      cases hc : countSymbol b s' with
      | done a u =>
        rw [hc] at h3
        exact ⟨(hf.trans h3.1).trans (ih u).1, (h2.trans h3.2).trans (ih u).2⟩
      | raised e u => rw [hc] at h3; exact ⟨hf.trans h3.1, h2.trans h3.2⟩

/-- The state a run of two parts reaches is in any transitive relation its parts are in. -/
theorem Run.rel_bind {α β : Type} {R : State → State → Prop} (tr : ∀ {a b c}, R a b → R b c → R a c) {s : State} {r : Run α} {f : α → State → Run β}
    (h1 : R s r.state) (h2 : ∀ a u, r = .done a u → R u (f a u).state) : R s (r.bind f).state := by
  cases r with
  | done a u => exact tr h1 (h2 a u rfl)
  | raised e u => exact h1

/-- What reading header bytes does. -/
def HdrRel (s u : State) : Prop := HdrReadFrame s u ∧ Onward s u

theorem HdrRel.trans {s t u : State} (h : HdrRel s t) (h' : HdrRel t u) : HdrRel s u := ⟨h.1.trans h'.1, h.2.trans h'.2⟩

/-- What reading a table does. -/
def TableRel (s u : State) : Prop := TableReadFrame s u ∧ Onward s u

theorem TableRel.trans {s t u : State} (h : TableRel s t) (h' : TableRel t u) : TableRel s u := ⟨h.1.trans h'.1, h.2.trans h'.2⟩

theorem HdrRel.table {s u : State} (h : HdrRel s u) : TableRel s u := ⟨h.1.table, h.2⟩

theorem readHdrByte_state (s : State) : HdrRel s (readHdrByte s).state := by
  unfold readHdrByte
  cases h : srcRead s with
  | none => exact ⟨rfl, Onward.refl s⟩
  | some p =>
    obtain ⟨b, s'⟩ := p
    obtain ⟨h1, h2⟩ := srcRead_onward h
    simp only [Run.state]
    subst h1
    exact ⟨rfl, h2⟩

theorem readHdrBytes_state (n : Nat) : ∀ s : State, HdrRel s (readHdrBytes n s).state := by
  induction n with
  | zero => intro s; exact ⟨rfl, Onward.refl s⟩
  | succ n ih =>
    intro s; simp only [readHdrBytes]
    refine Run.rel_bind (R := HdrRel) HdrRel.trans (readHdrByte_state s) fun a u _ => ?_
    refine Run.rel_bind (R := HdrRel) HdrRel.trans (ih u) fun a u _ => ⟨rfl, Onward.refl u⟩

theorem getU32_state (s : State) : HdrRel s (getU32 s).state := by
  unfold getU32
  refine Run.rel_bind (R := HdrRel) HdrRel.trans (readHdrByte_state s) fun a u _ => ?_
  refine Run.rel_bind (R := HdrRel) HdrRel.trans (readHdrByte_state u) fun a u _ => ?_
  refine Run.rel_bind (R := HdrRel) HdrRel.trans (readHdrByte_state u) fun a u _ => ?_
  refine Run.rel_bind (R := HdrRel) HdrRel.trans (readHdrByte_state u) fun a u _ => ?_
  exact ⟨rfl, Onward.refl u⟩

theorem readEntry_state (s : State) : HdrRel s (readEntry s).state := by
  unfold readEntry
  refine Run.rel_bind (R := HdrRel) HdrRel.trans (readHdrByte_state s) fun a u _ => ?_
  refine Run.rel_bind (R := HdrRel) HdrRel.trans (readHdrByte_state u) fun a u _ => ?_
  refine Run.rel_bind (R := HdrRel) HdrRel.trans (readHdrBytes_state _ u) fun a u _ => ?_
  exact ⟨rfl, Onward.refl u⟩

/-- What reading entries does. -/
def EntRel (s u : State) : Prop := EntFrame s u ∧ Onward s u

theorem EntRel.trans {s t u : State} (h : EntRel s t) (h' : EntRel t u) : EntRel s u := ⟨h.1.trans h'.1, h.2.trans h'.2⟩

theorem EntRel.table {s u : State} (h : EntRel s u) : TableRel s u := ⟨h.1.table, h.2⟩

theorem HdrRel.ent {s u : State} (h : HdrRel s u) : EntRel s u := ⟨h.1.ent, h.2⟩

theorem readEntries_state (n : Nat) : ∀ i (s : State), EntRel s (readEntries n i s).state := by
  induction n with
  | zero => intro i s; exact ⟨rfl, Onward.refl s⟩
  | succ n ih =>
    intro i s; simp only [readEntries]
    refine Run.rel_bind (R := EntRel) EntRel.trans (readEntry_state s).ent fun a u _ => ?_
    have h : EntRel u (storeEntry i a u) := ⟨rfl, le_refl _, id, [], by simp⟩
    exact h.trans (ih _ _)

/-- The errors DESERIALIZE raises. -/
def HdrErr (e : ErrKind) : Prop := e = .truncatedHeader ∨ e = .headerRange

theorem readHdrByte_err {s t : State} {e : ErrKind} (h : readHdrByte s = .raised e t) : HdrErr e := by
  unfold readHdrByte at h
  cases h' : srcRead s with
  | none => rw [h'] at h; cases h; exact .inl rfl
  | some p => rw [h'] at h; cases h

theorem readHdrBytes_err (n : Nat) : ∀ {s t : State} {e : ErrKind}, readHdrBytes n s = .raised e t → HdrErr e := by
  induction n with
  | zero => intro s t e h; cases h
  | succ n ih =>
    intro s t e h
    simp only [readHdrBytes, Run.bind_eq_raised] at h
    rcases h with h | ⟨_, _, _, h | ⟨_, _, _, h⟩⟩
    · exact readHdrByte_err h
    · exact ih h
    · cases h

theorem getU32_err {s t : State} {e : ErrKind} (h : getU32 s = .raised e t) : HdrErr e := by
  simp only [getU32, Run.bind_eq_raised] at h
  rcases h with h | ⟨_, _, _, h | ⟨_, _, _, h | ⟨_, _, _, h | ⟨_, _, _, h⟩⟩⟩⟩
  · exact readHdrByte_err h
  · exact readHdrByte_err h
  · exact readHdrByte_err h
  · exact readHdrByte_err h
  · cases h

theorem readEntry_err {s t : State} {e : ErrKind} (h : readEntry s = .raised e t) : HdrErr e := by
  simp only [readEntry, Run.bind_eq_raised] at h
  rcases h with h | ⟨_, _, _, h | ⟨_, _, _, h | ⟨_, _, _, h⟩⟩⟩
  · exact readHdrByte_err h
  · exact readHdrByte_err h
  · exact readHdrBytes_err _ h
  · cases h

theorem readEntries_err (n : Nat) : ∀ {i} {s t : State} {e : ErrKind}, readEntries n i s = .raised e t → HdrErr e := by
  induction n with
  | zero => intro i s t e h; cases h
  | succ n ih =>
    intro i s t e h
    simp only [readEntries, Run.bind_eq_raised] at h
    rcases h with h | ⟨_, _, _, h⟩
    · exact readEntry_err h
    · exact ih h

/-- How DESERIALIZE ends. -/
def DesRel (s : State) (r : Run Unit) : Prop :=
  (∃ e u, r = .raised e u ∧ HdrErr e ∧ TableRel s u)
  ∨ ∃ t c v u, TableRel s v ∧ v.blk.ent = s.blk.ent ∧ v.blk.totalBits = t ∧ v.blk.symCount = c ∧ headerOutOfRange t c = false
      ∧ readEntries c.toNat 0 (clearTable v) = .done () u ∧ EntRel (clearTable v) u ∧ r = .done () (armDecoder t u)

/-- Everything DESERIALIZE can do. -/
theorem deserialize_rel (s : State) : DesRel s (deserialize s) := by
  unfold deserialize
  have g1 := getU32_state s
  cases h1 : getU32 s with
  | raised e u => rw [h1] at g1; exact .inl ⟨e, u, rfl, getU32_err h1, g1.table⟩
  | done t u =>
    rw [h1] at g1
    rw [Run.bind_done]
    have g2 := getU32_state (setTotalBits t u)
    have k1 : TableRel s (setTotalBits t u) := g1.table.trans ⟨rfl, le_refl _, id, [], by simp [Run.state]⟩
    cases h2 : getU32 (setTotalBits t u) with
    | raised e v => rw [h2] at g2; exact .inl ⟨e, v, rfl, getU32_err h2, k1.trans g2.table⟩
    | done c v =>
      rw [h2] at g2
      rw [Run.bind_done]
      have k2 : TableRel s (setSymCount c v) := (k1.trans g2.table).trans ⟨rfl, le_refl _, id, [], by simp [Run.state]⟩
      unfold readTable
      by_cases hr : headerOutOfRange t c = true
      · rw [if_pos hr]; exact .inl ⟨_, _, rfl, .inr rfl, k2⟩
      · rw [if_neg hr]
        have g3 := readEntries_state c.toNat 0 (clearTable (setSymCount c v))
        cases h3 : readEntries c.toNat 0 (clearTable (setSymCount c v)) with
        | raised e w =>
          rw [h3] at g3
          refine .inl ⟨e, w, rfl, readEntries_err _ h3, (k2.trans ?_).trans g3.table⟩
          exact ⟨rfl, le_refl _, id, [], by simp⟩
        | done a w =>
          rw [h3] at g3
          refine .inr ⟨t, c, setSymCount c v, w, k2, ?_, ?_, rfl, by simpa using hr, h3, g3, rfl⟩
          · have a1 := g1.1; have a2 := g2.1; unfold HdrReadFrame at a1 a2
            have b2 : v.blk.ent = u.blk.ent := congrArg (fun x => x.blk.ent) a2
            have b1 : u.blk.ent = s.blk.ent := congrArg (fun x => x.blk.ent) a1
            exact b2.trans b1
          · have a2 := g2.1; unfold HdrReadFrame at a2
            exact congrArg (fun x => x.blk.totalBits) a2

/-- What packing does. -/
def PackRel (s u : State) : Prop := PackFrame s u ∧ Onward s u

theorem PackRel.refl (s : State) : PackRel s s := ⟨rfl, Onward.refl s⟩

theorem PackRel.trans {s t u : State} (h : PackRel s t) (h' : PackRel t u) : PackRel s u := ⟨h.1.trans h'.1, h.2.trans h'.2⟩

theorem emitPacked_state (a : Byte) (s : State) : PackRel s (emitPacked a s) := ⟨rfl, le_refl _, id, [a], rfl⟩

theorem pushBit_state (b : Bool) (s : State) : PackRel s (pushBit b s) := by
  unfold pushBit
  split
  · exact emitPacked_state _ s
  · exact ⟨rfl, le_refl _, id, [], by simp⟩

theorem pushAll_state (x : Bits) : ∀ s : State, PackRel s (pushAll x s) := by
  induction x with
  | nil => exact PackRel.refl
  | cons b x ih => intro s; exact (pushBit_state b s).trans (ih _)

theorem flushPacker_state (s : State) : PackRel s (flushPacker s) := by
  unfold flushPacker
  split
  · exact emitPacked_state _ s
  · exact PackRel.refl s

theorem pushSymbol_state (c : Byte) (s : State) : PackRel s (pushSymbol c s).state := by
  unfold pushSymbol
  cases findSym c s.blk with
  | none => exact PackRel.refl s
  | some e => exact pushAll_state _ s

theorem encodeLoop_state (n : Nat) : ∀ s : State, PackRel s (encodeLoop n s).state := by
  induction n with
  | zero => exact PackRel.refl
  | succ n ih =>
    intro s; simp only [encodeLoop]
    cases h : srcRead s with
    | none => exact PackRel.refl s
    | some p =>
      obtain ⟨b, s'⟩ := p
      obtain ⟨h1, h2⟩ := srcRead_onward h
      have hf : PackRel s s' := ⟨by rw [h1]; rfl, h2⟩
      exact Run.rel_bind (R := PackRel) PackRel.trans (hf.trans (pushSymbol_state b s')) fun a u _ => ih u

theorem encodeSource_state (s : State) : PackRel s (encodeSource s).state := by
  unfold encodeSource
  exact Run.rel_bind (R := PackRel) PackRel.trans (encodeLoop_state _ s) fun a u _ => flushPacker_state u

/-- What a decode command may write, and how the streams move. -/
def DecRel (s u : State) : Prop := DecodeFrame s u ∧ Onward s u

theorem DecRel.refl (s : State) : DecRel s s := ⟨rfl, Onward.refl s⟩

theorem DecRel.trans {s t u : State} (h : DecRel s t) (h' : DecRel t u) : DecRel s u := ⟨h.1.trans h'.1, h.2.trans h'.2⟩

theorem unpackBit_state (s : State) : DecRel s (unpackBit s).state := by
  unfold unpackBit
  split
  · cases h : srcRead s with
    | none => exact DecRel.refl s
    | some p =>
      obtain ⟨b, s'⟩ := p
      obtain ⟨h1, h2⟩ := srcRead_onward h
      subst h1
      exact ⟨rfl, h2⟩
  · exact ⟨rfl, le_refl _, id, [], by simp [Run.state]⟩

theorem resolveCand_state (s : State) : DecRel s (resolveCand s).state := by
  unfold resolveCand
  cases matchCand s.blk with
  | some e => exact ⟨rfl, le_refl _, id, [e.sym], rfl⟩
  | none =>
    simp only
    split
    · exact DecRel.refl s
    · split <;> exact DecRel.refl s

theorem decodeStepBody_state (s : State) : DecRel s (decodeStepBody s).state := by
  unfold decodeStepBody
  refine Run.rel_bind (R := DecRel) DecRel.trans (unpackBit_state s) fun b u _ => ?_
  have h : DecRel u (growCand b u) := ⟨rfl, le_refl _, id, [], by simp⟩
  exact h.trans (resolveCand_state _)

/-- What DECODE_STEP may write. -/
theorem decodeStep_state (s : State) : DecRel s (decodeStep s).state := by
  unfold decodeStep
  split
  · exact DecRel.refl s
  · exact decodeStepBody_state s

/-- How a decode run ends: at a raise everything else is kept, at its end PHASE is DONE too. -/
def RunRel (s : State) (r : Run Unit) : Prop :=
  (∃ u, r = .done () (setPhase .done u) ∧ DecRel s u ∧ u.blk.candLen = 0 ∧ srcAtEnd u = true) ∨ ∃ e u, r = .raised e u ∧ DecRel s u

theorem decodeFinishBody_rel (s : State) : RunRel s (decodeFinishBody s) := by
  unfold decodeFinishBody
  split
  · exact .inr ⟨_, _, rfl, DecRel.refl s⟩
  · rename_i h1
    split
    · exact .inr ⟨_, _, rfl, DecRel.refl s⟩
    · rename_i h2
      exact .inl ⟨s, rfl, DecRel.refl s, by simpa using h1, by simpa using h2⟩

theorem RunRel.of {s t : State} (h : DecRel s t) {r : Run Unit} (h' : RunRel t r) : RunRel s r := by
  rcases h' with ⟨u, h1, h2, h3⟩ | ⟨e, u, h1, h2⟩
  · exact .inl ⟨u, h1, h.trans h2, h3⟩
  · exact .inr ⟨e, u, h1, h.trans h2⟩

theorem decodeAll_rel (n : Nat) : ∀ s : State, bitsLeft s = n → RunRel s (decodeAll s) := by
  induction n with
  | zero =>
    intro s hs
    rw [decodeAll_eq]
    split
    · exact decodeFinishBody_rel s
    · have hu : unreadBits s = [] := by rw [← List.length_eq_zero_iff, ← bitsLeft_eq, hs]
      rw [decodeStepBody, (unpackBit_none hu).1]; exact .inr ⟨_, _, rfl, DecRel.refl s⟩
  | succ n ih =>
    intro s hs
    rw [decodeAll_eq]
    split
    · exact decodeFinishBody_rel s
    · have h := decodeStepBody_state s
      cases hb : decodeStepBody s with
      | raised e t => rw [hb] at h; exact .inr ⟨_, _, rfl, h⟩
      | done a t => rw [hb] at h; exact RunRel.of h (ih t (by have := (decodeStepBody_done hb).1; omega))

/-- Everything a command's body can do, command by command. -/
theorem body_cases (i : Instr) (s : State) :
    match i with
    | .nop => True
    | .softReset => True
    | .addSymbol _ => CountFrame s (bodyOf i s).state ∧ Onward s (bodyOf i s).state ∧ (bodyOf i s).state.srcPos = s.srcPos
    | .countSrc => CountFrame s (bodyOf i s).state ∧ Onward s (bodyOf i s).state
    | .deserialize => DesRel s (bodyOf i s)
    | .pushBits _ _ => PackRel s (bodyOf i s).state ∧ (bodyOf i s).state.srcPos = s.srcPos
    | .pushCode _ => PackRel s (bodyOf i s).state ∧ (bodyOf i s).state.srcPos = s.srcPos
    | .flush => PackRel s (bodyOf i s).state ∧ (bodyOf i s).state.srcPos = s.srcPos
    | .encodeSrc => PackRel s (bodyOf i s).state
    | .decodeStep => DecRel s (bodyOf i s).state
    | .decodeFinish => (∃ e, bodyOf i s = .raised e s) ∨ bodyOf i s = .done () (setPhase .done s)
    | .decodeRun => RunRel s (bodyOf i s)
    | .build => bodyOf i s = .done () (buildTree s)
    | .assignCodes => bodyOf i s = .done () (assignCodes s)
    | .makeHeader => bodyOf i s = makeHeader s
    | .serialize => bodyOf i s = .done () (serialize s) := by
  have hp : ∀ x (s : State), (pushAll x s).srcPos = s.srcPos := by
    intro x s; obtain ⟨o, _, h⟩ := pushAll_packed x s; rw [h]
  cases i with
  | nop => trivial
  | softReset => trivial
  | addSymbol c =>
    refine ⟨(countSymbol_state c s).1, (countSymbol_state c s).2, ?_⟩
    simp only [bodyOf, countSymbol]; split <;> rfl
  | countSrc => exact countLoop_state _ s
  | deserialize => exact deserialize_rel s
  | pushBits n d => exact ⟨pushAll_state _ s, hp _ s⟩
  | pushCode c =>
    refine ⟨pushSymbol_state c s, ?_⟩
    simp only [bodyOf, pushSymbol]
    cases findSym c s.blk with
    | none => rfl
    | some e => exact hp _ s
  | flush =>
    refine ⟨flushPacker_state s, ?_⟩
    simp only [bodyOf, flushPacker, Run.state]
    split <;> rfl
  | encodeSrc => exact encodeSource_state s
  | decodeStep => exact decodeStep_state s
  | decodeFinish =>
    simp only [bodyOf, decodeFinishBody]
    split
    · exact .inl ⟨_, rfl⟩
    · split
      · exact .inl ⟨_, rfl⟩
      · exact .inr rfl
  | decodeRun => exact decodeAll_rel _ s rfl
  | _ => rfl

theorem CountFrame.exists {s u : State} (h : CountFrame s u) : ∃ p f c, u = { s with srcPos := p, blk := { s.blk with freq := f, inCount := c } } := ⟨_, _, _, h⟩

theorem PackFrame.exists {s u : State} (h : PackFrame s u) : ∃ p k a c y, u = { s with srcPos := p, snk := k, blk := { s.blk with pkAcc := a, pkCnt := c, payCount := y } } := ⟨_, _, _, _, _, h⟩

theorem DecodeFrame.exists {s u : State} (h : DecodeFrame s u) : ∃ p k a c y o r d, u = { s with srcPos := p, snk := k, blk := { s.blk with unpkByte := a, unpkCnt := c, payCount := y, outCount := o, remaining := r, cand := d } } := ⟨_, _, _, _, _, _, _, _, h⟩

theorem TableReadFrame.exists {s u : State} (h : TableReadFrame s u) : ∃ p k a c y o, u = { s with srcPos := p, blk := { s.blk with hdrCount := k, ent := a, entN := c, totalBits := y, symCount := o } } := ⟨_, _, _, _, _, _, h⟩

theorem EntFrame.exists {s u : State} (h : EntFrame s u) : ∃ p k a c, u = { s with srcPos := p, blk := { s.blk with hdrCount := k, ent := a, entN := c } } := ⟨_, _, _, _, h⟩

/-- `exec_cases` for every command but SOFT_RESET, with the state the body has reached. -/
theorem exec_body {i : Instr} {s t : State} (h : exec i s = .next t) (hr : i ≠ .softReset) :
    ∃ u, (u = s ∧ (t = retire s ∨ s.blk.errCode = 0#4 ∧ t = errorEntry .sequenceError s))
      ∨ (s.blk.errCode = 0#4 ∧ i ≠ .nop ∧ phaseLegal i s.blk.phase = true ∧ extraLegal i s.blk = true
        ∧ (bodyOf i s).state = u ∧ (bodyOf i s = .done () u ∧ t = retire u ∨ ∃ e, bodyOf i s = .raised e u ∧ t = errorEntry e u)) := by
  rcases exec_cases h with ⟨h1, _⟩ | h1 | ⟨h1, h2⟩ | ⟨h0, hn, _, hp, hx, ⟨u, h1, h2⟩ | ⟨e, u, h1, h2⟩⟩
  · exact absurd h1 hr
  · exact ⟨s, .inl ⟨rfl, .inl h1⟩⟩
  · exact ⟨s, .inl ⟨rfl, .inr ⟨h1, h2⟩⟩⟩
  · exact ⟨u, .inr ⟨h0, hn, hp, hx, by rw [h1]; rfl, .inl ⟨h1, h2⟩⟩⟩
  · exact ⟨u, .inr ⟨h0, hn, hp, hx, by rw [h1]; rfl, .inr ⟨e, h1, h2⟩⟩⟩

theorem decodeStepBody_error : ∀ s e u, decodeStepBody s = .raised e u → e ≠ .sourceUnavailable := by
  intro s e u h
  rcases decodeStepBody_cases s with ⟨_, h1⟩ | ⟨b, bs, t', _, _, _, _, _, ⟨_, _, h1⟩ | ⟨_, _, h1⟩ | ⟨_, _, _, h1⟩ | ⟨_, _, _, h1⟩⟩ <;> rw [h1] at h
  · rw [← (Run.raised.inj h).1]; simp
  · cases h
  · rw [← (Run.raised.inj h).1]; simp
  · rw [← (Run.raised.inj h).1]; simp
  · cases h

/-- What each command writes, from the state `s` to the state `u` its body has reached. -/
theorem body_writes {i : Instr} {s u : State} (hn : i ≠ .nop) (hr : i ≠ .softReset) (hp : phaseLegal i s.blk.phase = true) (h : (bodyOf i s).state = u) :
    let packs := (∃ n d, i = .pushBits n d) ∨ (∃ c, i = .pushCode c) ∨ i = .flush ∨ i = .encodeSrc
    let decodes := i = .decodeStep ∨ i = .decodeRun
    (((∀ c, i ≠ .addSymbol c) → i ≠ .countSrc → u.blk.freq = s.blk.freq ∧ u.blk.inCount = s.blk.inCount)
    ∧ (s.blk.phase ≠ .count → u.blk.freq = s.blk.freq ∧ u.blk.inCount = s.blk.inCount)
    ∧ (i ≠ .build → u.blk.node = s.blk.node ∧ u.blk.nodeCount = s.blk.nodeCount ∧ u.blk.nLeaf = s.blk.nLeaf
        ∧ u.blk.root = s.blk.root ∧ u.blk.treePresent = s.blk.treePresent)
    ∧ (i ≠ .assignCodes → i ≠ .deserialize → u.blk.ent = s.blk.ent ∧ u.blk.entN = s.blk.entN)
    ∧ (i ≠ .makeHeader → i ≠ .deserialize → u.blk.totalBits = s.blk.totalBits ∧ u.blk.symCount = s.blk.symCount)
    ∧ (i ≠ .makeHeader → i ≠ .deserialize → ¬ decodes → u.blk.remaining = s.blk.remaining ∧ u.blk.cand = s.blk.cand)
    ∧ (¬ packs → u.blk.pkAcc = s.blk.pkAcc ∧ u.blk.pkCnt = s.blk.pkCnt)
    ∧ (¬ decodes → u.blk.unpkByte = s.blk.unpkByte ∧ u.blk.unpkCnt = s.blk.unpkCnt ∧ u.blk.outCount = s.blk.outCount)
    ∧ (i ≠ .serialize → i ≠ .deserialize → u.blk.hdrCount = s.blk.hdrCount)
    ∧ (¬ packs → ¬ decodes → u.blk.payCount = s.blk.payCount)
    ∧ (u.blk.ovr = s.blk.ovr ∧ u.blk.pending = s.blk.pending)
    ∧ u.cfg = s.cfg ∧ u.src = s.src ∧ u.script = s.script ∧ u.seen = s.seen ∧ u.draws = s.draws ∧ u.progress = s.progress)
    ∧ (u.blk.errCode = s.blk.errCode ∧ u.blk.errCmd = s.blk.errCmd)
    ∧ Onward s u
    ∧ (¬ packs → ¬ decodes → i ≠ .serialize → u.snk = s.snk)
    ∧ (¬ decodes → i ≠ .countSrc → i ≠ .deserialize → i ≠ .encodeSrc → u.srcPos = s.srcPos)
    ∧ (u.blk.phase = s.blk.phase ∨ i = .build ∨ i = .assignCodes ∨ i = .makeHeader ∨ i = .deserialize ∨ i = .decodeFinish
        ∨ i = .decodeRun)
    ∧ u.blk.selIndex = s.blk.selIndex ∧ u.blk.selWord = s.blk.selWord ∧ u.blk.busy = s.blk.busy
    ∧ (∀ e, bodyOf i s = .raised e u → u.blk.phase = s.blk.phase ∧ e ≠ .sourceUnavailable) := by
  have hb := body_cases i s
  cases i with
  | nop => exact absurd rfl hn
  | softReset => exact absurd rfl hr
  | addSymbol c =>
    rw [h] at hb
    obtain ⟨h1, h2, h3⟩ := hb
    obtain ⟨p, f, n, rfl⟩ := h1.exists
    have hph : s.blk.phase = .count := by simpa [phaseLegal] using hp
    refine ⟨?_, ⟨rfl, rfl⟩, h2, fun _ _ _ => rfl, fun _ _ _ _ => h3, .inl rfl, rfl, rfl, rfl, ?_⟩
    · simp [hph]
    · intro e h; refine ⟨rfl, ?_⟩
      simp only [bodyOf, countSymbol] at h; split at h
      · rw [← (Run.raised.inj h).1]; simp
      · cases h
  | countSrc =>
    rw [h] at hb
    obtain ⟨h1, h2⟩ := hb
    obtain ⟨p, f, c, rfl⟩ := h1.exists
    have hph : s.blk.phase = .count := by simpa [phaseLegal] using hp
    refine ⟨?_, ⟨rfl, rfl⟩, h2, fun _ _ _ => rfl, fun _ h => absurd rfl h, .inl rfl, rfl, rfl, rfl, ?_⟩
    · simp [hph]
    · intro e h; refine ⟨rfl, ?_⟩
      have key : ∀ n s u, countLoop n s = .raised e u → e = .overflow := by
        intro n; induction n with
        | zero => intro s u h; cases h
        | succ n ih =>
          intro s u h; simp only [countLoop] at h
          cases h' : srcRead s with
          | none => rw [h'] at h; cases h
          | some q =>
            rw [h'] at h; simp only [Run.bind_eq_raised] at h
            rcases h with h | ⟨_, _, _, h⟩
            · unfold countSymbol at h; split at h <;> cases h; rfl
            · exact ih _ _ h
      rw [key _ _ _ h]; simp
  | deserialize =>
    rcases hb with ⟨e, u', h1, h2, h3⟩ | ⟨t', c', v, u', h1, he, h2, h3, h4, h5, h6, h7⟩
    · have : u' = u := by rw [← h, h1]; rfl
      subst this
      have h4 := h3.2
      obtain ⟨p, k, a, c, y, o, rfl⟩ := h3.1.exists
      refine ⟨by simp, ⟨rfl, rfl⟩, h4, fun _ _ _ => rfl, fun _ _ h => absurd rfl h, .inl rfl, rfl, rfl, rfl, ?_⟩
      intro e' h; rw [h1] at h; cases h
      refine ⟨rfl, ?_⟩
      rcases h2 with h2 | h2 <;> rw [h2] <;> simp
    · have : armDecoder t' u' = u := by rw [← h, h7]; rfl
      subst this
      have hon : Onward s (armDecoder t' u') := (h1.2.trans (Onward.trans (t := clearTable v) ⟨le_refl _, id, [], by simp⟩ h6.2)).trans ⟨le_refl _, id, [], by simp⟩
      obtain ⟨p, k, a, c, y, o, rfl⟩ := h1.1.exists
      obtain ⟨p', k', a', c'', rfl⟩ := h6.1.exists
      refine ⟨by simp, ⟨rfl, rfl⟩, hon, fun _ _ _ => rfl, fun _ _ h => absurd rfl h, by simp, rfl, rfl, rfl, ?_⟩
      intro e' h; rw [h7] at h; cases h
  | pushBits n d =>
    rw [h] at hb
    obtain ⟨⟨h1, h2⟩, h3⟩ := hb
    obtain ⟨p, k, a, c, y, rfl⟩ := h1.exists
    exact ⟨by simp, ⟨rfl, rfl⟩, h2, fun h => absurd (.inl ⟨_, _, rfl⟩) h, fun _ _ _ _ => h3, .inl rfl, rfl, rfl, rfl, fun e h => by cases h⟩
  | pushCode ch =>
    rw [h] at hb
    obtain ⟨⟨h1, h2⟩, h3⟩ := hb
    obtain ⟨p, k, a, c, y, rfl⟩ := h1.exists
    refine ⟨by simp, ⟨rfl, rfl⟩, h2, fun h => absurd (.inr (.inl ⟨_, rfl⟩)) h, fun _ _ _ _ => h3, .inl rfl, rfl, rfl, rfl, fun e h => ⟨rfl, ?_⟩⟩
    simp only [bodyOf, pushSymbol] at h; split at h
    · rw [← (Run.raised.inj h).1]; simp
    · cases h
  | flush =>
    rw [h] at hb
    obtain ⟨⟨h1, h2⟩, h3⟩ := hb
    obtain ⟨p, k, a, c, y, rfl⟩ := h1.exists
    exact ⟨by simp, ⟨rfl, rfl⟩, h2, fun h => absurd (.inr (.inr (.inl rfl))) h, fun _ _ _ _ => h3, .inl rfl, rfl, rfl, rfl, fun e h => by cases h⟩
  | encodeSrc =>
    rw [h] at hb
    obtain ⟨h1, h2⟩ := hb
    obtain ⟨p, k, a, c, y, rfl⟩ := h1.exists
    refine ⟨by simp, ⟨rfl, rfl⟩, h2, fun h => absurd (.inr (.inr (.inr rfl))) h, fun _ _ _ h => absurd rfl h, .inl rfl, rfl, rfl, rfl, fun e h => ⟨rfl, ?_⟩⟩
    have key : ∀ n s u, encodeLoop n s = .raised e u → e = .unknownSymbol := by
        intro n; induction n with
        | zero => intro s u h; cases h
        | succ n ih =>
          intro s u h; simp only [encodeLoop] at h
          cases h' : srcRead s with
          | none => rw [h'] at h; cases h
          | some q =>
            rw [h'] at h; simp only [Run.bind_eq_raised] at h
            rcases h with h | ⟨_, _, _, h⟩
            · unfold pushSymbol at h; split at h <;> cases h; rfl
            · exact ih _ _ h
    simp only [bodyOf, encodeSource, Run.bind_eq_raised] at h
    rcases h with h | ⟨_, _, _, h⟩
    · rw [key _ _ _ h]; simp
    · cases h
  | decodeStep =>
    rw [h] at hb
    obtain ⟨h1, h2⟩ := hb
    obtain ⟨p, k, a, c, y, o, r, d, rfl⟩ := h1.exists
    refine ⟨by simp, ⟨rfl, rfl⟩, h2, fun _ h => absurd (.inl rfl) h, fun h => absurd (.inl rfl) h, .inl rfl, rfl, rfl, rfl, fun e h => ⟨rfl, ?_⟩⟩
    simp only [bodyOf, decodeStep] at h; split at h
    · cases h
    · exact decodeStepBody_error s e _ h
  | decodeFinish =>
    have hu : u = s ∨ u = setPhase .done s := by
      rcases hb with ⟨e, hb⟩ | hb <;> rw [hb] at h <;> simp only [Run.state] at h
      · exact .inl h.symm
      · exact .inr h.symm
    have he : ∀ e, bodyOf .decodeFinish s = .raised e u → u.blk.phase = s.blk.phase ∧ e ≠ .sourceUnavailable := by
      intro e h; simp only [bodyOf, decodeFinishBody] at h
      split at h
      · cases h; simp
      · split at h <;> cases h; simp
    rcases hu with rfl | rfl
    · exact ⟨by simp, ⟨rfl, rfl⟩, Onward.refl _, fun _ _ _ => rfl, fun _ _ _ _ => rfl, by simp, rfl, rfl, rfl, he⟩
    · exact ⟨by simp, ⟨rfl, rfl⟩, ⟨le_refl _, id, [], by simp⟩, fun _ _ _ => rfl, fun _ _ _ _ => rfl, by simp, rfl, rfl, rfl, he⟩
  | decodeRun =>
    have key : ∃ v, DecRel s v ∧ (u = v ∨ u = setPhase .done v) ∧ ∀ e, bodyOf .decodeRun s = .raised e u → u = v := by
      rcases hb with ⟨v, h1, h2, _⟩ | ⟨e, v, h1, h2⟩
      · rw [h1] at h
        refine ⟨v, h2, .inr h.symm, fun e h => ?_⟩
        rw [h1] at h; cases h
      · rw [h1] at h
        exact ⟨v, h2, .inl h.symm, fun _ _ => h.symm⟩
    obtain ⟨v, hv, hu, he⟩ := key
    have kerr : ∀ n, ∀ s : State, bitsLeft s = n → ∀ e u, decodeAll s = .raised e u → e ≠ .sourceUnavailable := by
      have fin : ∀ s e u, decodeFinishBody s = .raised e u → e ≠ .sourceUnavailable := by
        intro s e u h; simp only [decodeFinishBody] at h
        split at h
        · cases h; simp
        · split at h <;> cases h; simp
      intro n
      induction n with
      | zero =>
        intro s hs e u h
        rw [decodeAll_eq] at h; split at h
        · exact fin _ _ _ h
        · cases hb : decodeStepBody s with
          | raised e' t => rw [hb] at h; cases h; exact decodeStepBody_error _ _ _ hb
          | done a t => have := (decodeStepBody_done hb).1; omega
      | succ n ih =>
        intro s hs e u h
        rw [decodeAll_eq] at h; split at h
        · exact fin _ _ _ h
        · cases hb : decodeStepBody s with
          | raised e' t => rw [hb] at h; cases h; exact decodeStepBody_error _ _ _ hb
          | done a t => rw [hb] at h; have := (decodeStepBody_done hb).1; exact ih t (by omega) e u h
    have hon : Onward s u := by
      rcases hu with rfl | rfl
      · exact hv.2
      · exact hv.2.trans ⟨le_refl _, id, [], by simp⟩
    obtain ⟨p, k, a, c, y, o, r, d, rfl⟩ := hv.1.exists
    have hee : ∀ e, bodyOf .decodeRun s = .raised e u → u.blk.phase = s.blk.phase ∧ e ≠ .sourceUnavailable := by
      intro e h'; exact ⟨by rw [he e h'], kerr _ s rfl e u h'⟩
    rcases hu with rfl | rfl
    · exact ⟨by simp, ⟨rfl, rfl⟩, hon, fun _ h => absurd (.inr rfl) h, fun h => absurd (.inr rfl) h, by simp, rfl, rfl, rfl, hee⟩
    · exact ⟨by simp, ⟨rfl, rfl⟩, hon, fun _ h => absurd (.inr rfl) h, fun h => absurd (.inr rfl) h, by simp, rfl, rfl, rfl, hee⟩
  | build =>
    have hph : s.blk.phase = .count := by simpa [phaseLegal] using hp
    have : buildTree s = u := by rw [← h, hb]; rfl
    subst this
    exact ⟨by simp [hph], ⟨rfl, rfl⟩, ⟨le_refl _, id, [], by simp⟩, fun _ _ _ => rfl, fun _ _ _ _ => rfl, by simp, rfl, rfl, rfl, fun e h => by cases h⟩
  | assignCodes =>
    have : assignCodes s = u := by rw [← h, hb]; rfl
    subst this
    exact ⟨by simp, ⟨rfl, rfl⟩, ⟨le_refl _, id, [], by simp⟩, fun _ _ _ => rfl, fun _ _ _ _ => rfl, by simp, rfl, rfl, rfl, fun e h => by cases h⟩
  | serialize =>
    have : serialize s = u := by rw [← h, hb]; rfl
    subst this
    exact ⟨by simp [serialize], ⟨rfl, rfl⟩, ⟨le_refl _, id, headerBytes s.cfg.hdrOrder s.blk, rfl⟩, fun _ _ h => absurd rfl h, fun _ _ _ _ => rfl, .inl rfl, rfl, rfl, rfl, fun e h => by cases h⟩
  | makeHeader =>
    rw [hb] at h
    unfold makeHeader at h
    split at h
    · rename_i hT
      subst h
      refine ⟨by simp [Run.state], ⟨rfl, rfl⟩, ⟨le_refl _, id, [], by simp [Run.state]⟩, fun _ _ _ => rfl, fun _ _ _ _ => rfl, .inl rfl, rfl, rfl, rfl, fun e h => ?_⟩
      rw [hb] at h; unfold makeHeader at h; rw [if_pos hT] at h; cases h; exact ⟨rfl, by simp⟩
    · rename_i hT
      subst h
      refine ⟨by simp [Run.state, State.withBlk], ⟨rfl, rfl⟩, ⟨le_refl _, id, [], by simp [Run.state]⟩, fun _ _ _ => rfl, fun _ _ _ _ => rfl, by simp, rfl, rfl, rfl, fun e h => ?_⟩
      rw [hb] at h; unfold makeHeader at h; rw [if_neg hT] at h; cases h

end Sys2Proof.Machine
end

