-- ==== Sys2Proof/Laws/Header.lean ====
section
/-! SUPPORT. The header: what SERIALIZE writes and DESERIALIZE reads (spec/41_code_table_format.md). -/

namespace Sys2Proof.Machine

open Sys2Proof

theorem entries_eq_filterMap (b : Block) :
    b.entries = (List.finRange 256).filterMap fun i => if i.val < b.entN.val then some b.ent[i] else none := by
  have key : ∀ (l : List Entry) (n : Nat), l.take n = (List.finRange l.length).filterMap fun i => if i.val < n then some l[i] else none := by
    intro l
    induction l with
    | nil => intro n; simp
    | cons e l ih =>
      intro n
      cases n with
      | zero => simp
      | succ n =>
        rw [List.take_succ_cons, ih n]
        simp only [List.length_cons, List.finRange_succ, List.filterMap_cons, List.filterMap_map]
        simp
  have := key b.ent.toList b.entN.val
  unfold Block.entries
  rw [this]
  have hl : b.ent.toList.length = 256 := by simp
  generalize hg : b.ent.toList = l at *
  have hget : ∀ i : Fin 256, b.ent[i] = l[i.val]'(by omega) := by
    intro i; subst hg; simp
  simp only [hget]
  clear hget hg this key
  have : ∀ n (h : l.length = n), List.filterMap (fun i => if i.val < b.entN.val then some l[i] else none) (List.finRange l.length)
      = List.filterMap (fun i : Fin n => if i.val < b.entN.val then some (l[i.val]'(by omega)) else none) (List.finRange n) := by
    intro n h; subst h; rfl
  exact this 256 hl

theorem sum_filterMap (n : Nat) (l : List (Fin 256)) (f : Fin 256 → Entry) (g : Entry → Nat) :
    ((l.filterMap fun i => if i.val < n then some (f i) else none).map g).sum
      = (l.map fun i => if i.val < n then g (f i) else 0).sum := by
  induction l with
  | nil => rfl
  | cons a l ih =>
    by_cases h : a.val < n <;> simp [h, ih]

/-- T of MAKE_HEADER as a sum over the table (R150). -/
theorem encodedBits_eq (b : Block) : encodedBits b = ∑ i : Fin 256, if i.val < b.entN.val
      then (freqAt b.freq b.ent[i].sym).toNat * b.ent[i].len else 0 := by
  unfold encodedBits
  rw [entries_eq_filterMap, sum_filterMap, ← List.ofFn_eq_map, List.sum_ofFn]

theorem u32Bytes_length (o : HdrOrder) (v : Word) : (u32Bytes o v).length = 4 := by cases o <;> rfl

theorem packCode_length (c : Bits) : (packCode c).length = byteCount c.length := by simp [packCode]

theorem entryBytes_length (e : Entry) : (entryBytes e).length = 2 + byteCount e.len := by
  simp [entryBytes, packCode_length, Entry.len]; omega

theorem getLsbD_byteOfBits (f : Nat → Bool) (k : Nat) (h : k < 8) : (byteOfBits f).getLsbD k = f (7 - k) := by
  simp [byteOfBits, h]

/-- The state after reading `n` header bytes. -/
def hdrAfter (n : Nat) (s : State) : State :=
  { s with srcPos := s.srcPos + n, blk := { s.blk with hdrCount := s.blk.hdrCount + BitVec.ofNat 32 n } }

theorem hdrAfter_zero (s : State) : hdrAfter 0 s = s := by simp [hdrAfter]

theorem hdrAfter_add (m n : Nat) (s : State) : hdrAfter n (hdrAfter m s) = hdrAfter (m + n) s := by
  simp [hdrAfter, BitVec.ofNat_add, Nat.add_assoc, BitVec.add_assoc]

theorem restOfSource_hdrAfter (n : Nat) (s : State) : restOfSource (hdrAfter n s) = (restOfSource s).drop n := by
  simp [restOfSource, hdrAfter]

/-- ReadHdrByte with a byte left (R177). -/
theorem readHdrByte_cons {s : State} {b : Byte} {bs : List Byte} (h : restOfSource s = b :: bs) :
    readHdrByte s = .done b (hdrAfter 1 s) := by
  obtain ⟨h1, h2⟩ := restOfSource_cons h
  simp only [readHdrByte, h1]; rfl

/-- ReadHdrByte at EOF (R177). -/
theorem readHdrByte_nil {s : State} (h : restOfSource s = []) : readHdrByte s = .raised .truncatedHeader s := by
  simp [readHdrByte, srcRead_none.2 h]

theorem readHdrBytes_done (bs : List Byte) : ∀ (s : State) (rest : List Byte), restOfSource s = bs ++ rest →
    readHdrBytes bs.length s = .done bs (hdrAfter bs.length s) := by
  induction bs with
  | nil => intro s rest h; simp [readHdrBytes, hdrAfter_zero]
  | cons b bs ih =>
    intro s rest h
    simp only [List.length_cons, readHdrBytes]
    rw [readHdrByte_cons h, Run.bind_done, ih (hdrAfter 1 s) rest (by rw [restOfSource_hdrAfter, h]; rfl), Run.bind_done,
      hdrAfter_add, Nat.add_comm]

theorem readHdrBytes_short (bs : List Byte) : ∀ (n : Nat) (s : State), restOfSource s = bs → bs.length < n →
    readHdrBytes n s = .raised .truncatedHeader (hdrAfter bs.length s) := by
  induction bs with
  | nil =>
    intro n s h hn
    cases n with
    | zero => simp at hn
    | succ n => simp [readHdrBytes, readHdrByte_nil h, hdrAfter_zero]
  | cons b bs ih =>
    intro n s h hn
    cases n with
    | zero => simp at hn
    | succ n =>
      simp only [readHdrBytes]
      rw [readHdrByte_cons h, Run.bind_done, ih n (hdrAfter 1 s) (by rw [restOfSource_hdrAfter, h]; rfl) (by simpa using hn), Run.bind_raised,
        hdrAfter_add, List.length_cons, Nat.add_comm]

/-- GetU32 reads what PutU32 writes (R84). -/
theorem u32_roundtrip (o : HdrOrder) (v : Word) : ∃ b0 b1 b2 b3, u32Bytes o v = [b0, b1, b2, b3] ∧ u32OfBytes o b0 b1 b2 b3 = v := by
  have key : ∀ v : Word, v.extractLsb' 24 8 ++ v.extractLsb' 16 8 ++ v.extractLsb' 8 8 ++ v.extractLsb' 0 8 = v := by
    intro v
    apply BitVec.eq_of_getLsbD_eq
    intro i hi
    have h : (v.extractLsb' 24 8 ++ v.extractLsb' 16 8 ++ v.extractLsb' 8 8 ++ v.extractLsb' 0 8 : BitVec 32).getLsbD i
      = BitVec.getLsbD (w := 8 + 8 + 8 + 8) (v.extractLsb' 24 8 ++ v.extractLsb' 16 8 ++ v.extractLsb' 8 8 ++ v.extractLsb' 0 8) i := rfl
    rw [h, BitVec.getLsbD_append, BitVec.getLsbD_append, BitVec.getLsbD_append]
    simp only [BitVec.getLsbD_extractLsb']
    by_cases h1 : i < 8
    · simp [h1]
    · by_cases h2 : i - 8 < 8
      · simp [h1, h2, show 8 + (i - 8) = i by omega]
      · by_cases h3 : i - 8 - 8 < 8
        · simp [h1, h2, h3, show 16 + (i - 8 - 8) = i by omega]
        · simp [h1, h2, h3, show 24 + (i - 8 - 8 - 8) = i by omega, show i - 8 - 8 - 8 < 8 by omega]
  cases o
  · exact ⟨_, _, _, _, rfl, key v⟩
  · exact ⟨_, _, _, _, rfl, key v⟩

/-- GetU32 on the four bytes of a value. -/
theorem getU32_done {s : State} {v : Word} {rest : List Byte} (h : restOfSource s = u32Bytes s.cfg.hdrOrder v ++ rest) :
    getU32 s = .done v (hdrAfter 4 s) := by
  obtain ⟨b0, b1, b2, b3, h1, h2⟩ := u32_roundtrip s.cfg.hdrOrder v
  rw [h1] at h
  simp only [List.cons_append, List.nil_append] at h
  unfold getU32
  rw [readHdrByte_cons h, Run.bind_done, readHdrByte_cons (s := hdrAfter 1 s) (by rw [restOfSource_hdrAfter, h]; rfl), Run.bind_done]
  rw [hdrAfter_add, readHdrByte_cons (s := hdrAfter 2 s) (by rw [restOfSource_hdrAfter, h]; rfl), Run.bind_done]
  rw [hdrAfter_add, readHdrByte_cons (s := hdrAfter 3 s) (by rw [restOfSource_hdrAfter, h]; rfl), Run.bind_done]
  rw [hdrAfter_add]
  show Run.done (u32OfBytes s.cfg.hdrOrder b0 b1 b2 b3) _ = _
  rw [h2]

/-- GetU32 on fewer than four bytes. -/
theorem getU32_short {s : State} (h : (restOfSource s).length < 4) :
    getU32 s = .raised .truncatedHeader (hdrAfter (restOfSource s).length s) := by
  unfold getU32
  generalize hg : restOfSource s = l at h
  match l, h with
  | [], _ => rw [readHdrByte_nil hg]; simp [hdrAfter_zero]
  | [a], _ =>
    rw [readHdrByte_cons hg, Run.bind_done, readHdrByte_nil (by rw [restOfSource_hdrAfter, hg]; rfl)]; rfl
  | [a, b], _ =>
    rw [readHdrByte_cons hg, Run.bind_done, readHdrByte_cons (s := hdrAfter 1 s) (bs := []) (by rw [restOfSource_hdrAfter, hg]; rfl), Run.bind_done,
      hdrAfter_add, readHdrByte_nil (by rw [restOfSource_hdrAfter, hg]; rfl)]; rfl
  | [a, b, c], _ =>
    rw [readHdrByte_cons hg, Run.bind_done, readHdrByte_cons (s := hdrAfter 1 s) (bs := [c]) (by rw [restOfSource_hdrAfter, hg]; rfl), Run.bind_done,
      hdrAfter_add, readHdrByte_cons (s := hdrAfter 2 s) (bs := []) (by rw [restOfSource_hdrAfter, hg]; rfl), Run.bind_done,
      hdrAfter_add, readHdrByte_nil (by rw [restOfSource_hdrAfter, hg]; rfl)]; rfl

/-- The bytes of an entry given as symbol byte, length byte and code bytes. -/
abbrev rawBytes (r : Byte × Byte × List Byte) : List Byte := r.1 :: r.2.1 :: r.2.2

/-- The entry of such bytes. -/
abbrev rawEntry (r : Byte × Byte × List Byte) : Entry := { sym := r.1, code := (r.2.2.flatMap bitsOfByte).take r.2.1.toNat }

/-- One entry from its bytes (R179). -/
theorem readEntry_done {s : State} {r : Byte × Byte × List Byte} {rest : List Byte} (hl : r.2.2.length = (r.2.1.toNat + 7) / 8)
    (h : restOfSource s = rawBytes r ++ rest) : readEntry s = .done (rawEntry r) (hdrAfter (2 + r.2.2.length) s) := by
  simp only [rawBytes, List.cons_append] at h
  unfold readEntry
  rw [readHdrByte_cons h, Run.bind_done, readHdrByte_cons (s := hdrAfter 1 s) (by rw [restOfSource_hdrAfter, h]; rfl), Run.bind_done,
    hdrAfter_add]
  have : byteCount r.2.1.toNat = r.2.2.length := hl.symm
  rw [this, readHdrBytes_done r.2.2 (hdrAfter 2 s) rest (by rw [restOfSource_hdrAfter, h]; rfl), Run.bind_done, hdrAfter_add]
  rfl

/-- An entry the source does not hold whole (R177). -/
theorem readEntry_short {s : State} {part : List Byte} (h : restOfSource s = part)
    (hp : ∀ sym len bytes, part = sym :: len :: bytes → bytes.length < (len.toNat + 7) / 8) :
    readEntry s = .raised .truncatedHeader (hdrAfter part.length s) := by
  unfold readEntry
  match part, h, hp with
  | [], h, _ => rw [readHdrByte_nil h]; simp [hdrAfter_zero]
  | [a], h, _ =>
    rw [readHdrByte_cons h, Run.bind_done, readHdrByte_nil (by rw [restOfSource_hdrAfter, h]; rfl)]; rfl
  | a :: b :: bs, h, hp =>
    rw [readHdrByte_cons h, Run.bind_done, readHdrByte_cons (s := hdrAfter 1 s) (by rw [restOfSource_hdrAfter, h]; rfl), Run.bind_done,
      hdrAfter_add, readHdrBytes_short bs _ (hdrAfter 2 s) (by rw [restOfSource_hdrAfter, h]; rfl) (show bs.length < byteCount b.toNat from hp a b bs rfl), Run.bind_raised, hdrAfter_add]
    simp only [List.length_cons]
    rw [show 1 + 1 + bs.length = bs.length + 1 + 1 by omega]

/-- The state after storing entries from index `i` on. -/
def storeRaw (i : Nat) : List (Byte × Byte × List Byte) → State → State
  | [], s => s
  | r :: rs, s => storeRaw (i + 1) rs (storeEntry i (rawEntry r) (hdrAfter (2 + r.2.2.length) s))

theorem restOfSource_storeEntry (i : Nat) (e : Entry) (s : State) : restOfSource (storeEntry i e s) = restOfSource s := rfl

/-- All entries from their bytes (R180). -/
theorem readEntries_done (raw : List (Byte × Byte × List Byte)) : ∀ (i : Nat) (s : State) (rest : List Byte),
    (∀ r ∈ raw, r.2.2.length = (r.2.1.toNat + 7) / 8) → restOfSource s = raw.flatMap rawBytes ++ rest →
    readEntries raw.length i s = .done () (storeRaw i raw s) := by
  induction raw with
  | nil => intro i s rest _ _; rfl
  | cons r raw ih =>
    intro i s rest hl h
    simp only [List.length_cons, readEntries]
    rw [List.flatMap_cons, List.append_assoc] at h
    rw [readEntry_done (hl r (by simp)) h, Run.bind_done]
    apply ih _ _ rest (fun r hr => hl r (by simp [hr]))
    rw [restOfSource_storeEntry, restOfSource_hdrAfter, h, List.drop_append_of_le_length (by simp; omega), List.drop_of_length_le (by simp; omega)]
    rfl

/-- Entries up to one the source does not hold whole (R181). -/
theorem readEntries_short (raw : List (Byte × Byte × List Byte)) : ∀ (n i : Nat) (s : State) (part : List Byte),
    (∀ r ∈ raw, r.2.2.length = (r.2.1.toNat + 7) / 8) → raw.length < n →
    (∀ sym len bytes, part = sym :: len :: bytes → bytes.length < (len.toNat + 7) / 8) →
    restOfSource s = raw.flatMap rawBytes ++ part →
    readEntries n i s = .raised .truncatedHeader (hdrAfter part.length (storeRaw i raw s)) := by
  induction raw with
  | nil =>
    intro n i s part _ hn hp h
    cases n with
    | zero => simp at hn
    | succ n => simp only [readEntries]; rw [readEntry_short h hp]; rfl
  | cons r raw ih =>
    intro n i s part hl hn hp h
    cases n with
    | zero => simp at hn
    | succ n =>
      simp only [readEntries]
      rw [List.flatMap_cons, List.append_assoc] at h
      rw [readEntry_done (hl r (by simp)) h, Run.bind_done]
      apply ih _ _ _ _ (fun r hr => hl r (by simp [hr])) (by simpa using hn) hp
      rw [restOfSource_storeEntry, restOfSource_hdrAfter, h, List.drop_append_of_le_length (by simp; omega), List.drop_of_length_le (by simp; omega)]
      rfl

/-- What storing entries leaves. -/
theorem storeRaw_facts (raw : List (Byte × Byte × List Byte)) : ∀ (i : Nat) (s : State), i + raw.length ≤ 256 →
    (∀ (j : Fin 256) (h1 : i ≤ j.val) (h2 : j.val < i + raw.length), (storeRaw i raw s).blk.ent[j] = rawEntry (raw[j.val - i]'(by omega)))
    ∧ (∀ j : Fin 256, j.val < i ∨ i + raw.length ≤ j.val → (storeRaw i raw s).blk.ent[j] = s.blk.ent[j])
    ∧ (raw ≠ [] → (storeRaw i raw s).blk.entN.val = i + raw.length) ∧ (raw = [] → (storeRaw i raw s).blk.entN = s.blk.entN)
    ∧ storeRaw i raw s = { s with
        srcPos := s.srcPos + (raw.map fun r => 2 + r.2.2.length).sum
        blk := { s.blk with
          ent := (storeRaw i raw s).blk.ent
          entN := (storeRaw i raw s).blk.entN
          hdrCount := s.blk.hdrCount + BitVec.ofNat 32 (raw.map fun r => 2 + r.2.2.length).sum } } := by
  induction raw with
  | nil =>
    intro i s _
    refine ⟨fun j h1 h2 => by simp at h2; omega, fun j _ => rfl, by simp, fun _ => rfl, by simp [storeRaw]⟩
  | cons r raw ih =>
    intro i s hi
    simp only [List.length_cons] at hi
    obtain ⟨h1, h2, h3, h4, h5⟩ := ih (i + 1) (storeEntry i (rawEntry r) (hdrAfter (2 + r.2.2.length) s)) (by omega)
    refine ⟨?_, ?_, ?_, by simp, ?_⟩
    · intro j hj1 hj2
      simp only [List.length_cons] at hj2
      by_cases hj : j.val = i
      · rw [storeRaw, h2 j (.inl (by omega))]
        simp [hj, storeEntry_blk]
      · rw [storeRaw, h1 j (by omega) (by omega)]
        congr 1
        rw [List.getElem_cons]
        rw [dif_neg (by omega)]
        congr 1
    · intro j hj
      simp only [List.length_cons] at hj
      rw [storeRaw, h2 j (by omega)]
      have : i ≠ j.val := by omega
      simp [storeEntry_blk, this, hdrAfter]
    · intro _
      rw [storeRaw]
      by_cases hr : raw = []
      · rw [h4 hr, storeEntry_blk, hr]
        simp only [Fin.ofNat, List.length_cons, List.length_nil]; omega
      · rw [h3 hr]; simp; omega
    · rw [storeRaw, h5]
      simp [storeEntry, State.withBlk, hdrAfter, BitVec.ofNat_add, Nat.add_assoc, BitVec.add_assoc]

theorem hdrAfter_setTotalBits (n : Nat) (t : Word) (s : State) : hdrAfter n (setTotalBits t s) = setTotalBits t (hdrAfter n s) := rfl

/-- DESERIALIZE past its two integers (R180). -/
theorem deserialize_prologue {s : State} {t c : Word} {rest : List Byte}
    (h : restOfSource s = u32Bytes s.cfg.hdrOrder t ++ u32Bytes s.cfg.hdrOrder c ++ rest) :
    deserialize s = readTable t c (setSymCount c (setTotalBits t (hdrAfter 8 s)))
    ∧ restOfSource (setSymCount c (setTotalBits t (hdrAfter 8 s))) = rest := by
  rw [List.append_assoc] at h
  constructor
  · unfold deserialize
    rw [getU32_done h, Run.bind_done]
    have h2 : restOfSource (setTotalBits t (hdrAfter 4 s)) = u32Bytes (setTotalBits t (hdrAfter 4 s)).cfg.hdrOrder c ++ rest := by
      show restOfSource (hdrAfter 4 s) = _
      rw [restOfSource_hdrAfter, h, List.drop_append_of_le_length (by rw [u32Bytes_length]), List.drop_of_length_le (by rw [u32Bytes_length])]
      rfl
    rw [getU32_done h2, Run.bind_done, hdrAfter_setTotalBits, hdrAfter_add]
  · show restOfSource (hdrAfter 8 s) = _
    rw [restOfSource_hdrAfter, h, ← List.append_assoc, List.drop_append_of_le_length (by simp [u32Bytes_length]), List.drop_of_length_le (by simp [u32Bytes_length])]
    rfl

theorem exec_deserialize {s : State} (h0 : s.blk.errCode = 0#4) (hp : s.blk.phase = .count) :
    exec .deserialize s = conclude (deserialize s) :=
  exec_runs (by simp) (by simp) h0 (by simp [phaseLegal, hp]) rfl

theorem msb_false_of_le {c : Word} (h : c.toNat ≤ 256) : c.msb = false := by
  rw [BitVec.msb_eq_false_iff_two_mul_lt]; omega

/-- The range check on signed integers (R178). -/
theorem headerOutOfRange_iff (t c : Word) : headerOutOfRange t c = true ↔ t.toInt < 0 ∨ c.toInt < 0 ∨ 256 < c.toInt := by
  unfold headerOutOfRange
  simp only [Bool.or_eq_true, decide_eq_true_eq]
  rw [BitVec.msb_eq_toInt, BitVec.msb_eq_toInt]
  simp only [decide_eq_true_eq]
  by_cases h : c.toInt < 0
  · simp [h]
  · have : c.toInt = c.toNat := by
      rw [BitVec.toInt_eq_toNat_of_msb]; rw [BitVec.msb_eq_toInt]; simpa using h
    rw [this]; omega

theorem bits_packCode (c : Bits) : ((packCode c).flatMap bitsOfByte) =
    (List.range (8 * byteCount c.length)).map fun k => c.getD k false := by
  unfold packCode
  generalize byteCount c.length = n
  induction n with
  | zero => rfl
  | succ n ih =>
    rw [List.range_succ, List.map_append, List.flatMap_append, ih, Nat.mul_succ, List.range_add, List.map_append]
    congr 1
    simp only [List.map_cons, List.map_nil, List.flatMap_cons, List.flatMap_nil, List.append_nil, bitsOfByte, List.map_map]
    apply List.map_congr_left
    intro k hk
    rw [List.mem_range] at hk
    rw [getLsbD_byteOfBits _ _ (by omega), show 7 - (7 - k) = k by omega]; rfl

/-- Code bytes give the code back (R172, R179). -/
theorem unpack_packCode (c : Bits) : ((packCode c).flatMap bitsOfByte).take c.length = c := by
  rw [bits_packCode]
  apply List.ext_getElem
  · simp [byteCount]; omega
  · intro k h1 h2
    simp [h2]

def rawOf (e : Entry) : Byte × Byte × List Byte := (e.sym, BitVec.ofNat 8 e.len, packCode e.code)

end Sys2Proof.Machine
end

