-- ==== Sys2Proof/Laws/Selector.lean ====
section
/-! SUPPORT. No command but SOFT_RESET reads BUSY, OVR, the selector (spec/10_state.md R52) or the model's own fields. -/

namespace Sys2Proof.Machine

open Sys2Proof

/-- A run with its states changed by a function. -/
def Run.map {α : Type} (g : State → State) : Run α → Run α
  | .done a s => .done a (g s)
  | .raised e s => .raised e (g s)

/-- What no command but SOFT_RESET reads: BUSY, OVR, the selector, and the model's own fields. -/
structure Aside where
  busy : Bool
  ovr : Bool
  selIndex : BitVec 9
  selWord : BitVec 3
  script : List HostMove
  seen : List Observation
  draws : Nat
  progress : Nat

/-- These parts of a state. -/
def aside (s : State) : Aside :=
  ⟨s.blk.busy, s.blk.ovr, s.blk.selIndex, s.blk.selWord, s.script, s.seen, s.draws, s.progress⟩

/-- A change of these parts alone. -/
def poke (f : Aside → Aside) (s : State) : State :=
  { s with
    blk := { s.blk with
      busy := (f (aside s)).busy
      ovr := (f (aside s)).ovr
      selIndex := (f (aside s)).selIndex
      selWord := (f (aside s)).selWord }
    script := (f (aside s)).script
    seen := (f (aside s)).seen
    draws := (f (aside s)).draws
    progress := (f (aside s)).progress }

theorem Run.map_bind {α β : Type} {g : State → State} {r : Run α} {k : α → State → Run β}
    (h : ∀ a s, k a (g s) = (k a s).map g) : (r.map g).bind k = (r.bind k).map g := by
  cases r with
  | done a s => exact h a s
  | raised e s => rfl

variable {f : Aside → Aside}

theorem unpackBit_poke (s : State) : unpackBit (poke f s) = (unpackBit s).map (poke f) := by
  unfold unpackBit srcRead
  show (if s.blk.unpkCnt.val = 0 then match (match s.src[s.srcPos]? with | some b => some (b, _) | none => none : Option (Byte × State)) with | none => _ | some (x, s') => _ else _) = _
  split
  · cases s.src[s.srcPos]? <;> rfl
  · rfl

theorem resolveCand_poke (s : State) : resolveCand (poke f s) = (resolveCand s).map (poke f) := by
  unfold resolveCand
  show (match matchCand s.blk with | some e => _ | none => _) = _
  cases matchCand s.blk with
  | some e => rfl
  | none =>
    show (if s.blk.candLen > 255 then _ else if s.blk.candLen = s.blk.remaining.toNat then _ else _) = _
    simp only
    split
    · rfl
    · split <;> rfl

theorem decodeStepBody_poke (s : State) : decodeStepBody (poke f s) = (decodeStepBody s).map (poke f) := by
  unfold decodeStepBody
  rw [unpackBit_poke, Run.map_bind]
  intro b s; exact resolveCand_poke (growCand b s)

theorem decodeFinishBody_poke (s : State) : decodeFinishBody (poke f s) = (decodeFinishBody s).map (poke f) := by
  unfold decodeFinishBody
  show (if s.blk.candLen ≠ 0 then _ else if srcAtEnd s = false then _ else _) = _
  split
  · rfl
  · split <;> rfl

theorem decodeLoop_poke (n : Nat) : ∀ s : State, decodeLoop n (poke f s) = (decodeLoop n s).map (poke f) := by
  induction n with
  | zero =>
    intro s; simp only [decodeLoop]
    show (if s.blk.remaining = 0#32 then _ else _) = _
    split
    · exact decodeFinishBody_poke s
    · exact decodeStepBody_poke s
  | succ n ih =>
    intro s; simp only [decodeLoop]
    show (if s.blk.remaining = 0#32 then _ else _) = _
    split
    · exact decodeFinishBody_poke s
    · rw [decodeStepBody_poke, Run.map_bind]; intro _ t; exact ih t

theorem decodeAll_poke (s : State) : decodeAll (poke f s) = (decodeAll s).map (poke f) := decodeLoop_poke _ s

theorem conclude_map_idle (r : Run Unit) : conclude (r.map (poke fun a => { a with busy := false })) = conclude r := by
  cases r <;> rfl

theorem conclude_decodeAll_retire (u : State) : conclude (decodeAll (retire u)) = conclude (decodeAll u) := by
  have := decodeAll_poke (f := fun a => { a with busy := false }) u
  show conclude (decodeAll (poke (fun a => { a with busy := false }) u)) = _
  rw [this, conclude_map_idle]

theorem srcRead_poke (s : State) : srcRead (poke f s) = (srcRead s).map fun p => (p.1, poke f p.2) := by
  unfold srcRead
  show (match s.src[s.srcPos]? with | some b => _ | none => _) = _
  cases s.src[s.srcPos]? <;> rfl

theorem countSymbol_poke (c : Byte) (s : State) : countSymbol c (poke f s) = (countSymbol c s).map (poke f) := by
  unfold countSymbol
  show (if s.blk.inCount = 0xFFFFFFFF#32 then _ else _) = _
  split <;> rfl

theorem countLoop_poke (n : Nat) : ∀ s : State, countLoop n (poke f s) = (countLoop n s).map (poke f) := by
  induction n with
  | zero => intro s; rfl
  | succ n ih =>
    intro s; simp only [countLoop, srcRead_poke]
    cases srcRead s with
    | none => rfl
    | some p =>
      simp only [Option.map_some]
      rw [countSymbol_poke, Run.map_bind]; intro _ t; exact ih t

theorem readHdrByte_poke (s : State) : readHdrByte (poke f s) = (readHdrByte s).map (poke f) := by
  simp only [readHdrByte, srcRead_poke]
  cases srcRead s <;> rfl

theorem readHdrBytes_poke (n : Nat) : ∀ s : State, readHdrBytes n (poke f s) = (readHdrBytes n s).map (poke f) := by
  induction n with
  | zero => intro s; rfl
  | succ n ih =>
    intro s; simp only [readHdrBytes, readHdrByte_poke]
    rw [Run.map_bind]; intro b t
    rw [ih, Run.map_bind]; intro bs u; rfl

theorem getU32_poke (s : State) : getU32 (poke f s) = (getU32 s).map (poke f) := by
  simp only [getU32, readHdrByte_poke]
  rw [Run.map_bind]; intro b t
  rw [readHdrByte_poke, Run.map_bind]; intro b t
  rw [readHdrByte_poke, Run.map_bind]; intro b t
  rw [readHdrByte_poke, Run.map_bind]; intro b t
  rfl

theorem readEntry_poke (s : State) : readEntry (poke f s) = (readEntry s).map (poke f) := by
  simp only [readEntry, readHdrByte_poke]
  rw [Run.map_bind]; intro b t
  rw [readHdrByte_poke, Run.map_bind]; intro b t
  rw [readHdrBytes_poke, Run.map_bind]; intro b t
  rfl

theorem readEntries_poke (n : Nat) : ∀ (i : Nat) (s : State), readEntries n i (poke f s) = (readEntries n i s).map (poke f) := by
  induction n with
  | zero => intro i s; rfl
  | succ n ih =>
    intro i s; simp only [readEntries, readEntry_poke]
    rw [Run.map_bind]; intro e t; exact ih _ (storeEntry i e t)

theorem deserialize_poke (s : State) : deserialize (poke f s) = (deserialize s).map (poke f) := by
  simp only [deserialize, getU32_poke]
  rw [Run.map_bind]; intro t u
  show (getU32 (poke f (setTotalBits t u))).bind _ = _
  rw [getU32_poke, Run.map_bind]; intro c v
  show readTable t c (poke f (setSymCount c v)) = _
  unfold readTable
  split
  · rfl
  · show (readEntries c.toNat 0 (poke f (clearTable (setSymCount c v)))).bind _ = _
    rw [readEntries_poke, Run.map_bind]; intro _ u; rfl

theorem pushBit_poke (b : Bool) (s : State) : pushBit b (poke f s) = poke f (pushBit b s) := by
  unfold pushBit
  show (if s.blk.pkCnt.val = 7 then _ else _) = _
  split <;> rfl

theorem pushAll_poke (x : Bits) : ∀ s : State, pushAll x (poke f s) = poke f (pushAll x s) := by
  induction x with
  | nil => intro s; rfl
  | cons b x ih => intro s; simp only [pushAll, pushBit_poke]; exact ih _

theorem flushPacker_poke (s : State) : flushPacker (poke f s) = poke f (flushPacker s) := by
  unfold flushPacker
  show (if s.blk.pkCnt.val > 0 then _ else _) = _
  split <;> rfl

theorem pushSymbol_poke (c : Byte) (s : State) : pushSymbol c (poke f s) = (pushSymbol c s).map (poke f) := by
  unfold pushSymbol
  show (match findSym c s.blk with | none => _ | some e => _) = _
  cases findSym c s.blk with
  | none => rfl
  | some e => simp only [pushAll_poke]; rfl

theorem encodeLoop_poke (n : Nat) : ∀ s : State, encodeLoop n (poke f s) = (encodeLoop n s).map (poke f) := by
  induction n with
  | zero => intro s; rfl
  | succ n ih =>
    intro s; simp only [encodeLoop, srcRead_poke]
    cases srcRead s with
    | none => rfl
    | some p =>
      simp only [Option.map_some]
      rw [pushSymbol_poke, Run.map_bind]; intro _ t; exact ih t

/-- No body reads BUSY, OVR, the selector (R52) or the model's own fields. -/
theorem bodyOf_poke (i : Instr) (hr : i ≠ .softReset) (s : State) : bodyOf i (poke f s) = (bodyOf i s).map (poke f) := by
  cases i with
  | softReset => exact absurd rfl hr
  | addSymbol c => exact countSymbol_poke c s
  | countSrc => exact countLoop_poke _ s
  | deserialize => exact deserialize_poke s
  | pushBits n d => simp only [bodyOf, pushAll_poke]; rfl
  | pushCode c => exact pushSymbol_poke c s
  | flush => simp only [bodyOf, flushPacker_poke]; rfl
  | encodeSrc =>
    show (encodeLoop (srcLeft s) (poke f s)).bind _ = _
    rw [encodeLoop_poke, Run.map_bind]
    · rfl
    · intro _ t; simp only [flushPacker_poke]; rfl
  | decodeStep =>
    simp only [bodyOf, decodeStep]
    show (if s.blk.remaining = 0#32 then _ else _) = _
    split
    · rfl
    · exact decodeStepBody_poke s
  | decodeFinish => exact decodeFinishBody_poke s
  | decodeRun => exact decodeAll_poke s
  | makeHeader =>
    simp only [bodyOf, makeHeader]
    show (if encodedBits s.blk > 0x7FFFFFFF then _ else _) = _
    split <;> rfl
  | _ => rfl

end Sys2Proof.Machine
end

