-- ==== Sys2Proof/Laws/Progress.lean ====
section
/-! SUPPORT. The port effects of a command add up to what the command does to the ports (spec/20_memory.md R90, R94). -/

namespace Sys2Proof.Machine

open Sys2Proof

@[simp] theorem bytesRead_nil : bytesRead [] = 0 := rfl

@[simp] theorem bytesWritten_nil : bytesWritten [] = [] := rfl

theorem bytesRead_append (es fs : List PortEffect) : bytesRead (es ++ fs) = bytesRead es + bytesRead fs :=
  List.count_append

theorem bytesWritten_append (es fs : List PortEffect) : bytesWritten (es ++ fs) = bytesWritten es ++ bytesWritten fs :=
  List.filterMap_append

/-- The effects `es` take the ports of `s` to those of `t`. -/
def Carries (s t : State) (es : List PortEffect) : Prop :=
  s.srcPos + bytesRead es = t.srcPos ∧ s.snk ++ bytesWritten es = t.snk

theorem Carries.nil {s t : State} (hp : t.srcPos = s.srcPos) (hk : t.snk = s.snk) : Carries s t [] := by
  simp [Carries, hp, hk]

theorem Carries.append {s t u : State} {es fs : List PortEffect} (h : Carries s t es) (h' : Carries t u fs) :
    Carries s u (es ++ fs) := by
  unfold Carries at *
  rw [bytesRead_append, bytesWritten_append, ← Nat.add_assoc, h.1, ← List.append_assoc, h.2]
  exact h'

/-- A part of the effects leaves the ports between those of `s` and those of `t`. -/
theorem Carries.take {s t : State} {es : List PortEffect} (h : Carries s t es) (n : Nat) :
    s.srcPos + bytesRead (es.take n) ≤ t.srcPos ∧ s.snk ++ bytesWritten (es.take n) <+: t.snk := by
  obtain ⟨h1, h2⟩ := h
  rw [← List.take_append_drop n es, bytesRead_append] at h1
  rw [← List.take_append_drop n es, bytesWritten_append, ← List.append_assoc] at h2
  exact ⟨by omega, _, h2⟩

theorem effectsTo_carries {s t : State} (h : Onward s t) : Carries s t (effectsTo s t) := by
  obtain ⟨h1, _, out, h2⟩ := h
  have hw : ∀ l : List Byte, bytesRead (l.map .write) = 0 := fun l => by simp [bytesRead, List.count_eq_zero]
  have hr : ∀ k, bytesWritten (List.replicate k .read) = [] := fun k => by
    simp [bytesWritten, List.filterMap_replicate, PortEffect.byte]
  have hm : ∀ l : List Byte, bytesWritten (l.map .write) = l := fun l => by
    simp only [bytesWritten, List.filterMap_map]; exact List.filterMap_some
  refine ⟨?_, ?_⟩
  · rw [effectsTo, bytesRead_append, hw, bytesRead, List.count_replicate_self]; omega
  · rw [effectsTo, bytesWritten_append, hr, hm, h2]; simp

theorem effectsTo_self (s : State) : effectsTo s s = [] := by simp [effectsTo]

theorem encodeLoopEffects_carries (n : Nat) : ∀ s : State, Carries s (encodeLoop n s).state (encodeLoopEffects n s) := by
  induction n with
  | zero => intro s; exact .nil rfl rfl
  | succ n ih =>
    intro s; simp only [encodeLoop, encodeLoopEffects]
    cases h : srcRead s with
    | none => exact .nil rfl rfl
    | some p =>
      obtain ⟨b, s'⟩ := p
      have ho : Onward s (pushSymbol b s').state := (srcRead_onward h).2.trans (pushSymbol_state b s').2
      simp only
      cases hp : pushSymbol b s' with
      | raised e t => rw [hp] at ho; exact effectsTo_carries ho
      | done a t => rw [hp] at ho; exact (effectsTo_carries ho).append (ih t)

theorem encodeSourceEffects_carries (s : State) : Carries s (encodeSource s).state (encodeSourceEffects s) := by
  refine (encodeLoopEffects_carries (srcLeft s) s).append (effectsTo_carries ?_)
  unfold encodeSource
  cases encodeLoop (srcLeft s) s with
  | raised e t => exact Onward.refl t
  | done a t => exact (flushPacker_state t).2

theorem decodeFinishBody_ports (s : State) :
    (decodeFinishBody s).state.srcPos = s.srcPos ∧ (decodeFinishBody s).state.snk = s.snk := by
  unfold decodeFinishBody
  split
  · exact ⟨rfl, rfl⟩
  · split <;> exact ⟨rfl, rfl⟩

theorem decodeLoopEffects_carries (n : Nat) : ∀ s : State, Carries s (decodeLoop n s).state (decodeLoopEffects n s) := by
  induction n with
  | zero =>
    intro s; simp only [decodeLoop, decodeLoopEffects]
    split
    · exact .nil (decodeFinishBody_ports s).1 (decodeFinishBody_ports s).2
    · exact effectsTo_carries (decodeStepBody_state s).2
  | succ n ih =>
    intro s; simp only [decodeLoop, decodeLoopEffects]
    split
    · exact .nil (decodeFinishBody_ports s).1 (decodeFinishBody_ports s).2
    · have ho := (decodeStepBody_state s).2
      cases hb : decodeStepBody s with
      | raised e t => rw [hb] at ho; exact effectsTo_carries ho
      | done a t => rw [hb] at ho; exact (effectsTo_carries ho).append (ih t)

/-- Every command's rule only moves the streams forward. -/
theorem bodyOf_onward (i : Instr) (s : State) : Onward s (bodyOf i s).state := by
  have hb := body_cases i s
  have same : ∀ t : State, t.srcPos = s.srcPos → t.src = s.src → t.snk = s.snk → Onward s t := fun t h1 h2 h3 =>
    ⟨h1.ge, by unfold PortInv; rw [h1, h2]; exact id, [], by simp [h3]⟩
  cases i with
  | addSymbol c => exact hb.2.1
  | countSrc => exact hb.2
  | deserialize =>
    rcases hb with ⟨e, u, h1, _, h2⟩ | ⟨t', c', v, u, h1, _, _, _, _, _, h6, h7⟩
    · rw [h1]; exact h2.2
    · rw [h7]
      exact (h1.2.trans (Onward.trans (t := clearTable v) ⟨le_refl _, id, [], by simp⟩ h6.2)).trans
        ⟨le_refl _, id, [], by simp [Run.state]⟩
  | pushBits n d => exact hb.1.2
  | pushCode c => exact hb.1.2
  | flush => exact hb.1.2
  | encodeSrc => exact hb.2
  | decodeStep => exact hb.2
  | decodeFinish => rcases hb with ⟨e, hb⟩ | hb <;> rw [hb] <;> exact same _ rfl rfl rfl
  | decodeRun =>
    rcases hb with ⟨u, h1, h2, _⟩ | ⟨e, u, h1, h2⟩ <;> rw [h1]
    · exact h2.2.trans ⟨le_refl _, id, [], by simp [Run.state]⟩
    · exact h2.2
  | serialize => rw [hb]; exact ⟨le_refl _, id, headerBytes s.cfg.hdrOrder s.blk, rfl⟩
  | makeHeader => rw [hb]; unfold makeHeader; split <;> exact same _ rfl rfl rfl
  | nop => exact Onward.refl s
  | softReset => exact same _ rfl rfl rfl
  | build => exact same _ rfl rfl rfl
  | assignCodes => exact same _ rfl rfl rfl

theorem bodyEffects_carries (i : Instr) (s : State) : Carries s (bodyOf i s).state (bodyEffects i s) := by
  cases i with
  | encodeSrc => exact encodeSourceEffects_carries s
  | decodeRun => exact decodeLoopEffects_carries _ s
  | _ => exact effectsTo_carries (bodyOf_onward _ s)

/-- A command's port effects, all together, are what it does to the ports. -/
theorem commandEffects_carries {i : Instr} {s t : State} (h : exec i s = .next t) : Carries s t (commandEffects i s) := by
  unfold commandEffects
  by_cases hr : i = .softReset
  · subst hr
    obtain rfl : resetBlock s = t := Host.Outcome.next.inj h
    split
    · exact bodyEffects_carries .softReset s
    · exact .nil rfl rfl
  by_cases hn : i = .nop
  · subst hn
    obtain rfl : retire s = t := Host.Outcome.next.inj h
    split
    · exact bodyEffects_carries .nop s
    · exact .nil rfl rfl
  rw [exec_eq_runCommand hn hr] at h
  rcases runCommand_cases h with ⟨h0, rfl⟩ | ⟨h0, rfl⟩ | ⟨h0, hp, hx, h⟩
  · rw [if_neg (by simp [passesChecks, h0])]; exact .nil rfl rfl
  · split
    · rename_i hc
      simp only [passesChecks, Bool.and_eq_true, beq_iff_eq] at hc
      rw [runCommand_runs hc.1.1 hc.1.2 hc.2] at h
      have hb := bodyEffects_carries i s
      rcases conclude_cases h with ⟨u, h1, h2⟩ | ⟨e, u, h1, h2⟩ <;> rw [h1] at hb <;> rw [h2] <;> exact hb
    · exact .nil rfl rfl
  · rw [if_pos (by simp [passesChecks, h0, hp, hx])]
    have hb := bodyEffects_carries i s
    rcases h with ⟨u, h1, rfl⟩ | ⟨e, u, h1, rfl⟩ <;> rw [h1] at hb <;> exact hb

/-! ### The effects do not depend on what no command reads -/

variable {f : Aside → Aside}

theorem Run.state_map (g : State → State) (r : Run Unit) : (r.map g).state = g r.state := by cases r <;> rfl

theorem encodeLoopEffects_poke (n : Nat) : ∀ s : State, encodeLoopEffects n (poke f s) = encodeLoopEffects n s := by
  induction n with
  | zero => intro s; rfl
  | succ n ih =>
    intro s; simp only [encodeLoopEffects, srcRead_poke]
    cases srcRead s with
    | none => rfl
    | some p =>
      simp only [Option.map_some, pushSymbol_poke]
      cases pushSymbol p.1 p.2 with
      | raised e t => rfl
      | done a t => simp only [Run.map, ih]; rfl

theorem encodeSource_poke (s : State) : encodeSource (poke f s) = (encodeSource s).map (poke f) :=
  bodyOf_poke .encodeSrc (by simp) s

theorem decodeLoopEffects_poke (n : Nat) : ∀ s : State, decodeLoopEffects n (poke f s) = decodeLoopEffects n s := by
  induction n with
  | zero =>
    intro s; simp only [decodeLoopEffects, decodeStepBody_poke, Run.state_map]
    rfl
  | succ n ih =>
    intro s; simp only [decodeLoopEffects, decodeStepBody_poke]
    show (if s.blk.remaining = 0#32 then _ else _) = _
    split
    · rfl
    · cases decodeStepBody s with
      | raised e t => rfl
      | done a t => simp only [Run.map, ih]; rfl

theorem bodyEffects_poke (i : Instr) (s : State) : bodyEffects i (poke f s) = bodyEffects i s := by
  by_cases hr : i = .softReset
  · subst hr; rfl
  have hb := bodyOf_poke (f := f) i hr s
  have plain : effectsTo (poke f s) (bodyOf i (poke f s)).state = effectsTo s (bodyOf i s).state := by
    rw [hb, Run.state_map]; rfl
  cases i with
  | encodeSrc =>
    show encodeLoopEffects (srcLeft s) (poke f s) ++ effectsTo (encodeLoop (srcLeft s) (poke f s)).state
      (encodeSource (poke f s)).state = _
    rw [encodeLoopEffects_poke, encodeLoop_poke, encodeSource_poke, Run.state_map, Run.state_map]; rfl
  | decodeRun => exact decodeLoopEffects_poke _ s
  | softReset => exact absurd rfl hr
  | _ => exact plain

theorem commandEffects_poke (i : Instr) (s : State) : commandEffects i (poke f s) = commandEffects i s := by
  have hc : passesChecks i (poke f s).blk = passesChecks i s.blk := by cases i <;> rfl
  unfold commandEffects
  rw [hc, bodyEffects_poke]

theorem pendingEffects_poke {s : State} (h : (f (aside s)).busy = s.blk.busy) :
    pendingEffects (poke f s) = pendingEffects s := by
  unfold pendingEffects
  rw [show (poke f s).blk.busy = s.blk.busy from h]
  simp only [commandEffects_poke]
  rfl

/-! ### The ports at a moment -/

theorem pendingEffects_idle {s : State} (h : s.blk.busy = false) : pendingEffects s = [] := by simp [pendingEffects, h]

theorem portPos_idle {s : State} (h : s.blk.busy = false) : portPos s = s.srcPos := by
  simp [portPos, effectsSoFar, pendingEffects_idle h]

theorem portSink_idle {s : State} (h : s.blk.busy = false) : portSink s = s.snk := by
  simp [portSink, effectsSoFar, pendingEffects_idle h]

theorem portPos_start {s : State} (h : s.progress = 0) : portPos s = s.srcPos := by
  simp [portPos, effectsSoFar, h]

theorem portSink_start {s : State} (h : s.progress = 0) : portSink s = s.snk := by
  simp [portSink, effectsSoFar, h]

/-- With more of the same effects made, the position is no less and the sink has no fewer bytes. -/
theorem ports_grow {s t : State} (hp : t.srcPos = s.srcPos) (hk : t.snk = s.snk)
    (he : pendingEffects t = pendingEffects s) (h : s.progress ≤ t.progress) :
    portPos s ≤ portPos t ∧ portSink s <+: portSink t := by
  obtain ⟨d, hd⟩ := Nat.exists_eq_add_of_le h
  unfold portPos portSink effectsSoFar
  rw [hp, hk, he, hd, List.take_add, bytesRead_append, bytesWritten_append, ← List.append_assoc]
  exact ⟨by omega, _, rfl⟩

theorem portPos_ge {x : Nat} {s : State} (h : s.srcPos = x) : x ≤ portPos s := h ▸ Nat.le_add_right _ _

theorem portSink_prefix {k : List Byte} {s : State} (h : s.snk = k) : k <+: portSink s := h ▸ ⟨_, rfl⟩

/-! ### ENCODE_SRC looks no further than it has read -/

/-- The state with another source. -/
def withSrc (x : List Byte) (s : State) : State := { s with src := x }

theorem pushBit_withSrc (x : List Byte) (b : Bool) (s : State) : pushBit b (withSrc x s) = withSrc x (pushBit b s) := by
  unfold pushBit
  show (if s.blk.pkCnt.val = 7 then _ else _) = _
  split <;> rfl

theorem pushAll_withSrc (x : List Byte) (c : Bits) : ∀ s : State, pushAll c (withSrc x s) = withSrc x (pushAll c s) := by
  induction c with
  | nil => intro s; rfl
  | cons b c ih => intro s; simp only [pushAll, pushBit_withSrc]; exact ih _

theorem pushSymbol_withSrc (x : List Byte) (c : Byte) (s : State) :
    pushSymbol c (withSrc x s) = (pushSymbol c s).map (withSrc x) := by
  unfold pushSymbol
  show (match findSym c s.blk with | none => _ | some e => _) = _
  cases findSym c s.blk with
  | none => rfl
  | some e => simp only [pushAll_withSrc]; rfl

theorem pushSymbol_srcPos (c : Byte) (s : State) :
    (pushSymbol c s).state.srcPos = s.srcPos ∧ (pushSymbol c s).state.src = s.src := by
  have h := (body_cases (.pushCode c) s)
  obtain ⟨p, k, a, n, y, h1⟩ := (pushSymbol_state c s).1.exists
  exact ⟨h.2, by rw [h1]⟩

/-- The loop of ENCODE_SRC ends without an error only at the end of the source. -/
theorem encodeLoop_end (n : Nat) : ∀ {s t : State} {a : Unit}, srcLeft s ≤ n → encodeLoop n s = .done a t → s.src.length ≤ t.srcPos := by
  induction n with
  | zero =>
    intro s t a hn h; cases h
    unfold srcLeft at hn; omega
  | succ n ih =>
    intro s t a hn h
    simp only [encodeLoop] at h
    cases hr : srcRead s with
    | none =>
      rw [hr] at h; cases h
      rw [srcRead_none] at hr; unfold restOfSource at hr
      simpa using hr
    | some p =>
      obtain ⟨b, s'⟩ := p
      obtain ⟨_, rfl⟩ := srcRead_some.1 hr
      rw [hr] at h
      simp only [Run.bind_eq_done] at h
      obtain ⟨_, u, hu, h⟩ := h
      have hp := pushSymbol_srcPos b { s with srcPos := s.srcPos + 1 }
      rw [hu] at hp
      have := ih (s := u) (by unfold srcLeft at *; rw [show u.src = s.src from hp.2, show u.srcPos = s.srcPos + 1 from hp.1]; omega) h
      rw [show u.src = s.src from hp.2] at this
      exact this

/-- One byte of ENCODE_SRC: its read, then the writes of its code. -/
theorem encodeByte_effects {s : State} {b : Byte} {s' : State} (h : srcRead s = some (b, s')) :
    effectsTo s (pushSymbol b s').state
      = .read :: ((pushSymbol b s').state.snk.drop s.snk.length).map .write := by
  obtain ⟨_, rfl⟩ := srcRead_some.1 h
  unfold effectsTo
  rw [(pushSymbol_srcPos b { s with srcPos := s.srcPos + 1 }).1]
  simp

/-- A byte that is within the first `k` is read the same when the source ends after them. -/
theorem srcRead_withSrc {s s' : State} {b : Byte} {k : Nat} (h : srcRead s = some (b, s')) (hk : s.srcPos < k) :
    srcRead (withSrc (s.src.take k) s) = some (b, withSrc (s.src.take k) s') := by
  obtain ⟨h1, rfl⟩ := srcRead_some.1 h
  refine srcRead_some.2 ⟨?_, rfl⟩
  show (s.src.take k)[s.srcPos]? = some b
  rw [List.getElem?_take_of_lt hk, h1]

/-- After `k` port effects the loop of ENCODE_SRC has written a start of what it writes when the source ends after the bytes
those effects have read. -/
theorem encodeLoop_upTo (n : Nat) : ∀ (s : State) (k m : Nat),
    let es := (encodeLoopEffects n s).take k
    bytesRead es ≤ m →
    s.snk ++ bytesWritten es <+: (encodeLoop m (withSrc (s.src.take (s.srcPos + bytesRead es)) s)).state.snk := by
  have onward : ∀ m x (s : State), s.snk <+: (encodeLoop m (withSrc x s)).state.snk := by
    intro m x s; obtain ⟨o, h⟩ := (encodeLoop_state m (withSrc x s)).2.2.2; exact ⟨o, h.symm⟩
  have nothing : ∀ m x (s : State), s.snk ++ bytesWritten [] <+: (encodeLoop m (withSrc x s)).state.snk := by
    intro m x s; simpa using onward m x s
  induction n with
  | zero => intro s k m; simp only [encodeLoopEffects, List.take_nil]; exact fun _ => nothing _ _ s
  | succ n ih =>
    intro s k m
    simp only [encodeLoopEffects]
    cases hr : srcRead s with
    | none => simp only [List.take_nil]; exact fun _ => nothing _ _ s
    | some p =>
      obtain ⟨b, s'⟩ := p
      have he := encodeByte_effects hr
      have hw : Carries s (pushSymbol b s').state (effectsTo s (pushSymbol b s').state) :=
        effectsTo_carries ((srcRead_onward hr).2.trans (pushSymbol_state b s').2)
      have hps := pushSymbol_srcPos b s'
      obtain ⟨_, hs'⟩ := srcRead_some.1 hr
      cases k with
      | zero => simp only [List.take_zero]; exact fun _ => nothing _ _ s
      | succ k =>
        simp only
        cases hp : pushSymbol b s' with
        | raised e t =>
          rw [hp] at he hw
          simp only
          intro hm
          have hw' := (hw.take (k + 1)).2
          have hr1 : 1 ≤ bytesRead ((effectsTo s t).take (k + 1)) := by
            rw [show effectsTo s t = _ from he]; simp [bytesRead]
          obtain ⟨m, rfl⟩ : ∃ m', m = m' + 1 := ⟨m - 1, by omega⟩
          refine hw'.trans ?_
          rw [encodeLoop, srcRead_withSrc hr (by omega)]
          simp only [pushSymbol_withSrc, hp]
          exact List.prefix_refl _
        | done a t =>
          rw [hp] at he hw hps
          simp only [Run.state] at he hw hps
          simp only
          intro hm
          by_cases hk : k + 1 ≤ (effectsTo s t).length
          · rw [List.take_append_of_le_length hk] at hm ⊢
            have hw' := (hw.take (k + 1)).2
            have hr1 : 1 ≤ bytesRead ((effectsTo s t).take (k + 1)) := by
              rw [show effectsTo s t = _ from he]; simp [bytesRead]
            obtain ⟨m, rfl⟩ : ∃ m', m = m' + 1 := ⟨m - 1, by omega⟩
            refine hw'.trans ?_
            rw [encodeLoop, srcRead_withSrc hr (by omega)]
            simp only [pushSymbol_withSrc, hp, Run.map, Run.bind_done]
            exact onward _ _ t
          · have hsplit : (effectsTo s t ++ encodeLoopEffects n t).take (k + 1)
                = effectsTo s t ++ (encodeLoopEffects n t).take (k + 1 - (effectsTo s t).length) := by
              rw [List.take_append, List.take_of_length_le (by omega)]
            rw [hsplit, bytesRead_append] at hm
            rw [hsplit, bytesRead_append, bytesWritten_append, ← List.append_assoc, ← Nat.add_assoc, hw.1, hw.2]
            have h1 : t.srcPos = s.srcPos + 1 := by rw [hps.1, hs']
            have hsrc : t.src = s.src := by rw [hps.2, hs']
            have hone : bytesRead (effectsTo s t) = 1 := by have := hw.1; omega
            obtain ⟨m, rfl⟩ : ∃ m', m = m' + 1 := ⟨m - 1, by omega⟩
            rw [encodeLoop, srcRead_withSrc hr (by omega)]
            simp only [pushSymbol_withSrc, hp, Run.map, Run.bind_done]
            have := ih t (k + 1 - (effectsTo s t).length) m (by omega)
            rw [hsrc] at this
            exact this

end Sys2Proof.Machine
end

