-- ==== Sys2Proof/Laws/Steps.lean ====
section
/-! SUPPORT. What a step of the machine may do (spec/60_exceptions.md R320, R321). -/

namespace Sys2Proof.Machine

open Sys2Proof

/-- Every command only moves the streams forward and leaves the source, the parameters and the host alone. -/
theorem exec_onward {i : Instr} {s t : State} (h : exec i s = .next t) :
    Onward s t ∧ t.cfg = s.cfg ∧ t.src = s.src ∧ t.script = s.script ∧ t.seen = s.seen := by
  by_cases hr : i = .softReset
  · subst hr
    obtain rfl : resetBlock s = t := Host.Outcome.next.inj h
    exact ⟨⟨le_refl _, id, [], by simp⟩, rfl, rfl, rfl, rfl⟩
  · obtain ⟨u, ⟨rfl, h1⟩ | ⟨h0, hn, hp, hx, hu, h1⟩⟩ := exec_body h hr
    · rcases h1 with rfl | ⟨h2, rfl⟩ <;> exact ⟨⟨le_refl _, id, [], by simp⟩, rfl, rfl, rfl, rfl⟩
    · obtain ⟨⟨_, _, _, _, _, _, _, _, _, _, k11, k12⟩, _, g2, _⟩ := body_writes hn hr hp hu
      rcases h1 with ⟨h2, rfl⟩ | ⟨e, h2, rfl⟩ <;> exact ⟨g2, k12.1, k12.2.1, k12.2.2.1, k12.2.2.2.1⟩

/-- The block's step is a command's effect or the illegal word's. -/
theorem blockStep_cases {s t : State} (h : blockStep s = .next t) :
    (∃ i, exec i s = .next t) ∨ (s.blk.errCode = 0#4 ∧ t = errorEntry .illegalCommand s) := by
  unfold blockStep at h
  cases hd : decode s.blk.pending with
  | ok i => rw [hd] at h; exact .inl ⟨i, h⟩
  | error r =>
    rw [hd] at h
    simp only [illegalWord] at h
    split at h
    · exact .inl ⟨.nop, h⟩
    · rename_i h0
      exact .inr ⟨by simpa using h0, (Host.Outcome.next.inj h).symm⟩

/-- The block's step always answers. -/
theorem blockStep_next (s : State) : ∃ t, blockStep s = .next t := by
  unfold blockStep; split
  · exact exec_next _ _
  · unfold illegalWord; split <;> exact ⟨_, rfl⟩

theorem blockStep_onward {s t : State} (h : blockStep s = .next t) :
    Onward s t ∧ t.cfg = s.cfg ∧ t.src = s.src ∧ t.script = s.script ∧ t.seen = s.seen := by
  rcases blockStep_cases h with ⟨i, h⟩ | ⟨_, rfl⟩
  · exact exec_onward h
  · exact ⟨⟨le_refl _, id, [], by simp⟩, rfl, rfl, rfl, rfl⟩

/-- Everything a host move can do. -/
theorem hostMove_cases {m : HostMove} {s t : State} (h : hostMove m s = .next t) :
    (∃ b a v, m = .regWrite b a v ∧ t = regWrite b a v s) ∨ (∃ b a, m = .regRead b a ∧ t = regRead b a s)
    ∨ (∃ bs, m = .presentSource bs ∧ s.blk.busy = false ∧ t = { s with src := bs, srcPos := 0 })
    ∨ (m = .rewindSource ∧ s.blk.busy = false ∧ t = { s with srcPos := 0 })
    ∨ (m = .readSink ∧ t = readSink s) ∨ (m = .hardReset ∧ t = hardReset s) ∨ (m = .awaitIdle ∧ t = s) := by
  cases m with
  | regWrite b a v => exact .inl ⟨b, a, v, rfl, (Host.Outcome.next.inj h).symm⟩
  | regRead b a => exact .inr (.inl ⟨b, a, rfl, (Host.Outcome.next.inj h).symm⟩)
  | presentSource bs =>
    simp only [hostMove, presentSource] at h
    split at h
    · cases h
    · rename_i hb; exact .inr (.inr (.inl ⟨bs, rfl, by simpa using hb, (Host.Outcome.next.inj h).symm⟩))
  | rewindSource =>
    simp only [hostMove, rewindSource] at h
    split at h
    · cases h
    · rename_i hb; exact .inr (.inr (.inr (.inl ⟨rfl, by simpa using hb, (Host.Outcome.next.inj h).symm⟩)))
  | readSink => exact .inr (.inr (.inr (.inr (.inl ⟨rfl, (Host.Outcome.next.inj h).symm⟩))))
  | hardReset => exact .inr (.inr (.inr (.inr (.inr (.inl ⟨rfl, (Host.Outcome.next.inj h).symm⟩)))))
  | awaitIdle => exact .inr (.inr (.inr (.inr (.inr (.inr ⟨rfl, (Host.Outcome.next.inj h).symm⟩)))))

/-- While BUSY = 1 the port effects of the pending word, all together, are what the block's step does to the ports. -/
theorem pendingEffects_carries {s t : State} (hb : s.blk.busy = true) (h : blockStep s = .next t) :
    Carries s t (pendingEffects s) := by
  unfold pendingEffects
  rw [if_pos hb]
  unfold blockStep at h
  cases hd : decode s.blk.pending with
  | ok i => rw [hd] at h; exact commandEffects_carries h
  | error r =>
    rw [hd] at h
    simp only [illegalWord] at h
    split at h <;> obtain rfl := Host.Outcome.next.inj h <;> exact .nil rfl rfl

/-- The ports at a moment lie between those the command in progress began with and those it ends with. -/
theorem ports_between {s t : State} (hb : s.blk.busy = true) (h : blockStep s = .next t) :
    portPos s ≤ t.srcPos ∧ portSink s <+: t.snk :=
  (pendingEffects_carries hb h).take s.progress

/-- The position is within the source at every moment. -/
theorem portPos_le {s : State} (h : PortInv s) : portPos s ≤ s.src.length := by
  by_cases hb : s.blk.busy = true
  · obtain ⟨t, ht⟩ := blockStep_next s
    obtain ⟨h1, _, h2, _⟩ := blockStep_onward ht
    have h3 := h1.2.1 h
    unfold PortInv at h3
    rw [h2] at h3
    exact (ports_between hb ht).1.trans h3
  · rw [portPos_idle (by simpa using hb)]; exact h

/-- What goes on meanwhile: nothing while BUSY = 0, and with BUSY = 1 the command in progress alone, and only forward. -/
theorem progressed_eq (s : State) : ∃ p d, s.progress ≤ p ∧ progressed s = { s with progress := p, draws := d }
    ∧ (s.blk.busy = false → progressed s = s) := by
  unfold progressed
  split
  · rename_i h; exact ⟨_, _, Nat.le_add_right _ _, rfl, fun h' => by rw [h] at h'; cases h'⟩
  · exact ⟨s.progress, s.draws, le_refl _, rfl, fun _ => rfl⟩

/-- A register write changes the handshake and the selector only; when it is a command's acceptance, the command begins. -/
theorem regWrite_eq (b : Nat) (a : Byte) (v : Word) (s : State) : ∃ bz pe ov si sw pr, regWrite b a v s =
    { s with blk := { s.blk with busy := bz, pending := pe, ovr := ov, selIndex := si, selWord := sw }, progress := pr }
    ∧ ((bz = s.blk.busy ∧ pe = s.blk.pending ∧ pr = s.progress) ∨ (s.blk.busy = false ∧ pr = 0)) := by
  unfold regWrite
  split
  · exact ⟨_, _, _, _, _, _, rfl, .inl ⟨rfl, rfl, rfl⟩⟩
  · split
    · unfold writeCmd
      split
      · exact ⟨_, _, _, _, _, _, rfl, .inl ⟨rfl, rfl, rfl⟩⟩
      · rename_i h; exact ⟨_, _, _, _, _, _, rfl, .inr ⟨by simpa using h, rfl⟩⟩
    · split
      · exact ⟨_, _, _, _, _, _, rfl, .inl ⟨rfl, rfl, rfl⟩⟩
      · exact ⟨_, _, _, _, _, _, rfl, .inl ⟨rfl, rfl, rfl⟩⟩

/-- The state a host move meets: the script without it, and the command in progress gone on. -/
theorem hostStep_cases {s t : State} (h : hostStep s = .next t) :
    (s.script = [] ∧ t = s) ∨ ∃ m ms p d, s.script = m :: ms ∧ s.progress ≤ p
      ∧ hostMove m { s with script := ms, progress := p, draws := d } = .next t := by
  unfold hostStep at h
  split at h
  · rename_i hs; exact .inl ⟨hs, (Host.Outcome.next.inj h).symm⟩
  · rename_i m ms hs
    obtain ⟨p, d, h1, h2, _⟩ := progressed_eq { s with script := ms }
    rw [h2] at h
    exact .inr ⟨m, ms, p, d, hs, h1, h⟩

/-- Everything a step can do to the block and the streams. -/
theorem step_cases {s t : State} (h : step s = .next t) :
    (blockTurn s = true ∧ ((∃ i, exec i s = .next t) ∨ (s.blk.errCode = 0#4 ∧ t = errorEntry .illegalCommand s)))
    ∨ (blockTurn s = false ∧ (t.blk = Block.reset ∨ ∃ bz pe ov si sw, t.blk =
        { s.blk with busy := bz, pending := pe, ovr := ov, selIndex := si, selWord := sw })
      ∧ (PortInv s → PortInv t) ∧ (∃ out, t.snk = s.snk ++ out) ∧ t.cfg = s.cfg ∧ (t.blk = Block.reset ∨ t.snk = s.snk)) := by
  unfold step at h
  split at h
  · rename_i hb; exact .inl ⟨hb, blockStep_cases h⟩
  · rename_i hb
    refine .inr ⟨by simpa using hb, ?_⟩
    rcases hostStep_cases h with ⟨_, rfl⟩ | ⟨m, ms, p, d, _, _, h⟩
    · exact ⟨.inr ⟨_, _, _, _, _, rfl⟩, id, ⟨[], by simp⟩, rfl, .inr rfl⟩
    · rcases hostMove_cases h with ⟨b, a, v, _, rfl⟩ | ⟨b, a, _, rfl⟩ | ⟨bs, _, _, rfl⟩ | ⟨_, _, rfl⟩ | ⟨_, rfl⟩ | ⟨_, rfl⟩ | ⟨_, rfl⟩
      · obtain ⟨bz, pe, ov, si, sw, pr, h, _⟩ := regWrite_eq b a v { s with script := ms, progress := p, draws := d }
        rw [h]; exact ⟨.inr ⟨_, _, _, _, _, rfl⟩, id, ⟨[], by simp⟩, rfl, .inr rfl⟩
      · exact ⟨.inr ⟨_, _, _, _, _, rfl⟩, id, ⟨[], by simp [regRead]⟩, rfl, .inr rfl⟩
      · exact ⟨.inr ⟨_, _, _, _, _, rfl⟩, fun _ => by simp [PortInv], ⟨[], by simp⟩, rfl, .inr rfl⟩
      · exact ⟨.inr ⟨_, _, _, _, _, rfl⟩, fun _ => by simp [PortInv], ⟨[], by simp⟩, rfl, .inr rfl⟩
      · exact ⟨.inr ⟨_, _, _, _, _, rfl⟩, id, ⟨[], by simp [readSink]⟩, rfl, .inr rfl⟩
      · exact ⟨.inl rfl, fun hp => portPos_le (s := { s with script := ms, progress := p, draws := d }) hp, ⟨_, rfl⟩, rfl, .inl rfl⟩
      · exact ⟨.inr ⟨_, _, _, _, _, rfl⟩, id, ⟨[], by simp⟩, rfl, .inr rfl⟩

/-- The hardware reset moves neither port (R53, R340). -/
theorem hardReset_ports (s : State) : portPos (hardReset s) = portPos s ∧ portSink (hardReset s) = portSink s :=
  ⟨portPos_idle rfl, portSink_idle rfl⟩

/-- A host move but a new source or a rewind leaves the ports as far on as they were, and moves neither back; no move shows
the sink with fewer bytes (R53, R82, R83). -/
theorem hostMove_ports {m : HostMove} {s t : State} (h : hostMove m s = .next t) :
    portSink s <+: portSink t ∧ (m ≠ .rewindSource → (∀ bs, m ≠ .presentSource bs) → portPos s ≤ portPos t) := by
  rcases hostMove_cases h with ⟨b, a, v, _, rfl⟩ | ⟨b, a, _, rfl⟩ | ⟨bs, rfl, hb, rfl⟩ | ⟨rfl, hb, rfl⟩ | ⟨_, rfl⟩ | ⟨_, rfl⟩ | ⟨_, rfl⟩
  · obtain ⟨bz, pe, ov, si, sw, pr, h, ⟨rfl, rfl, rfl⟩ | ⟨hb, rfl⟩⟩ := regWrite_eq b a v s
    · rw [h]
      have g := ports_grow (s := s) (t := poke (fun x => { x with ovr := ov, selIndex := si, selWord := sw }) s) rfl rfl
        (pendingEffects_poke rfl) (le_refl _)
      exact ⟨g.2, fun _ _ => g.1⟩
    · rw [h, portSink_idle hb, portPos_idle hb]
      exact ⟨portSink_prefix rfl, fun _ _ => portPos_ge rfl⟩
  · have g := ports_grow (s := s) (t := poke (fun x => { x with seen := (regRead b a s).seen, draws := s.draws + 1 }) s) rfl rfl
      (pendingEffects_poke rfl) (le_refl _)
    exact ⟨g.2, fun _ _ => g.1⟩
  · refine ⟨?_, fun _ h => absurd rfl (h bs)⟩
    rw [portSink_idle hb]; exact portSink_prefix rfl
  · refine ⟨?_, fun h => absurd rfl h⟩
    rw [portSink_idle hb]; exact portSink_prefix rfl
  · have g := ports_grow (s := s) (t := poke (fun x => { x with seen := (readSink s).seen }) s) rfl rfl
      (pendingEffects_poke rfl) (le_refl _)
    exact ⟨g.2, fun _ _ => g.1⟩
  · rw [(hardReset_ports s).1, (hardReset_ports s).2]
    exact ⟨List.prefix_refl _, fun _ _ => le_refl _⟩
  · exact ⟨List.prefix_refl _, fun _ _ => le_refl _⟩

/-- What the host can see of the sink only grows, and the position moves back only by a new source or a rewind (R53, R83). -/
theorem step_ports {s t : State} (h : step s = .next t) :
    portSink s <+: portSink t ∧ (blockTurn s = true ∨ (∀ m ms, s.script = m :: ms → m ≠ .rewindSource ∧ ∀ bs, m ≠ .presentSource bs) →
      portPos s ≤ portPos t) := by
  unfold step at h
  split at h
  · rename_i hb
    have hb' : s.blk.busy = true := by
      unfold blockTurn at hb; simp only [Bool.and_eq_true] at hb; exact hb.1
    have g := ports_between hb' h
    have ht := portSink_prefix (s := t) rfl
    have hp := portPos_ge (s := t) rfl
    exact ⟨g.2.trans ht, fun _ => g.1.trans hp⟩
  · rename_i hb
    rcases hostStep_cases h with ⟨_, rfl⟩ | ⟨m, ms, p, d, hs, hp, h⟩
    · exact ⟨List.prefix_refl _, fun _ => le_refl _⟩
    · have g := ports_grow (s := s) (t := poke (fun x => { x with script := ms, progress := p, draws := d }) s) rfl rfl
        (pendingEffects_poke rfl) hp
      have g' := hostMove_ports h
      refine ⟨g.2.trans g'.1, fun hk => g.1.trans ?_⟩
      rcases hk with hk | hk
      · exact absurd hk hb
      · exact g'.2 (hk m ms hs).1 (hk m ms hs).2

end Sys2Proof.Machine
end

