-- ==== Sys2Proof/Laws/Invariants.lean ====
section
/-! SUPPORT. How the invariants of the counts, the packer and the decoder are kept (spec/10_state.md R71). -/

namespace Sys2Proof.Machine

open Sys2Proof

/-- The sum of the frequencies after one of them is changed. -/
theorem sum_set (f : Vector Word 256) (c : Byte) (v : Word) :
    ((f.set c.toNat v c.isLt).toList.map fun w => w.toNat).sum + (freqAt f c).toNat = (f.toList.map fun w => w.toNat).sum + v.toNat := by
  have key : ∀ (l : List Word) (n : Nat) (h : n < l.length), ((l.set n v).map fun w => w.toNat).sum + (l[n]).toNat = (l.map fun w => w.toNat).sum + v.toNat := by
    intro l
    induction l with
    | nil => intro n h; simp at h
    | cons a l ih =>
      intro n h
      cases n with
      | zero => simp; omega
      | succ n =>
        have := ih n (by simpa using h)
        simp only [List.set_cons_succ, List.map_cons, List.sum_cons, List.getElem_cons_succ]; omega
  have h := key f.toList c.toNat (by simpa using c.isLt)
  simpa [freqAt, Vector.toList_set] using h

theorem freq_le_sum (f : Vector Word 256) (c : Byte) : (freqAt f c).toNat ≤ (f.toList.map fun w => w.toNat).sum := by
  have h := sum_set f c 0#32
  simp only [BitVec.toNat_ofNat] at h; omega

/-- Counting keeps IN_COUNT the sum of the frequencies. -/
theorem countInv_countOne {c : Byte} {s : State} (h : CountInv s.blk) (hm : s.blk.inCount ≠ 0xFFFFFFFF#32) : CountInv (countOne c s).blk := by
  unfold CountInv at *
  have h1 := freq_le_sum s.blk.freq c
  have h2 := sum_set s.blk.freq c (freqAt s.blk.freq c + 1#32)
  have h3 : s.blk.inCount.toNat ≠ 0xFFFFFFFF := fun h => hm (BitVec.eq_of_toNat_eq h)
  have h4 := s.blk.inCount.isLt
  have e1 : (freqAt s.blk.freq c + 1#32).toNat = (freqAt s.blk.freq c).toNat + 1 := by
    simp only [BitVec.toNat_add, BitVec.toNat_ofNat]; omega
  have e2 : (countOne c s).blk.inCount.toNat = s.blk.inCount.toNat + 1 := by
    simp only [countOne_blk, BitVec.toNat_add, BitVec.toNat_ofNat]; omega
  rw [e2]
  show _ = ((s.blk.freq.set c.toNat (freqAt s.blk.freq c + 1#32) c.isLt).toList.map fun w => w.toNat).sum
  omega

theorem countInv_countSymbol {c : Byte} {s : State} (h : CountInv s.blk) : CountInv (countSymbol c s).state.blk := by
  unfold countSymbol; split
  · exact h
  · exact countInv_countOne h ‹_›

theorem countInv_countLoop (n : Nat) : ∀ s : State, CountInv s.blk → CountInv (countLoop n s).state.blk := by
  induction n with
  | zero => intro s h; exact h
  | succ n ih =>
    intro s h; simp only [countLoop]
    cases hr : srcRead s with
    | none => exact h
    | some p =>
      obtain ⟨b, s'⟩ := p
      obtain ⟨rfl, _⟩ := srcRead_onward hr
      have h' := countInv_countSymbol (c := b) (s := { s with srcPos := s.srcPos + 1 }) h
      simp only
      cases hc : countSymbol b { s with srcPos := s.srcPos + 1 } with
      | done a u => rw [hc] at h'; exact ih u h'
      | raised e u => rw [hc] at h'; exact h'

/-- An invariant of the block that ignores the handshake, the error registers and the selector is kept by every step when every body keeps it. -/
theorem step_keeps {P : Block → Prop}
    (hreset : P Block.reset)
    (hhand : ∀ b bz pe ov si sw, P b → P { b with busy := bz, pending := pe, ovr := ov, selIndex := si, selWord := sw })
    (herr : ∀ b e c, P b → P { b with errCode := e, errCmd := c, busy := false })
    (hbody : ∀ i s, i ≠ .nop → i ≠ .softReset → phaseLegal i s.blk.phase = true → extraLegal i s.blk = true → s.blk.errCode = 0#4 → P s.blk → P (bodyOf i s).state.blk)
    {s t : State} (h : step s = .next t) (hs : P s.blk) : P t.blk := by
  have hret : ∀ b : Block, P b → P { b with busy := false } := fun b h => hhand b false b.pending b.ovr b.selIndex b.selWord h
  rcases step_cases h with ⟨_, ⟨i, h⟩ | ⟨h1, rfl⟩⟩ | ⟨_, h1 | ⟨_, _, _, _, _, h1⟩, _⟩
  · by_cases hr : i = .softReset
    · subst hr
      obtain rfl : resetBlock s = t := Host.Outcome.next.inj h
      exact hreset
    · obtain ⟨u, ⟨rfl, h1⟩ | ⟨h0, hn, hp, hx, hu, h1⟩⟩ := exec_body h hr
      · rcases h1 with rfl | ⟨h2, rfl⟩
        · exact hret _ hs
        · exact herr _ _ _ hs
      · have := hbody i s hn hr hp hx h0 hs
        rw [hu] at this
        rcases h1 with ⟨h2, rfl⟩ | ⟨e, h2, rfl⟩
        · exact hret _ this
        · exact herr _ _ _ this
  · exact herr _ _ _ hs
  · rw [h1]; exact hreset
  · rw [h1]; exact hhand _ _ _ _ _ _ hs

theorem packerInv_emitPacked (a : Byte) (s : State) : PackerInv (emitPacked a s).blk := by
  intro k _; simp [emitPacked, State.withBlk]

theorem packerInv_pushBit {b : Bool} {s : State} (h : PackerInv s.blk) : PackerInv (pushBit b s).blk := by
  unfold pushBit
  split
  · exact packerInv_emitPacked _ s
  · rename_i hc
    have hlt := s.blk.pkCnt.isLt
    intro k hk
    have hv : (s.blk.pkCnt.val + 1) % 8 = s.blk.pkCnt.val + 1 := by omega
    simp only [State.withBlk, Fin.ofNat, hv] at hk ⊢
    rw [getLsbD_setByteBit _ _ _ _ (by omega), if_neg (by omega)]
    exact h k (by omega)

theorem packerInv_pushAll (x : Bits) : ∀ s : State, PackerInv s.blk → PackerInv (pushAll x s).blk := by
  induction x with
  | nil => intro s h; exact h
  | cons b x ih => intro s h; exact ih _ (packerInv_pushBit h)

theorem packerInv_flushPacker {s : State} (h : PackerInv s.blk) : PackerInv (flushPacker s).blk := by
  unfold flushPacker; split
  · exact packerInv_emitPacked _ s
  · exact h

theorem packerInv_pushSymbol {c : Byte} {s : State} (h : PackerInv s.blk) : PackerInv (pushSymbol c s).state.blk := by
  unfold pushSymbol
  cases findSym c s.blk with
  | none => exact h
  | some e => exact packerInv_pushAll _ s h

theorem packerInv_encodeLoop (n : Nat) : ∀ s : State, PackerInv s.blk → PackerInv (encodeLoop n s).state.blk := by
  induction n with
  | zero => intro s h; exact h
  | succ n ih =>
    intro s h; simp only [encodeLoop]
    cases hr : srcRead s with
    | none => exact h
    | some p =>
      obtain ⟨b, s'⟩ := p
      obtain ⟨rfl, _⟩ := srcRead_onward hr
      have h' := packerInv_pushSymbol (c := b) (s := { s with srcPos := s.srcPos + 1 }) h
      simp only
      cases hc : pushSymbol b { s with srcPos := s.srcPos + 1 } with
      | done a u => rw [hc] at h'; exact ih u h'
      | raised e u => rw [hc] at h'; exact h'

theorem decoderInv_reset : DecoderInv Block.reset := by
  refine ⟨fun _ => ⟨rfl, rfl, rfl⟩, by decide, fun _ => .inr rfl, ⟨by decide, by decide⟩, fun _ => rfl, fun h => ?_⟩
  rcases h with h | h <;> cases h

theorem decoderInv_of_going {s : State} (hg : Going s) (ho : s.blk.remaining.toNat ≤ s.blk.totalBits.toNat) : DecoderInv s.blk := by
  have hz : s.blk.remaining = 0#32 → s.blk.remaining.toNat = 0 := fun h => by rw [h]; rfl
  refine ⟨?_, ?_, ?_, ⟨?_, ?_⟩, ?_, fun _ => ho⟩
  · intro h; rw [hg.phase] at h; rcases h with h | h | h <;> cases h
  · rcases hg.owed with h | ⟨h1, h2⟩
    · omega
    · rw [h2]; simp
  · intro _; rcases hg.owed with h | ⟨h1, h2⟩
    · exact .inl h
    · exact .inr h1
  · have := hg.short; omega
  · have := hg.short
    constructor
    · intro h; omega
    · intro h; rw [hg.err] at h; cases h
  · intro h; rw [hg.phase] at h; cases h

theorem decodeStepBody_decoderInv {s : State} (hg : Going s) (hr : s.blk.remaining ≠ 0#32) (ho : s.blk.remaining.toNat ≤ s.blk.totalBits.toNat) :
    (∀ t, decodeStepBody s = .done () t → Going t ∧ t.blk.remaining.toNat ≤ t.blk.totalBits.toNat)
    ∧ (∀ e t, decodeStepBody s = .raised e t → DecoderInv (errorEntry e t).blk) := by
  have howed : s.blk.cand.length < s.blk.remaining.toNat := by
    rcases hg.owed with h | h
    · exact h
    · exact absurd h.1 hr
  constructor
  · intro t h
    obtain ⟨h1, h2, _, _, _, _, _, h3⟩ := decodeStepBody_going hg hr h
    refine ⟨h1, ?_⟩
    have : t.blk.totalBits = s.blk.totalBits := by rw [h2]
    rw [this]; omega
  · intro e t h
    have hsh := hg.short
    have mk : ∀ (e : ErrKind) (t : State), t.blk.phase = .ready → t.blk.cand.length ≤ t.blk.remaining.toNat → t.blk.cand.length ≤ 256 →
        (t.blk.cand.length = 256 ↔ e.code = 3#4) → t.blk.remaining.toNat ≤ t.blk.totalBits.toNat → DecoderInv (errorEntry e t).blk := by
      intro e t h1 h2 h3 h4 h5
      refine ⟨?_, h2, fun h => absurd h (errCode_errorEntry _ _), ⟨h3, h4⟩, ?_, fun _ => h5⟩
      · intro h; have h : t.blk.phase = .count ∨ t.blk.phase = .built ∨ t.blk.phase = .coded := h
        rw [h1] at h; rcases h with h | h | h <;> cases h
      · intro h; have h : t.blk.phase = .done := h; rw [h1] at h; cases h
    rcases decodeStepBody_cases s with ⟨_, h1⟩ | ⟨b, bs, t', _, _, hf, _, _, ⟨_, _, h1⟩ | ⟨_, hl, h1⟩ | ⟨_, hl, hl2, h1⟩ | ⟨_, _, _, h1⟩⟩ <;> rw [h1] at h
    · obtain ⟨rfl, rfl⟩ := Run.raised.inj h
      exact mk _ _ hg.phase (by omega) (by omega) ⟨fun h => by omega, fun h => by cases h⟩ ho
    · cases h
    · obtain ⟨rfl, rfl⟩ := Run.raised.inj h
      obtain ⟨p, x, c, q, rfl⟩ := hf.exists
      exact mk _ _ hg.phase (by simp [growCand, State.withBlk]; omega) (by simp [growCand, State.withBlk]; omega)
        ⟨fun _ => rfl, fun _ => by simp [growCand, State.withBlk]; omega⟩ ho
    · obtain ⟨rfl, rfl⟩ := Run.raised.inj h
      obtain ⟨p, x, c, q, rfl⟩ := hf.exists
      exact mk _ _ hg.phase (by simp [growCand, State.withBlk]; omega) (by simp [growCand, State.withBlk]; omega)
        ⟨fun h => by simp [growCand, State.withBlk] at h; omega, fun h => by cases h⟩ ho
    · cases h

/-- A decode run ends with the decoder's counters in order. -/
def RunInv (r : Run Unit) : Prop :=
  (∃ u, r = .done () u ∧ DecoderInv u.blk) ∨ ∃ e u, r = .raised e u ∧ DecoderInv (errorEntry e u).blk

theorem decodeAll_runInv (n : Nat) : ∀ s : State, bitsLeft s = n → Going s → s.blk.remaining.toNat ≤ s.blk.totalBits.toNat → RunInv (decodeAll s) := by
  have fin : ∀ s : State, Going s → s.blk.remaining.toNat ≤ s.blk.totalBits.toNat → s.blk.remaining = 0#32 → RunInv (decodeFinishBody s) := by
    intro s hg ho hr
    have hi := decoderInv_of_going hg ho
    have hsh := hg.short
    have herr : DecoderInv (errorEntry .trailingOrMissingData s).blk := by
      refine ⟨hi.idle, hi.bounded, fun _ => .inr hr, ⟨hi.corrupt.1, fun h => ?_, fun h => by cases h⟩, fun _ => hr, fun _ => ho⟩
      have h : s.blk.cand.length = 256 := h
      omega
    unfold decodeFinishBody
    split
    · exact .inr ⟨_, _, rfl, herr⟩
    · split
      · exact .inr ⟨_, _, rfl, herr⟩
      · refine .inl ⟨_, rfl, ⟨?_, hi.bounded, fun _ => .inr hr, hi.corrupt, fun _ => hr, fun _ => ho⟩⟩
        intro h; rcases h with h | h | h <;> cases h
  induction n with
  | zero =>
    intro s hs hg ho
    rw [decodeAll_eq]; split
    · exact fin s hg ho ‹_›
    · rename_i hr
      cases hb : decodeStepBody s with
      | done a t => have := (decodeStepBody_done hb).1; omega
      | raised e t => exact .inr ⟨e, t, rfl, (decodeStepBody_decoderInv hg hr ho).2 e t hb⟩
  | succ n ih =>
    intro s hs hg ho
    rw [decodeAll_eq]; split
    · exact fin s hg ho ‹_›
    · rename_i hr
      cases hb : decodeStepBody s with
      | done a t =>
        have h1 := (decodeStepBody_done hb).1
        obtain ⟨h2, h3⟩ := (decodeStepBody_decoderInv hg hr ho).1 t hb
        exact ih t (by omega) h2 h3
      | raised e t => exact .inr ⟨e, t, rfl, (decodeStepBody_decoderInv hg hr ho).2 e t hb⟩

end Sys2Proof.Machine
end

