-- ==== Sys2Proof/Laws/Merge.lean ====
section
/-! SUPPORT. The tree BUILD makes (spec/40_tree_builder.md R134 to R142). -/

namespace Sys2Proof.Machine

open Sys2Proof

/-- The leaves are those of the counted symbols (R132, R136). -/
theorem leafNodes_eq (f : Vector Word 256) : leafNodes f = (countedSymbols f).map fun c => leafNode (freqAt f c) c := by
  unfold leafNodes countedSymbols
  generalize List.range 256 = l
  induction l with
  | nil => rfl
  | cons k l ih =>
    rw [List.filterMap_cons, List.map_cons, List.filter_cons]
    by_cases h : freqAt f (BitVec.ofNat 8 k) = 0#32
    · rw [if_pos h, if_neg (by simp [h])]; exact ih
    · rw [if_neg h, if_pos (by simp [h])]; simp only [List.map_cons, ih]

theorem countedSymbols_length (f : Vector Word 256) : (countedSymbols f).length ≤ 256 := by
  unfold countedSymbols
  exact le_trans (List.length_filter_le _ _) (by simp)

theorem countedSymbols_sorted (f : Vector Word 256) : (countedSymbols f).Pairwise (· < ·) := by
  unfold countedSymbols
  apply List.Pairwise.filter
  rw [List.pairwise_map]
  have : (List.range 256).Pairwise fun a b => a < b ∧ b < 256 := by
    rw [List.pairwise_iff_getElem]
    intro i j hi hj hij
    simp only [List.length_range] at hi hj
    simp only [List.getElem_range]; omega
  refine this.imp fun {a b} h => ?_
  rw [BitVec.lt_def]; simp only [BitVec.toNat_ofNat]; omega

theorem mem_countedSymbols (f : Vector Word 256) (c : Byte) : c ∈ countedSymbols f ↔ freqAt f c ≠ 0#32 := by
  unfold countedSymbols
  simp only [List.mem_filter, List.mem_map, List.mem_range, bne_iff_ne, ne_eq, and_iff_right_iff_imp]
  intro _
  exact ⟨c.toNat, c.isLt, by simp⟩

/-- What placing nodes leaves at each index. -/
theorem placeNodes_get (xs : List Node) : ∀ (node : Vector Node 511) (k : Nat) (i : Fin 511),
    (placeNodes node k xs)[i] = if h : k ≤ i.val ∧ i.val < k + xs.length then xs[i.val - k]'(by omega) else node[i] := by
  induction xs with
  | nil => intro node k i; simp [placeNodes]
  | cons x xs ih =>
    intro node k i
    rw [placeNodes, ih]
    by_cases h : k + 1 ≤ i.val ∧ i.val < k + 1 + xs.length
    · rw [dif_pos h, dif_pos (by simp; omega)]
      rw [List.getElem_cons, dif_neg (by omega)]
      congr 1
    · rw [dif_neg h]
      by_cases h2 : i.val = k
      · rw [dif_pos (by simp; omega)]
        have e : (node.setIfInBounds k x)[i] = x := by
          simp only [Fin.getElem_fin, Vector.getElem_setIfInBounds]
          rw [if_pos h2.symm]
        rw [e, List.getElem_cons, dif_pos (by omega)]
      · rw [dif_neg (by simp; omega)]
        simp only [Fin.getElem_fin, Vector.getElem_setIfInBounds]
        rw [if_neg (fun h => h2 h.symm)]

theorem node_set (node : Vector Node 511) (k : Nat) (x : Node) (_ : k < 511) (i : Fin 511) :
    (node.setIfInBounds k x)[i] = if i.val = k then x else node[i] := by
  simp only [Fin.getElem_fin, Vector.getElem_setIfInBounds]
  by_cases h : k = i.val
  · rw [if_pos h, if_pos h.symm]
  · rw [if_neg h, if_neg (fun h' => h h'.symm)]

/-- The order of R137, as a proposition. -/
def Before (node : Vector Node 511) (i j : Fin 511) : Prop :=
  node[i].weight.toNat < node[j].weight.toNat ∨ node[i].weight = node[j].weight ∧ i.val < j.val

theorem nodeBefore_iff (node : Vector Node 511) (i j : Fin 511) : nodeBefore node i j = true ↔ Before node i j := by
  unfold nodeBefore Before
  simp

theorem Before.trans {node : Vector Node 511} {i j k : Fin 511} (h : Before node i j) (h' : Before node j k) : Before node i k := by
  unfold Before at *
  rcases h with h | ⟨h, g⟩ <;> rcases h' with h' | ⟨h', g'⟩
  · exact .inl (by omega)
  · exact .inl (by rw [← h']; exact h)
  · exact .inl (by rw [h]; exact h')
  · exact .inr ⟨h.trans h', by omega⟩

theorem Before.total {node : Vector Node 511} {i j : Fin 511} (h : i ≠ j) : Before node i j ∨ Before node j i := by
  unfold Before
  by_cases h1 : node[i].weight.toNat < node[j].weight.toNat
  · exact .inl (.inl h1)
  · by_cases h2 : node[j].weight.toNat < node[i].weight.toNat
    · exact .inr (.inl h2)
    · have h3 : node[i].weight = node[j].weight := BitVec.eq_of_toNat_eq (by omega)
      have : i.val ≠ j.val := fun h' => h (Fin.ext h')
      by_cases h4 : i.val < j.val
      · exact .inl (.inr ⟨h3, h4⟩)
      · exact .inr (.inr ⟨h3.symm, by omega⟩)

/-- The node of least key comes before every other (R137). -/
theorem leastNode_spec (node : Vector Node 511) (l : List (Fin 511)) :
    (l = [] ∧ leastNode node l = none) ∨ ∃ a, leastNode node l = some a ∧ a ∈ l ∧ ∀ i ∈ l, i ≠ a → Before node a i := by
  induction l with
  | nil => exact .inl ⟨rfl, rfl⟩
  | cons i l ih =>
    right
    rcases ih with ⟨rfl, h⟩ | ⟨a, h, ha, hl⟩
    · exact ⟨i, by simp [leastNode], by simp, by simp⟩
    · simp only [leastNode, h]
      by_cases hb : nodeBefore node a i = true
      · rw [if_pos hb]
        refine ⟨a, rfl, by simp [ha], ?_⟩
        intro j hj hne
        rcases List.mem_cons.1 hj with rfl | hj
        · exact (nodeBefore_iff _ _ _).1 hb
        · exact hl j hj hne
      · rw [if_neg hb]
        refine ⟨i, rfl, by simp, ?_⟩
        intro j hj hne
        rcases List.mem_cons.1 hj with rfl | hj
        · exact absurd rfl hne
        · have hb' : ¬ Before node a i := fun h => hb ((nodeBefore_iff _ _ _).2 h)
          by_cases hja : j = a
          · subst hja
            rcases Before.total (node := node) hne with h | h
            · exact absurd h hb'
            · exact h
          · have h1 := hl j hj hja
            by_cases hia : i = a
            · subst hia; exact h1
            · rcases Before.total (node := node) hia with h | h
              · exact h.trans h1
              · exact absurd h hb'

/-- Node i is made and not merged when node k is made. -/
def UnmergedBelow (node : Vector Node 511) (n k : Nat) (i : Fin 511) : Prop :=
  i.val < k ∧ ∀ j : Fin 511, n ≤ j.val → j.val < k → node[j].left ≠ i ∧ node[j].right ≠ i

theorem UnmergedBelow.congr {node node' : Vector Node 511} {n k : Nat} {i : Fin 511} (h : ∀ j : Fin 511, j.val < k → node'[j] = node[j]) :
    UnmergedBelow node' n k i ↔ UnmergedBelow node n k i := by
  unfold UnmergedBelow
  constructor
  · rintro ⟨h1, h2⟩; refine ⟨h1, fun j a b => ?_⟩; rw [← h j b]; exact h2 j a b
  · rintro ⟨h1, h2⟩; refine ⟨h1, fun j a b => ?_⟩; rw [h j b]; exact h2 j a b

theorem Before.congr {node node' : Vector Node 511} {i j : Fin 511} (hi : node'[i] = node[i]) (hj : node'[j] = node[j]) :
    Before node' i j ↔ Before node i j := by unfold Before; rw [hi, hj]

/-- Node k merges the two least. -/
def Greedy (node : Vector Node 511) (n : Nat) (k : Fin 511) : Prop :=
  ∃ a b : Fin 511, node[k] = ⟨node[a].weight + node[b].weight, false, 0#8, a, b⟩
    ∧ UnmergedBelow node n k.val a ∧ UnmergedBelow node n k.val b ∧ Before node a b
    ∧ ∀ i : Fin 511, UnmergedBelow node n k.val i → i ≠ a → i ≠ b → Before node b i

theorem Greedy.congr {node node' : Vector Node 511} {n : Nat} {k : Fin 511} (h : ∀ j : Fin 511, j.val ≤ k.val → node'[j] = node[j])
    (hg : Greedy node n k) : Greedy node' n k := by
  obtain ⟨a, b, h1, h2, h3, h4, h5⟩ := hg
  have hlt : ∀ j : Fin 511, j.val < k.val → node'[j] = node[j] := fun j hj => h j (by omega)
  have ha := h a (by have := h2.1; omega)
  have hb := h b (by have := h3.1; omega)
  refine ⟨a, b, by rw [h k (le_refl _), ha, hb]; exact h1, (UnmergedBelow.congr hlt).2 h2, (UnmergedBelow.congr hlt).2 h3, (Before.congr ha hb).2 h4, ?_⟩
  intro i hi hia hib
  have hi' := (UnmergedBelow.congr hlt).1 hi
  exact (Before.congr hb (h i (by have := hi'.1; omega))).2 (h5 i hi' hia hib)

/-- The merge loop's invariant from `n` leaves on: the pool is what has been made and not merged, every merge took the two least, and nothing else changed. -/
structure ForestInv (n : Nat) (node0 : Vector Node 511) (f : Forest) : Prop where
  ge : n ≤ f.next
  count : f.next + f.pool.length = 2 * n
  nodup : f.pool.Nodup
  mem : ∀ i, i ∈ f.pool ↔ UnmergedBelow f.node n f.next i
  merged : ∀ k : Fin 511, n ≤ k.val → k.val < f.next → Greedy f.node n k
  rest : ∀ i : Fin 511, i.val < n ∨ f.next ≤ i.val → f.node[i] = node0[i]

/-- One merge of the two least keeps the invariant. -/
theorem ForestInv.step {n : Nat} {node0 : Vector Node 511} {f : Forest} (hn : n ≤ 256) (hf : ForestInv n node0 f) {a b : Fin 511}
    (ha : a ∈ f.pool) (hal : ∀ i ∈ f.pool, i ≠ a → Before f.node a i)
    (hb : b ∈ f.pool.erase a) (hbl : ∀ i ∈ f.pool.erase a, i ≠ b → Before f.node b i) :
    f.next < 511 ∧ ForestInv n node0 (mergePair f a b) := by
  have hba : b ≠ a ∧ b ∈ f.pool := (List.Nodup.mem_erase_iff hf.nodup).1 hb
  have hlen1 : (f.pool.erase a).length = f.pool.length - 1 := List.length_erase_of_mem ha
  have hlen2 : ((f.pool.erase a).erase b).length = (f.pool.erase a).length - 1 := List.length_erase_of_mem hb
  have hpos : 0 < (f.pool.erase a).length := List.length_pos_of_mem hb
  have hc := hf.count
  have hnext : f.next < 511 := by omega
  have hv : (Fin.ofNat 511 f.next).val = f.next := by simp only [Fin.ofNat]; omega
  have hset := node_set f.node f.next (joinNode f.node a b) hnext
  have hlow : ∀ j : Fin 511, j.val < f.next → (f.node.setIfInBounds f.next (joinNode f.node a b))[j] = f.node[j] := by
    intro j hj; rw [hset j, if_neg (by omega)]
  have hnew : (f.node.setIfInBounds f.next (joinNode f.node a b))[Fin.ofNat 511 f.next] = joinNode f.node a b := by
    rw [hset, if_pos hv]
  have hau := (hf.mem a).1 ha
  have hbu := (hf.mem b).1 hba.2
  have hnd1 : (f.pool.erase a).Nodup := hf.nodup.erase a
  have hmem : ∀ i, i ∈ (f.pool.erase a).erase b ↔ i ≠ b ∧ i ≠ a ∧ i ∈ f.pool := by
    intro i; rw [List.Nodup.mem_erase_iff hnd1, List.Nodup.mem_erase_iff hf.nodup]
  refine ⟨hnext, ⟨by have := hf.ge; simp only [mergePair]; omega, ?_, ?_, ?_, ?_, ?_⟩⟩
  · simp only [mergePair, List.length_append, List.length_cons, List.length_nil]; omega
  · simp only [mergePair]
    rw [List.nodup_append]
    refine ⟨hnd1.erase b, by simp, ?_⟩
    intro x hx y hy
    simp only [List.mem_cons, List.not_mem_nil, or_false] at hy
    rw [hy]; intro hxy
    have h1 := ((hmem x).1 hx).2.2
    have h2 := ((hf.mem x).1 h1).1
    rw [hxy, hv] at h2; omega
  · intro i
    simp only [mergePair, List.mem_append, List.mem_cons, List.not_mem_nil, or_false]
    rw [hmem]
    constructor
    · rintro (⟨h1, h2, h3⟩ | rfl)
      · have h4 := (hf.mem i).1 h3
        refine ⟨by have := h4.1; omega, fun j hj1 hj2 => ?_⟩
        by_cases hj : j.val < f.next
        · rw [hlow j hj]; exact h4.2 j hj1 hj
        · have : j = Fin.ofNat 511 f.next := Fin.ext (by rw [hv]; omega)
          rw [this, hnew]; exact ⟨fun h => h2 h.symm, fun h => h1 h.symm⟩
      · refine ⟨by rw [hv]; omega, fun j hj1 hj2 => ?_⟩
        by_cases hj : j.val < f.next
        · rw [hlow j hj]
          obtain ⟨x, y, hx, hxu, hyu, _⟩ := hf.merged j hj1 hj
          rw [hx]
          constructor
          · intro h; have h : x = _ := h; have := hxu.1; rw [h, hv] at this; omega
          · intro h; have h : y = _ := h; have := hyu.1; rw [h, hv] at this; omega
        · have : j = Fin.ofNat 511 f.next := Fin.ext (by rw [hv]; omega)
          rw [this, hnew]
          constructor
          · intro h; have h : a = _ := h; have := hau.1; rw [h, hv] at this; omega
          · intro h; have h : b = _ := h; have := hbu.1; rw [h, hv] at this; omega
    · rintro ⟨h1, h2⟩
      by_cases hi : i.val = f.next
      · exact .inr (Fin.ext (by rw [hv, hi]))
      · left
        have h3 := h2 (Fin.ofNat 511 f.next) (by rw [hv]; exact hf.ge) (by rw [hv]; omega)
        rw [hnew] at h3
        refine ⟨fun h => h3.2 h.symm, fun h => h3.1 h.symm, (hf.mem i).2 ⟨by omega, fun j hj1 hj2 => ?_⟩⟩
        rw [← hlow j hj2]; exact h2 j hj1 (by omega)
  · intro k hk1 hk2
    simp only [mergePair] at hk2 ⊢
    by_cases hk : k.val < f.next
    · exact Greedy.congr (fun j hj => hlow j (by omega)) (hf.merged k hk1 hk)
    · have hk' : k.val = f.next := by omega
      have : k = Fin.ofNat 511 f.next := Fin.ext (by rw [hv]; omega)
      have hkl : ∀ j : Fin 511, j.val < k.val → (f.node.setIfInBounds f.next (joinNode f.node a b))[j] = f.node[j] :=
        fun j hj => hlow j (by omega)
      have hae := hlow a hau.1
      have hbe := hlow b hbu.1
      refine ⟨a, b, ?_, (UnmergedBelow.congr hkl).2 (by rw [hk']; exact hau), (UnmergedBelow.congr hkl).2 (by rw [hk']; exact hbu),
        (Before.congr hae hbe).2 (hal b hba.2 hba.1), ?_⟩
      · rw [hae, hbe, this, hnew]; rfl
      · intro i hi hia hib
        have hi' := (UnmergedBelow.congr hkl).1 hi
        rw [hk'] at hi'
        have hip := (hf.mem i).2 hi'
        exact (Before.congr hbe (hlow i hi'.1)).2 (hbl i ((List.Nodup.mem_erase_iff hf.nodup).2 ⟨hia, hip⟩) hib)
  · intro i hi
    simp only [mergePair] at hi ⊢
    rw [hset, if_neg (by have := hf.ge; omega)]
    exact hf.rest i (by omega)

/-- The merge loop keeps its invariant and any other kept by one merge, and leaves at most one node (R139, R141). -/
theorem mergeLoop_inv {n : Nat} {node0 : Vector Node 511} (hn : n ≤ 256) (P : Forest → Prop)
    (hP : ∀ f a b, ForestInv n node0 f → P f → a ∈ f.pool → b ∈ f.pool.erase a → P (mergePair f a b)) : ∀ (m : Nat) (f : Forest), ForestInv n node0 f → P f → f.pool.length ≤ m + 1 →
    ForestInv n node0 (mergeLoop m f) ∧ P (mergeLoop m f) ∧ (mergeLoop m f).pool.length ≤ 1 := by
  intro m
  induction m with
  | zero => intro f hf hp hl; exact ⟨hf, hp, by simpa [mergeLoop] using hl⟩
  | succ m ih =>
    intro f hf hp hl
    simp only [mergeLoop]
    rcases leastNode_spec f.node f.pool with ⟨h1, h2⟩ | ⟨a, h2, ha, hal⟩
    · rw [h2]; exact ⟨hf, hp, by simp [h1]⟩
    · rw [h2]
      simp only
      have hlen1 : (f.pool.erase a).length = f.pool.length - 1 := List.length_erase_of_mem ha
      rcases leastNode_spec f.node (f.pool.erase a) with ⟨h3, h4⟩ | ⟨b, h4, hb, hbl⟩
      · rw [h4]
        refine ⟨hf, hp, ?_⟩
        rw [h3] at hlen1; simp at hlen1; simp only; omega
      · rw [h4]
        simp only
        have hlen2 : ((f.pool.erase a).erase b).length = (f.pool.erase a).length - 1 := List.length_erase_of_mem hb
        apply ih
        · exact (hf.step hn ha hal hb hbl).2
        · exact hP f a b hf hp ha hb
        · simp only [mergePair, List.length_append, List.length_cons, List.length_nil]
          have : 0 < (f.pool.erase a).length := List.length_pos_of_mem hb
          omega

theorem leafForest_inv (b : Block) : ForestInv (leafNodes b.freq).length (leafForest b).node (leafForest b) := by
  have hn : (leafNodes b.freq).length ≤ 256 := by rw [leafNodes_eq, List.length_map]; exact countedSymbols_length _
  have hmem : ∀ i : Fin 511, i ∈ (leafForest b).pool ↔ i.val < (leafNodes b.freq).length := by
    intro i
    simp only [leafForest, List.mem_map, List.mem_range]
    constructor
    · rintro ⟨k, hk, rfl⟩; simp only [Fin.ofNat]; omega
    · intro h; exact ⟨i.val, h, Fin.ext (by simp only [Fin.ofNat]; omega)⟩
  refine ⟨le_refl _, ?_, ?_, ?_, ?_, fun _ _ => rfl⟩
  · simp [leafForest]; omega
  · simp only [leafForest]
    apply List.Nodup.map_on
    · intro x hx y hy hxy
      rw [List.mem_range] at hx hy
      have := congrArg Fin.val hxy
      simp only [Fin.ofNat] at this; omega
    · exact List.nodup_range
  · intro i
    rw [hmem]
    exact ⟨fun h => ⟨h, fun j h1 h2 => by have h2 : j.val < (leafNodes b.freq).length := h2; omega⟩, fun h => h.1⟩
  · intro k h1 h2
    have h2 : k.val < (leafNodes b.freq).length := h2
    omega

/-- What the merges leave: 2n-1 nodes, the last of them alone in the pool. -/
structure BuiltFacts (b : Block) (n : Nat) (f : Forest) : Prop where
  next : f.next = 2 * n - 1
  pool : n ≠ 0 → ∃ r, f.pool = [r] ∧ r.val = f.next - 1
  empty : n = 0 → f.pool = []
  leaf : ∀ i : Fin 511, i.val < n → f.node[i] = (leafForest b).node[i]
  rest : ∀ i : Fin 511, f.next ≤ i.val → f.node[i] = (leafForest b).node[i]
  inv : ForestInv n (leafForest b).node f

/-- BUILD's forest is as `BuiltFacts` says, with any invariant kept by one merge. -/
theorem builtForest_facts (b : Block) (P : Forest → Prop)
    (hP : ∀ f a b', ForestInv (leafNodes b.freq).length (leafForest b).node f → P f → a ∈ f.pool → b' ∈ f.pool.erase a → P (mergePair f a b')) (h0 : P (leafForest b)) :
    BuiltFacts b (leafNodes b.freq).length (builtForest b) ∧ P (builtForest b) := by
  have hn : (leafNodes b.freq).length ≤ 256 := by rw [leafNodes_eq, List.length_map]; exact countedSymbols_length _
  obtain ⟨hf, ⟨hp, hne⟩, hl⟩ := mergeLoop_inv hn (fun f => P f ∧ ((leafNodes b.freq).length ≠ 0 → f.pool ≠ []))
    (fun f x y a1 a2 a3 a4 => ⟨hP f x y a1 a2.1 a3 a4, fun _ => by simp [mergePair]⟩)
    (leafNodes b.freq).length (leafForest b) (leafForest_inv b)
    ⟨h0, fun h h' => h (by simpa [leafForest] using congrArg List.length h')⟩ (by simp [leafForest])
  have hb : builtForest b = mergeLoop (leafNodes b.freq).length (leafForest b) := rfl
  rw [← hb] at hf hp hl hne
  refine ⟨?_, hp⟩
  generalize hN : (leafNodes b.freq).length = n at *
  have hc := hf.count
  have hge := hf.ge
  -- the newest node is always in the pool
  have hnew : n ≠ 0 → ∃ r : Fin 511, r.val = (builtForest b).next - 1 ∧ r ∈ (builtForest b).pool := by
    intro h0
    have hlt : (builtForest b).next - 1 < 511 := by
      have := List.length_pos_iff.2 (hne h0); omega
    refine ⟨⟨(builtForest b).next - 1, hlt⟩, rfl, (hf.mem _).2 ⟨by simp only; omega, fun j hj1 hj2 => ?_⟩⟩
    obtain ⟨x, y, hx, hxu, hyu, _⟩ := hf.merged j hj1 hj2
    rw [hx]
    constructor
    · intro h; have h : x = _ := h; have := hxu.1; rw [h] at this; simp only at this; omega
    · intro h; have h : y = _ := h; have := hyu.1; rw [h] at this; simp only at this; omega
  have hlen : n ≠ 0 → (builtForest b).pool.length = 1 := by
    intro h; obtain ⟨r, _, hr⟩ := hnew h
    have := List.length_pos_of_mem hr; omega
  have hz : n = 0 → (builtForest b).next = 0 ∧ (builtForest b).pool = [] := by
    intro h; rw [h] at hc
    exact ⟨by omega, List.length_eq_zero_iff.1 (by omega)⟩
  refine ⟨?_, ?_, fun h => (hz h).2, fun i h => hf.rest i (.inl h), fun i h => hf.rest i (.inr h), hf⟩
  · by_cases h : n = 0
    · rw [(hz h).1, h]
    · have := hlen h; omega
  · intro h
    obtain ⟨r, hr1, hr2⟩ := hnew h
    obtain ⟨x, hx⟩ := List.length_eq_one_iff.1 (hlen h)
    rw [hx] at hr2 ⊢
    simp only [List.mem_cons, List.not_mem_nil, or_false] at hr2
    exact ⟨x, rfl, by rw [← hr2]; exact hr1⟩

theorem leafForest_leaf (b : Block) (i : Fin 511) (h : i.val < (countedSymbols b.freq).length) :
    (leafForest b).node[i] = leafNode (freqAt b.freq (countedSymbols b.freq)[i.val]) (countedSymbols b.freq)[i.val] := by
  simp only [leafForest]
  have hl : (leafNodes b.freq).length = (countedSymbols b.freq).length := by rw [leafNodes_eq, List.length_map]
  rw [placeNodes_get, dif_pos ⟨by omega, by omega⟩]
  simp [leafNodes_eq]

theorem leafForest_rest (b : Block) (i : Fin 511) (h : (countedSymbols b.freq).length ≤ i.val) :
    (leafForest b).node[i] = b.node[i] := by
  simp only [leafForest]
  have hl : (leafNodes b.freq).length = (countedSymbols b.freq).length := by rw [leafNodes_eq, List.length_map]
  rw [placeNodes_get, dif_neg (by omega)]

theorem exec_build {s : State} (h0 : s.blk.errCode = 0#4) (hp : s.blk.phase = .count) :
    exec .build s = .next (retire (buildTree s)) := by
  rw [exec_runs (by simp) (by simp) h0 (by simp [phaseLegal, hp]) rfl]; rfl

theorem buildTree_nLeaf (s : State) : (buildTree s).blk.nLeaf.val = (countedSymbols s.blk.freq).length := by
  have hn := countedSymbols_length s.blk.freq
  have hl : (leafNodes s.blk.freq).length = (countedSymbols s.blk.freq).length := by rw [leafNodes_eq, List.length_map]
  show (Fin.ofNat 257 (leafNodes s.blk.freq).length).val = _
  rw [hl]; simp only [Fin.ofNat]; omega

/-- The weights in the pool, summed. -/
def poolSum (f : Forest) : Nat := (f.pool.map fun i => f.node[i].weight.toNat).sum

/-- Every merged node weighs its children's exact sum (R142). -/
def ExactSums (n : Nat) (f : Forest) : Prop := ∀ k : Fin 511, n ≤ k.val → k.val < f.next →
  (nodeAt f.node k).weight.toNat = (nodeAt f.node (nodeAt f.node k).left).weight.toNat + (nodeAt f.node (nodeAt f.node k).right).weight.toNat

/-- No node is a child of two nodes. -/
def ChildOnce (n : Nat) (f : Forest) : Prop := ∀ j k : Fin 511, n ≤ j.val → j < k → k.val < f.next →
    f.node[k].left ≠ f.node[j].left ∧ f.node[k].left ≠ f.node[j].right
    ∧ f.node[k].right ≠ f.node[j].left ∧ f.node[k].right ≠ f.node[j].right

/-- One merge writes its own node only. -/
theorem mergePair_low {n : Nat} {node0 : Vector Node 511} {f : Forest} (hn : n ≤ 256) (hf : ForestInv n node0 f) {a b : Fin 511}
    (ha : a ∈ f.pool) (hb : b ∈ f.pool.erase a) : f.next < 511 ∧ (∀ j : Fin 511, j.val < f.next → (mergePair f a b).node[j] = f.node[j])
      ∧ (mergePair f a b).node[Fin.ofNat 511 f.next] = joinNode f.node a b ∧ (Fin.ofNat 511 f.next).val = f.next := by
  have hlen1 : (f.pool.erase a).length = f.pool.length - 1 := List.length_erase_of_mem ha
  have hpos : 0 < (f.pool.erase a).length := List.length_pos_of_mem hb
  have hc := hf.count
  have hnext : f.next < 511 := by omega
  have hv : (Fin.ofNat 511 f.next).val = f.next := by simp only [Fin.ofNat]; omega
  have hset := node_set f.node f.next (joinNode f.node a b) hnext
  refine ⟨hnext, ?_, ?_, hv⟩
  · intro j hj; simp only [mergePair]; rw [hset j, if_neg (by omega)]
  · simp only [mergePair]; rw [hset, if_pos hv]

/-- One merge keeps the pool's sum, the exact weights and the single parents (R142). -/
theorem mergePair_exact {n : Nat} {node0 : Vector Node 511} {f : Forest} {W : Nat} (hn : n ≤ 256) (hW : W < 2 ^ 32) (hf : ForestInv n node0 f)
    {a b : Fin 511} (ha : a ∈ f.pool) (hb : b ∈ f.pool.erase a) (h : poolSum f = W ∧ ExactSums n f ∧ ChildOnce n f) :
    poolSum (mergePair f a b) = W ∧ ExactSums n (mergePair f a b) ∧ ChildOnce n (mergePair f a b) := by
  obtain ⟨h1, h2, h3⟩ := h
  obtain ⟨hnext, hlow, hnew, hv⟩ := mergePair_low hn hf ha hb
  have hba : b ≠ a ∧ b ∈ f.pool := (List.Nodup.mem_erase_iff hf.nodup).1 hb
  have hau := (hf.mem a).1 ha
  have hbu := (hf.mem b).1 hba.2
  have s1 : f.node[a].weight.toNat + ((f.pool.erase a).map fun i => f.node[i].weight.toNat).sum = W := by
    rw [← h1]; exact List.sum_map_erase (fun i : Fin 511 => f.node[i].weight.toNat) ha
  have s2 : f.node[b].weight.toNat + (((f.pool.erase a).erase b).map fun i => f.node[i].weight.toNat).sum = ((f.pool.erase a).map fun i => f.node[i].weight.toNat).sum :=
    List.sum_map_erase (fun i : Fin 511 => f.node[i].weight.toNat) hb
  have hw : (joinNode f.node a b).weight.toNat = f.node[a].weight.toNat + f.node[b].weight.toNat := by
    simp only [joinNode, BitVec.toNat_add]; apply Nat.mod_eq_of_lt; omega
  have hch : ∀ k : Fin 511, n ≤ k.val → k.val < f.next → f.node[k].left.val < k.val ∧ f.node[k].right.val < k.val := by
    intro k a1 a2
    obtain ⟨x, y, hx, hxu, hyu, _⟩ := hf.merged k a1 a2
    rw [hx]; exact ⟨hxu.1, hyu.1⟩
  refine ⟨?_, ?_, ?_⟩
  · have hpool : (mergePair f a b).pool = (f.pool.erase a).erase b ++ [Fin.ofNat 511 f.next] := rfl
    unfold poolSum
    rw [hpool, List.map_append, List.sum_append]
    simp only [List.map_cons, List.map_nil, List.sum_cons, List.sum_nil]
    rw [hnew, hw]
    have : ((f.pool.erase a).erase b).map (fun i => (mergePair f a b).node[i].weight.toNat) = ((f.pool.erase a).erase b).map (fun i => f.node[i].weight.toNat) := by
      apply List.map_congr_left
      intro i hi
      have hi' := List.mem_of_mem_erase (List.mem_of_mem_erase hi)
      rw [hlow i ((hf.mem i).1 hi').1]
    rw [this]; omega
  · intro k hk1 hk2
    have hk2 : k.val < f.next + 1 := hk2
    by_cases hk : k.val < f.next
    · have := hch k hk1 hk
      have hlow' : ∀ j : Fin 511, j.val < f.next → nodeAt (mergePair f a b).node j = nodeAt f.node j := hlow
      rw [hlow' k hk, hlow' (nodeAt f.node k).left (lt_trans this.1 hk), hlow' (nodeAt f.node k).right (lt_trans this.2 hk)]; exact h2 k hk1 hk
    · have : k = Fin.ofNat 511 f.next := Fin.ext (by rw [hv]; omega)
      have hlow' : ∀ j : Fin 511, j.val < f.next → nodeAt (mergePair f a b).node j = nodeAt f.node j := hlow
      have hnew' : nodeAt (mergePair f a b).node (Fin.ofNat 511 f.next) = joinNode f.node a b := hnew
      rw [this, hnew']
      have e1 : (joinNode f.node a b).left = a := rfl
      have e2 : (joinNode f.node a b).right = b := rfl
      rw [hw, e1, e2, hlow' a hau.1, hlow' b hbu.1]; rfl
  · intro j k hj hjk hk2
    have hk2 : k.val < f.next + 1 := hk2
    have hjk' : j.val < k.val := hjk
    by_cases hk : k.val < f.next
    · rw [hlow k hk, hlow j (by omega)]; exact h3 j k hj hjk hk
    · have : k = Fin.ofNat 511 f.next := Fin.ext (by rw [hv]; omega)
      rw [hlow j (by omega), this, hnew]
      have g1 := hau.2 j hj (by omega)
      have g2 := hbu.2 j hj (by omega)
      exact ⟨fun h => g1.1 h.symm, fun h => g1.2 h.symm, fun h => g2.1 h.symm, fun h => g2.2 h.symm⟩

theorem sum_counted (f : Vector Word 256) : ((countedSymbols f).map fun c => (freqAt f c).toNat).sum = (f.toList.map fun w => w.toNat).sum := by
  have h1 : f.toList = (List.range 256).map fun k => freqAt f (BitVec.ofNat 8 k) := by
    apply List.ext_getElem
    · simp
    · intro i h1 h2
      simp only [List.length_map, List.length_range] at h2
      have : i % 256 = i := by omega
      simp [freqAt, this]
  have h2 : ∀ l : List Byte, ((l.filter fun c => freqAt f c != 0#32).map fun c => (freqAt f c).toNat).sum = (l.map fun c => (freqAt f c).toNat).sum := by
    intro l
    induction l with
    | nil => rfl
    | cons a l ih =>
      rw [List.filter_cons]
      by_cases h : freqAt f a = 0#32
      · simp [h, ih]
      · simp [h, ih]
  unfold countedSymbols
  rw [h2, h1, List.map_map, List.map_map]; rfl

/-- The leaves weigh the sum of the frequencies. -/
theorem leafForest_sum (b : Block) : poolSum (leafForest b) = (b.freq.toList.map fun w => w.toNat).sum := by
  rw [← sum_counted]
  have hl : (leafNodes b.freq).length = (countedSymbols b.freq).length := by rw [leafNodes_eq, List.length_map]
  have hn := countedSymbols_length b.freq
  unfold poolSum
  have : (leafForest b).pool.map (fun i => (leafForest b).node[i].weight.toNat) = (countedSymbols b.freq).map fun c => (freqAt b.freq c).toNat := by
    apply List.ext_getElem
    · simp [leafForest, hl]
    · intro i h1 h2
      simp only [List.length_map] at h2
      have hi : (leafForest b).pool[i]'(by simp [leafForest]; omega) = Fin.ofNat 511 i := by simp [leafForest]
      rw [List.getElem_map, List.getElem_map, hi, leafForest_leaf _ _ (by simp only [Fin.ofNat]; omega)]
      have : (Fin.ofNat 511 i).val = i := by simp only [Fin.ofNat]; omega
      simp only [this, leafNode]
  rw [this]

/-- BUILD makes a tree (R135 to R142). -/
theorem treeInv_buildTree (s : State) (hc : CountInv s.blk) (hp : s.blk.phase = .count) (ht : TreeInv s.blk) : TreeInv (buildTree s).blk := by
  have hl : (leafNodes s.blk.freq).length = (countedSymbols s.blk.freq).length := by rw [leafNodes_eq, List.length_map]
  have hn := countedSymbols_length s.blk.freq
  have hW : s.blk.inCount.toNat < 2 ^ 32 := s.blk.inCount.isLt
  have hsum : poolSum (leafForest s.blk) = s.blk.inCount.toNat := by rw [leafForest_sum]; exact hc.symm
  obtain ⟨hf, hsum', hex, honce⟩ := builtForest_facts s.blk (fun f => poolSum f = s.blk.inCount.toNat ∧ ExactSums (leafNodes s.blk.freq).length f ∧ ChildOnce (leafNodes s.blk.freq).length f)
    (fun f a b h1 h2 h3 h4 => mergePair_exact (by omega) hW h1 h3 h4 h2)
    ⟨hsum, fun k h1 h2 => by
      have h2 : k.val < (leafNodes s.blk.freq).length := h2
      omega, fun j k h1 h2 h3 => by
      have h3 : k.val < (leafNodes s.blk.freq).length := h3
      have h2 : j.val < k.val := h2
      omega⟩
  have hL := buildTree_nLeaf s
  have hN : (buildTree s).blk.nodeCount.val = 2 * (countedSymbols s.blk.freq).length - 1 := by
    show (Fin.ofNat 512 (builtForest s.blk).next).val = _
    rw [hf.next, hl]; simp only [Fin.ofNat]; omega
  have hnext : (builtForest s.blk).next = 2 * (countedSymbols s.blk.freq).length - 1 := by rw [hf.next, hl]
  have hroot : (buildTree s).blk.root.val = (buildTree s).blk.nodeCount.val - 1 := by
    rw [hN]
    show ((builtForest s.blk).pool.headD 0).val = _
    by_cases hz : (leafNodes s.blk.freq).length = 0
    · rw [hf.empty hz]; simp; omega
    · obtain ⟨r, hr, hv⟩ := hf.pool hz
      rw [hr, ← hnext]; exact hv
  have hleaf : ∀ (i : Fin 511) (h : i.val < (countedSymbols s.blk.freq).length), nodeAt (buildTree s).blk.node i =
      leafNode (freqAt s.blk.freq (countedSymbols s.blk.freq)[i.val]) (countedSymbols s.blk.freq)[i.val] := by
    intro i h
    show (builtForest s.blk).node[i] = _
    rw [hf.leaf i (by omega), leafForest_leaf _ _ h]
  exact {
    counting := fun h => by cases h
    size := by rw [hN, hL]
    present := by
      have : (buildTree s).blk.treePresent = ((leafNodes s.blk.freq).length != 0) := rfl
      rw [this, hl, ne_eq, Fin.ext_iff, hL]; simp
    root := hroot
    leaf := by
      intro i hi
      rw [hL] at hi
      rw [hleaf i hi]
      refine ⟨rfl, rfl, rfl, rfl, ?_⟩
      exact (mem_countedSymbols _ _).1 (List.getElem_mem hi)
    ascending := by
      intro i j hij hj
      rw [hL] at hj
      have hij' : i.val < j.val := hij
      rw [hleaf i (by omega), hleaf j hj]
      exact List.pairwise_iff_getElem.1 (countedSymbols_sorted s.blk.freq) i.val j.val (by omega) hj hij'
    inner := by
      intro k hk1 hk2
      rw [hL] at hk1; rw [hN] at hk2
      have hx := hex k (by omega) (by omega)
      obtain ⟨a, b, g1, g2, g3, g4, _⟩ := hf.inv.merged k (by omega) (by omega)
      have g1 : nodeAt (builtForest s.blk).node k = _ := g1
      have hne : a ≠ b := by
        rintro rfl; unfold Before at g4
        rcases g4 with h | ⟨_, h⟩ <;> omega
      refine ⟨?_, ?_, ?_, ?_, ?_, hx⟩
      · show (nodeAt (builtForest s.blk).node k).isLeaf = false; rw [g1]
      · show (nodeAt (builtForest s.blk).node k).sym = _; rw [g1]
      · show (nodeAt (builtForest s.blk).node k).left < k; rw [g1]; exact g2.1
      · show (nodeAt (builtForest s.blk).node k).right < k; rw [g1]; exact g3.1
      · show (nodeAt (builtForest s.blk).node k).left ≠ (nodeAt (builtForest s.blk).node k).right; rw [g1]; exact hne
    once := by
      intro j k h1 h2 h3
      rw [hL] at h1; rw [hN] at h3
      exact honce j k (by omega) h2 (by omega)
    parent := by
      intro i hi
      have hi' : i.val < (buildTree s).blk.root.val := hi
      rw [hroot, hN] at hi'
      have hz : (leafNodes s.blk.freq).length ≠ 0 := by omega
      obtain ⟨r, hr, hv⟩ := hf.pool hz
      have hnot : i ∉ (builtForest s.blk).pool := by
        rw [hr]; simp only [List.mem_cons, List.not_mem_nil, or_false]
        intro h; rw [h, hv, hnext] at hi'; omega
      rw [hf.inv.mem] at hnot
      unfold UnmergedBelow at hnot
      simp only [not_and, not_forall] at hnot
      obtain ⟨j, h1, h2, h3⟩ := hnot (by omega)
      refine ⟨j, by rw [hL]; omega, by rw [hN]; omega, ?_⟩
      show (builtForest s.blk).node[j].left = i ∨ (builtForest s.blk).node[j].right = i
      by_cases h : (builtForest s.blk).node[j].left = i
      · exact .inl h
      · exact .inr (by by_contra h'; exact h3 h h')
    total := by
      intro h
      have hz : (leafNodes s.blk.freq).length ≠ 0 := by
        intro hz; apply h; apply Fin.ext; rw [hL, ← hl, hz]; rfl
      obtain ⟨r, hr, hv⟩ := hf.pool hz
      unfold poolSum at hsum'
      rw [hr] at hsum'
      simp only [List.map_cons, List.map_nil, List.sum_cons, List.sum_nil, Nat.add_zero] at hsum'
      have : (buildTree s).blk.root = r := by
        show (builtForest s.blk).pool.headD 0 = r
        rw [hr]; rfl
      rw [this]
      exact BitVec.eq_of_toNat_eq hsum'
    unused := by
      intro i hi
      rw [hN] at hi
      show (builtForest s.blk).node[i] = _
      rw [hf.rest i (by omega), leafForest_rest _ _ (by omega)]
      have hz := ht.counting hp
      apply ht.unused i
      rw [ht.size, hz]; simp }

end Sys2Proof.Machine
end

