-- ==== Sys2Proof/Laws/PerInstr.lean ====
section
/-! SUPPORT. Statements made for every command, one lemma per constructor. -/

namespace Sys2Proof.Laws.EncodeFields

open Sys2Proof Sys2Proof.Machine

/-- The word of a command has the command's OPC in bits [7:0] and 0 in RSV, bits [31:20] (R100, R105). -/
def Statement (i : Instr) : Prop :=
  opcField (encode i) = opcode i ∧ rsvField (encode i) = 0#12

theorem nop : Statement .nop := ⟨by decide, by decide⟩
theorem softReset : Statement .softReset := ⟨by decide, by decide⟩
theorem addSymbol (sym : Byte) : Statement (.addSymbol sym) :=
  ⟨opcField_packWord _ _ _, rsvField_packWord _ _ _⟩
theorem countSrc : Statement .countSrc := ⟨by decide, by decide⟩
theorem build : Statement .build := ⟨by decide, by decide⟩
theorem assignCodes : Statement .assignCodes := ⟨by decide, by decide⟩
theorem makeHeader : Statement .makeHeader := ⟨by decide, by decide⟩
theorem serialize : Statement .serialize := ⟨by decide, by decide⟩
theorem deserialize : Statement .deserialize := ⟨by decide, by decide⟩
theorem pushBits (nbits : BitVec 4) (data : Byte) : Statement (.pushBits nbits data) :=
  ⟨opcField_packWord _ _ _, rsvField_packWord _ _ _⟩
theorem pushCode (sym : Byte) : Statement (.pushCode sym) :=
  ⟨opcField_packWord _ _ _, rsvField_packWord _ _ _⟩
theorem flush : Statement .flush := ⟨by decide, by decide⟩
theorem encodeSrc : Statement .encodeSrc := ⟨by decide, by decide⟩
theorem decodeStep : Statement .decodeStep := ⟨by decide, by decide⟩
theorem decodeFinish : Statement .decodeFinish := ⟨by decide, by decide⟩
theorem decodeRun : Statement .decodeRun := ⟨by decide, by decide⟩

end Sys2Proof.Laws.EncodeFields
end

