-- ==== Sys2Proof/Laws/Registers.lean ====
section
/-! SUPPORT. Reading fields out of register words. -/

namespace Sys2Proof.Machine

open Sys2Proof

/-- A concatenation of fields as a number. -/
theorem toNat_append_eq {m n : Nat} (x : BitVec m) (y : BitVec n) : (x ++ y).toNat = x.toNat * 2 ^ n + y.toNat := by
  rw [BitVec.toNat_append, Nat.shiftLeft_eq, Nat.mul_comm, ← Nat.two_pow_add_eq_or_of_lt y.isLt]

theorem regValue_ge (c : Config) (b : Block) (a : Byte) (h : 0x64 ≤ a.toNat) : regValue c b a = 0#32 := by
  unfold regValue
  split <;> first | rfl | (exfalso; omega)

/-- A bit of a 32-bit window of a sequence (R67, R68). -/
theorem getLsbD_window (c : Bits) (w : BitVec 3) (k : Nat) (hk : k < 32) : (bitsWindow c w).getLsbD (31 - k) = c.getD (32 * w.toNat + k) false := by
  unfold bitsWindow
  have : 31 - k < 32 := by omega
  simp only [BitVec.getLsbD_ofFnLE, this, dif_pos]
  congr 2; omega

end Sys2Proof.Machine
end

