-- ==== Sys2Proof/Laws/Walk.lean ====
section
/-! SUPPORT. The codes ASSIGN_CODES writes (spec/40_tree_builder.md R143 to R148) and the table DESERIALIZE leaves. -/

namespace Sys2Proof.Machine

open Sys2Proof

/-- The child a branch bit leads to. -/
def childAt (node : Vector Node 511) (i : Fin 511) (b : Bool) : Fin 511 := if b then node[i].right else node[i].left

/-- a path through internal nodes -/
def Reach (node : Vector Node 511) : Fin 511 → Bits → Fin 511 → Prop
  | i, [], j => i = j
  | i, b :: q, j => node[i].isLeaf = false ∧ Reach node (childAt node i b) q j

theorem follow_append (node : Vector Node 511) (p q : Bits) : ∀ i, follow node i (p ++ q) = follow node (follow node i p) q := by
  induction p with
  | nil => intro i; rfl
  | cons b p ih => intro i; exact ih _

/-- The same path as `follow`. -/
theorem reach_iff (node : Vector Node 511) (q : Bits) : ∀ i j, Reach node i q j ↔ follow node i q = j ∧ ∀ p r, q = p ++ r → r ≠ [] → node[follow node i p].isLeaf = false := by
  induction q with
  | nil =>
    intro i j
    constructor
    · intro h; refine ⟨h, fun p r h1 h2 => ?_⟩
      have := List.append_eq_nil_iff.1 h1.symm
      exact absurd this.2 h2
    · intro h; exact h.1
  | cons b q ih =>
    intro i j
    constructor
    · rintro ⟨h1, h2⟩
      obtain ⟨h3, h4⟩ := (ih _ _).1 h2
      refine ⟨h3, fun p r hp hr => ?_⟩
      cases p with
      | nil => exact h1
      | cons b' p =>
        simp only [List.cons_append, List.cons.injEq] at hp
        obtain ⟨rfl, hp⟩ := hp
        exact h4 p r hp hr
    · rintro ⟨h1, h2⟩
      refine ⟨h2 [] (b :: q) rfl (by simp), (ih _ _).2 ⟨h1, fun p r hp hr => ?_⟩⟩
      exact h2 (b :: p) r (by rw [hp]; rfl) hr

theorem reach_snoc (node : Vector Node 511) (q : Bits) (b : Bool) : ∀ i j, Reach node i (q ++ [b]) j ↔ ∃ k, Reach node i q k ∧ node[k].isLeaf = false ∧ childAt node k b = j := by
  induction q with
  | nil =>
    intro i j
    constructor
    · rintro ⟨h1, h2⟩; exact ⟨i, rfl, h1, h2⟩
    · rintro ⟨k, h1, h2, h3⟩; have h1 : i = k := h1; subst h1; exact ⟨h2, h3⟩
  | cons c q ih =>
    intro i j
    constructor
    · rintro ⟨h1, h2⟩
      obtain ⟨k, h3, h4⟩ := (ih _ _).1 h2
      exact ⟨k, ⟨h1, h3⟩, h4⟩
    · rintro ⟨k, ⟨h1, h2⟩, h3⟩
      exact ⟨h1, (ih _ _).2 ⟨k, h2, h3⟩⟩

/-- Children of internal nodes below m are lower. -/
def Falls (node : Vector Node 511) (m : Nat) : Prop := ∀ i : Fin 511, i.val < m → node[i].isLeaf = false → node[i].left < i ∧ node[i].right < i

theorem Falls.child {node : Vector Node 511} {m : Nat} (h : Falls node m) {i : Fin 511} (hi : i.val < m) (hl : node[i].isLeaf = false) (b : Bool) :
    (childAt node i b).val < i.val := by
  have := h i hi hl
  unfold childAt; cases b
  · exact this.1
  · exact this.2

theorem reach_le {node : Vector Node 511} {m : Nat} (h : Falls node m) (q : Bits) : ∀ i j, i.val < m → Reach node i q j → j.val + q.length ≤ i.val := by
  induction q with
  | nil => intro i j hi hr; have hr : i = j := hr; rw [hr]; simp
  | cons b q ih =>
    intro i j hi ⟨h1, h2⟩
    have := h.child hi h1 b
    have := ih _ _ (by omega) h2
    simp only [List.length_cons]; omega

theorem ent_set (ent : Vector Entry 256) (k : Nat) (x : Entry) (i : Fin 256) :
    (ent.setIfInBounds k x)[i] = if i.val = k then x else ent[i] := by
  simp only [Fin.getElem_fin, Vector.getElem_setIfInBounds]
  by_cases h : k = i.val
  · rw [if_pos h, if_pos h.symm]
  · rw [if_neg h, if_neg (fun h' => h h'.symm)]

/-- ENT[i]. -/
def entAt (ent : Vector Entry 256) (i : Fin 256) : Entry := ent[i]

theorem entAt_set (ent : Vector Entry 256) (k : Nat) (x : Entry) (i : Fin 256) :
    entAt (ent.setIfInBounds k x) i = if i.val = k then x else entAt ent i := ent_set ent k x i

theorem walk_leaf {node : Vector Node 511} {n : Nat} {i : Fin 511} {p : Bits} {ent : Vector Entry 256} (h : node[i].isLeaf = true) :
    walk node (n + 1) i p ent = ent.setIfInBounds i.val { sym := node[i].sym, code := p } := by
  simp only [walk]; rw [if_pos h]

theorem walk_inner {node : Vector Node 511} {n : Nat} {i : Fin 511} {p : Bits} {ent : Vector Entry 256} (h : ¬ node[i].isLeaf = true) :
    walk node (n + 1) i p ent = walk node n node[i].right (p ++ [true]) (walk node n node[i].left (p ++ [false]) ent) := by
  simp only [walk]; rw [if_neg h]

/-- What a walk writes at the entry of leaf j: the path to it. -/
theorem walk_at_leaf {node : Vector Node 511} {m : Nat} (hf : Falls node m) {j : Fin 511} (hj : node[j].isLeaf = true) {e : Fin 256} (he : e.val = j.val) :
    ∀ (n : Nat) (i : Fin 511) (p : Bits) (ent : Vector Entry 256), i.val < m → i.val < n →
      (∀ q q', Reach node i q j → Reach node i q' j → q = q') →
      (∀ q, Reach node i q j → entAt (walk node n i p ent) e = { sym := node[j].sym, code := p ++ q })
      ∧ ((¬ ∃ q, Reach node i q j) → entAt (walk node n i p ent) e = entAt ent e) := by
  intro n
  induction n with
  | zero => intro i p ent _ hn; omega
  | succ n ih =>
    intro i p ent hm hn hu
    by_cases hl : node[i].isLeaf = true
    · rw [walk_leaf hl]
      constructor
      · intro q hq
        cases q with
        | nil =>
          have hq : i = j := hq
          rw [entAt_set, if_pos (by rw [hq]; exact he), hq]; simp
        | cons b q => have := hq.1; rw [hl] at this; cases this
      · intro hno
        rw [entAt_set, if_neg]
        intro h; apply hno; exact ⟨[], Fin.ext (by omega)⟩
    · rw [walk_inner hl]
      have hl' : node[i].isLeaf = false := by simpa using hl
      have c0 := hf.child hm hl' false
      have c1 := hf.child hm hl' true
      have e0 : childAt node i false = node[i].left := rfl
      have e1 : childAt node i true = node[i].right := rfl
      rw [e0] at c0; rw [e1] at c1
      have hiff : ∀ b q, Reach node (childAt node i b) q j → Reach node i (b :: q) j := fun b q h => ⟨hl', h⟩
      have u0 : ∀ q q', Reach node node[i].left q j → Reach node node[i].left q' j → q = q' := fun q q' a b => by
        have := hu _ _ (hiff false q a) (hiff false q' b); simpa using this
      have u1 : ∀ q q', Reach node node[i].right q j → Reach node node[i].right q' j → q = q' := fun q q' a b => by
        have := hu _ _ (hiff true q a) (hiff true q' b); simpa using this
      obtain ⟨l1, l2⟩ := ih node[i].left (p ++ [false]) ent (by omega) (by omega) u0
      obtain ⟨r1, r2⟩ := ih node[i].right (p ++ [true]) (walk node n node[i].left (p ++ [false]) ent) (by omega) (by omega) u1
      constructor
      · intro q hq
        cases q with
        | nil => have hq : i = j := hq; rw [hq] at hl; exact absurd hj hl
        | cons b q =>
          cases b with
          | true => rw [r1 q hq.2]; simp
          | false =>
            rw [r2, l1 q hq.2]; · simp
            rintro ⟨q', hq'⟩
            have := hu _ _ (hiff true q' hq') hq
            simp at this
      · intro hno
        rw [r2, l2]
        · rintro ⟨q, hq⟩; exact hno ⟨_, hiff false q hq⟩
        · rintro ⟨q, hq⟩; exact hno ⟨_, hiff true q hq⟩

/-- A walk writes only entries of leaves. -/
theorem walk_elsewhere {node : Vector Node 511} {m N : Nat} (hf : Falls node m) (hleaf : ∀ i : Fin 511, i.val < m → node[i].isLeaf = true → i.val < N) {e : Fin 256} (he : N ≤ e.val) :
    ∀ (n : Nat) (i : Fin 511) (p : Bits) (ent : Vector Entry 256), i.val < m → entAt (walk node n i p ent) e = entAt ent e := by
  intro n
  induction n with
  | zero => intro i p ent _; rfl
  | succ n ih =>
    intro i p ent hm
    by_cases hl : node[i].isLeaf = true
    · rw [walk_leaf hl, entAt_set, if_neg]
      have := hleaf i hm hl; omega
    · rw [walk_inner hl]
      have hl' : node[i].isLeaf = false := by simpa using hl
      have c0 : node[i].left.val < i.val := hf.child hm hl' false
      have c1 : node[i].right.val < i.val := hf.child hm hl' true
      rw [ih _ _ _ (by omega), ih _ _ _ (by omega)]

/-- What ASSIGN_CODES needs of a tree: every node has one path from the root. -/
structure TreeFacts (b : Block) : Prop where
  falls : Falls b.node b.nodeCount.val
  kind : ∀ i : Fin 511, i.val < b.nodeCount.val → (b.node[i].isLeaf = true ↔ i.val < b.nLeaf.val)
  uniq : ∀ (q q' : Bits) (j : Fin 511), Reach b.node b.root q j → Reach b.node b.root q' j → q = q'
  path : ∀ j : Fin 511, j ≤ b.root → ∃ q, Reach b.node b.root q j

/-- A tree of two or more leaves has one path to every node. -/
theorem treeFacts {b : Block} (h : TreeInv b) (h2 : 1 < b.nLeaf.val) : TreeFacts b := by
  have hsz := h.size
  have hrt := h.root
  have hkind : ∀ i : Fin 511, i.val < b.nodeCount.val → (b.node[i].isLeaf = true ↔ i.val < b.nLeaf.val) := by
    intro i hi
    constructor
    · intro hl; by_contra hn
      have := (h.inner i (by omega) hi).1
      have hl : (nodeAt b.node i).isLeaf = true := hl
      rw [hl] at this; cases this
    · intro hl; exact (h.leaf i hl).1
  have hfalls : Falls b.node b.nodeCount.val := by
    intro i hi hl
    have : b.nLeaf.val ≤ i.val := by
      by_contra hn
      have := (hkind i hi).2 (by omega); rw [hl] at this; cases this
    have := h.inner i this hi
    exact ⟨this.2.2.1, this.2.2.2.1⟩
  have hroot : b.root.val < b.nodeCount.val := by omega
  refine ⟨hfalls, hkind, ?_, ?_⟩
  · -- unique paths, by the parent's uniqueness
    have hpar : ∀ (k k' : Fin 511) (c c' : Bool), b.nLeaf.val ≤ k.val → k.val < b.nodeCount.val → b.nLeaf.val ≤ k'.val → k'.val < b.nodeCount.val →
        childAt b.node k c = childAt b.node k' c' → k = k' ∧ c = c' := by
      intro k k' c c' a1 a2 a3 a4 hc
      have key : ∀ (k k' : Fin 511) (c c' : Bool), b.nLeaf.val ≤ k.val → k.val < k'.val → k'.val < b.nodeCount.val → childAt b.node k c ≠ childAt b.node k' c' := by
        intro k k' c c' a1 a2 a3 hc
        obtain ⟨o1, o2, o3, o4⟩ := h.once k k' a1 a2 a3
        cases c <;> cases c'
        · exact o1 hc.symm
        · exact o3 hc.symm
        · exact o2 hc.symm
        · exact o4 hc.symm
      by_cases hlt : k.val < k'.val
      · exact absurd hc (key k k' c c' a1 hlt a4)
      · by_cases hgt : k'.val < k.val
        · exact absurd hc.symm (key k' k c' c a3 hgt a2)
        · have : k = k' := Fin.ext (by omega)
          subst this
          refine ⟨rfl, ?_⟩
          have hne := (h.inner k a1 a2).2.2.2.2.1
          cases c <;> cases c' <;> first | rfl | exact absurd hc hne | exact absurd hc.symm hne
    intro q
    induction q using List.reverseRecOn with
    | nil =>
      intro q' j h1 h3
      have h1 : b.root = j := h1
      subst h1
      have := reach_le hfalls q' _ _ hroot h3
      have : q'.length = 0 := by omega
      exact (List.length_eq_zero_iff.1 this).symm
    | append_singleton q c ih =>
      intro q' j h1 h3
      have hle := reach_le hfalls _ _ _ hroot h1
      simp only [List.length_append, List.length_cons, List.length_nil] at hle
      obtain ⟨k, hk1, hk2, hk3⟩ := (reach_snoc b.node q c _ _).1 h1
      induction q' using List.reverseRecOn with
      | nil =>
        have h3 : b.root = j := h3
        rw [h3] at hle; omega
      | append_singleton q' c' _ =>
        obtain ⟨k', hk1', hk2', hk3'⟩ := (reach_snoc b.node q' c' _ _).1 h3
        have b1 := reach_le hfalls _ _ _ hroot hk1
        have b2 := reach_le hfalls _ _ _ hroot hk1'
        have n1 : b.nLeaf.val ≤ k.val := by
          by_contra hn
          have := (hkind k (by omega)).2 (by omega); rw [hk2] at this; cases this
        have n2 : b.nLeaf.val ≤ k'.val := by
          by_contra hn
          have := (hkind k' (by omega)).2 (by omega); rw [hk2'] at this; cases this
        obtain ⟨rfl, rfl⟩ := hpar k k' c c' n1 (by omega) n2 (by omega) (hk3.trans hk3'.symm)
        rw [ih q' k hk1 hk1']
  · have key : ∀ (d : Nat) (j : Fin 511), j ≤ b.root → b.root.val - j.val = d → ∃ q, Reach b.node b.root q j := by
      intro d
      induction d using Nat.strongRecOn with
      | _ d ih =>
        intro j hj hd
        have hj' : j.val ≤ b.root.val := hj
        by_cases hr : j = b.root
        · exact ⟨[], hr.symm⟩
        · have hlt : j.val < b.root.val := by
            have : j.val ≠ b.root.val := fun h => hr (Fin.ext h)
            omega
          obtain ⟨k, k1, k2, k3⟩ := h.parent j hlt
          have hin := h.inner k k1 k2
          have hkj : j.val < k.val := by
            rcases k3 with k3 | k3
            · have := hin.2.2.1; rw [k3] at this; exact this
            · have := hin.2.2.2.1; rw [k3] at this; exact this
          have hkr : k.val ≤ b.root.val := by omega
          obtain ⟨q, hq⟩ := ih (b.root.val - k.val) (by omega) k hkr rfl
          rcases k3 with k3 | k3
          · exact ⟨q ++ [false], (reach_snoc _ _ _ _ _).2 ⟨k, hq, hin.1, k3⟩⟩
          · exact ⟨q ++ [true], (reach_snoc _ _ _ _ _).2 ⟨k, hq, hin.1, k3⟩⟩
    intro j hj; exact key _ j hj rfl

/-- Codes are 1 to 255 bits long (R146). -/
theorem reach_depth {b : Block} (h : TreeInv b) (h2 : 1 < b.nLeaf.val) (hf : TreeFacts b) {q : Bits} {j : Fin 511} (hr : Reach b.node b.root q j) (hj : j.val < b.nLeaf.val) :
    1 ≤ q.length ∧ q.length ≤ 255 := by
  have hsz := h.size
  have hrt := h.root
  have hn := b.nLeaf.isLt
  have hroot : b.root.val < b.nodeCount.val := by omega
  induction q using List.reverseRecOn with
  | nil => have hr : b.root = j := hr; rw [← hr] at hj; omega
  | append_singleton q c _ =>
    obtain ⟨k, hk1, hk2, hk3⟩ := (reach_snoc b.node q c _ _).1 hr
    have b1 := reach_le hf.falls _ _ _ hroot hk1
    have n1 : b.nLeaf.val ≤ k.val := by
      by_contra hn
      have := (hf.kind k (by omega)).2 (by omega); rw [hk2] at this; cases this
    simp only [List.length_append, List.length_cons, List.length_nil]; omega

theorem exec_assignCodes {s : State} (h0 : s.blk.errCode = 0#4) (hp : s.blk.phase = .built) :
    exec .assignCodes s = .next (retire (assignCodes s)) := by
  rw [exec_runs (by simp) (by simp) h0 (by simp [phaseLegal, hp]) rfl]; rfl

/-- What ASSIGN_CODES writes (R143 to R147). -/
theorem codeEntries_facts (b : Block) (ht : TreeInv b) :
    (∀ (i : Fin 256) (j : Fin 511), j.val = i.val → i.val < b.nLeaf.val →
          (codeEntries b)[i].sym = b.node[j].sym
          ∧ 1 ≤ (codeEntries b)[i].len ∧ (codeEntries b)[i].len ≤ 255
          ∧ (b.nLeaf.val = 1 → (codeEntries b)[i].code = [false])
          ∧ (1 < b.nLeaf.val → follow b.node b.root (codeEntries b)[i].code = j
              ∧ ∀ p q, (codeEntries b)[i].code = p ++ q → q ≠ [] → b.node[follow b.node b.root p].isLeaf = false))
    ∧ (∀ i : Fin 256, b.nLeaf.val ≤ i.val → (codeEntries b)[i] = b.ent[i]) := by
  have hsz := ht.size
  have hrt := ht.root
  unfold codeEntries
  by_cases hp : b.treePresent = false
  · rw [if_pos hp]
    have hz : b.nLeaf = 0 := by
      by_contra h; have := ht.present.2 h; rw [hp] at this; cases this
    exact ⟨fun i j _ h => by rw [hz] at h; simp at h, fun _ _ => rfl⟩
  · rw [if_neg hp]
    have hp' : b.treePresent = true := by simpa using hp
    have hne := ht.present.1 hp'
    have hne' : b.nLeaf.val ≠ 0 := fun h => hne (Fin.ext h)
    by_cases h1 : b.nLeaf.val = 1
    · rw [if_pos h1]
      have hset : ∀ i : Fin 256, (b.ent.set 0 { sym := b.node[0].sym, code := [false] })[i] = if i.val = 0 then { sym := b.node[0].sym, code := [false] } else b.ent[i] := by
        intro i
        simp only [Fin.getElem_fin, Vector.getElem_set]
        by_cases h : i.val = 0
        · rw [if_pos h, if_pos h.symm]
        · rw [if_neg h, if_neg (fun h' => h h'.symm)]
      constructor
      · intro i j hj hi
        rw [hset, if_pos (by omega)]
        have : j = 0 := Fin.ext (by rw [hj]; show i.val = 0; omega)
        subst this
        exact ⟨rfl, (show 1 ≤ 1 by omega), (show 1 ≤ 255 by omega), fun _ => rfl, fun h => by omega⟩
      · intro i hi
        rw [hset, if_neg (by omega)]
    · rw [if_neg h1]
      have h2 : 1 < b.nLeaf.val := by omega
      have hf := treeFacts ht h2
      have hroot : b.root.val < b.nodeCount.val := by omega
      constructor
      · intro i j hj hi
        have hjl : b.node[j].isLeaf = true := (hf.kind j (by omega)).2 (by omega)
        obtain ⟨q, hq⟩ := hf.path j (show j.val ≤ b.root.val by omega)
        have hw := (walk_at_leaf hf.falls hjl hj.symm 511 b.root [] b.ent hroot b.root.isLt (fun q q' a c => hf.uniq q q' j a c)).1 q hq
        have hw : (walk b.node 511 b.root [] b.ent)[i] = _ := hw
        rw [hw]
        have hd := reach_depth ht h2 hf hq (by omega)
        have hr := (reach_iff _ _ _ _).1 hq
        simp only [List.nil_append]
        exact ⟨trivial, hd.1, hd.2, fun h => by omega, fun _ => hr⟩
      · intro i hi
        exact walk_elsewhere hf.falls (fun k hk hl => (hf.kind k hk).1 hl) hi 511 b.root [] b.ent hroot

/-- Reading entries keeps the table in form. -/
theorem readEntries_table (n : Nat) : ∀ (i : Nat) (s : State), i + n ≤ 256 → s.blk.entN.val = i → (∀ j : Fin 256, i ≤ j.val → entAt s.blk.ent j = Entry.zero) → (∀ j : Fin 256, (entAt s.blk.ent j).code.length ≤ 255) →
    let u := (readEntries n i s).state
    (∀ j : Fin 256, u.blk.entN.val ≤ j.val → entAt u.blk.ent j = Entry.zero) ∧ (∀ j : Fin 256, (entAt u.blk.ent j).code.length ≤ 255) := by
  induction n with
  | zero => intro i s _ h1 h2 h3; exact ⟨fun j hj => h2 j (by simp only [readEntries, Run.state] at hj; omega), h3⟩
  | succ n ih =>
    intro i s hi h1 h2 h3
    simp only [readEntries]
    have g := readEntry_state s
    cases hr : readEntry s with
    | raised e t =>
      rw [hr] at g
      have e1 : t.blk.ent = s.blk.ent := congrArg (fun x => x.blk.ent) g.1
      have e2 : t.blk.entN = s.blk.entN := congrArg (fun x => x.blk.entN) g.1
      simp only [Run.bind_raised, Run.state, e1, e2, h1]
      exact ⟨h2, h3⟩
    | done e t =>
      rw [hr] at g
      have e1 : t.blk.ent = s.blk.ent := congrArg (fun x => x.blk.ent) g.1
      simp only [Run.bind_done]
      have hlen : e.code.length ≤ 255 := by
        simp only [readEntry, Run.bind_eq_done] at hr
        obtain ⟨sym, s0, _, len, s1, _, bs, s2, _, h⟩ := hr
        simp only [Run.done.injEq] at h
        rw [← h.1]
        have := len.isLt
        simp only [unpackCode, List.length_take]; omega
      have hset : ∀ j : Fin 256, entAt (storeEntry i e t).blk.ent j = if j.val = i then e else entAt t.blk.ent j := fun j => entAt_set t.blk.ent i e j
      apply ih (i + 1) (storeEntry i e t) (by omega)
      · show (Fin.ofNat 257 (i + 1)).val = i + 1
        simp only [Fin.ofNat]; omega
      · intro j hj
        rw [hset, if_neg (by omega), e1]; exact h2 j (by omega)
      · intro j
        rw [hset]; split
        · exact hlen
        · rw [e1]; exact h3 j

end Sys2Proof.Machine
end

