-- ==== Sys2Proof/Tests/Slice0.lean ====
section
/-! SUPPORT. Tests: checks on ill-formed terms, words written out from spec/30_encoding.md, single steps from the vectors of
spec/95_test_vectors.md, and for each statement with hypotheses a state and operands that meet them together. -/

set_option Elab.async false

namespace Sys2Proof.Tests

open Sys2Proof Sys2Proof.Machine

/-! ### Well-formedness refuses -/

theorem test_wf_count_0 : (Instr.pushBits 0#4 0x00#8).wf = false := by decide
theorem test_wf_count_9 : (Instr.pushBits 9#4 0x00#8).wf = false := by decide
theorem test_wf_data_bit_3 : (Instr.pushBits 3#4 0x08#8).wf = false := by decide
theorem test_wf_data_bit_7 : (Instr.pushBits 7#4 0x80#8).wf = false := by decide
theorem test_wf_admits : (Instr.pushBits 1#4 0x01#8).wf = true ∧ (Instr.pushBits 8#4 0xFF#8).wf = true := by decide

/-! ### Decoding: RSV, NBITS, SYM, OPC written out bit by bit (R100, R105) -/

theorem test_decode_nop : decode 0b000000000000_0000_00000000_00000000#32 = .ok .nop := by rfl
theorem test_decode_softReset : decode 0b000000000000_0000_00000000_00000001#32 = .ok .softReset := by rfl
theorem test_decode_addSymbol : decode 0b000000000000_0000_01100001_00010000#32 = .ok (.addSymbol 0x61#8) := by rfl
theorem test_decode_countSrc : decode 0b000000000000_0000_00000000_00010001#32 = .ok .countSrc := by rfl
theorem test_decode_build : decode 0b000000000000_0000_00000000_00010010#32 = .ok .build := by rfl
theorem test_decode_assignCodes : decode 0b000000000000_0000_00000000_00010011#32 = .ok .assignCodes := by rfl
theorem test_decode_makeHeader : decode 0b000000000000_0000_00000000_00010100#32 = .ok .makeHeader := by rfl
theorem test_decode_serialize : decode 0b000000000000_0000_00000000_00100000#32 = .ok .serialize := by rfl
theorem test_decode_deserialize : decode 0b000000000000_0000_00000000_00100001#32 = .ok .deserialize := by rfl
theorem test_decode_pushBits : decode 0b000000000000_0011_00000101_00110000#32 = .ok (.pushBits 3#4 0x05#8) := by rfl
theorem test_decode_pushCode : decode 0b000000000000_0000_00100000_00110001#32 = .ok (.pushCode 0x20#8) := by rfl
theorem test_decode_flush : decode 0b000000000000_0000_00000000_00110010#32 = .ok .flush := by rfl
theorem test_decode_encodeSrc : decode 0b000000000000_0000_00000000_00110011#32 = .ok .encodeSrc := by rfl
theorem test_decode_decodeStep : decode 0b000000000000_0000_00000000_01000000#32 = .ok .decodeStep := by rfl
theorem test_decode_decodeFinish : decode 0b000000000000_0000_00000000_01000001#32 = .ok .decodeFinish := by rfl
theorem test_decode_decodeRun : decode 0b000000000000_0000_00000000_01000010#32 = .ok .decodeRun := by rfl
/-- P7v, P8v, P9v, T15, X6, Q1. -/
theorem test_decode_rejects : decode 0x00000030#32 = .error .badBitCount ∧ decode 0x00090030#32 = .error .badBitCount
    ∧ decode 0x00035030#32 = .error .unusedDataBits ∧ decode 0x00016110#32 = .error .reservedBits
    ∧ decode 0x00000002#32 = .error .reservedOpcode ∧ decode 0x00010013#32 = .error .reservedBits := ⟨rfl, rfl, rfl, rfl, rfl, rfl⟩

/-! ### States for the steps -/

/-- A block in COUNT that has counted 20 61 20 0A 0A 0A 0A (L1.1). -/
def counted : Block :=
  { Block.reset with
    freq := ((Block.reset.freq.set 0x0A 4#32).set 0x20 2#32).set 0x61 1#32
    inCount := 7#32 }

/-- L1.1's tree, in BUILT. -/
def treed : Block :=
  { counted with
    phase := .built
    node := ((((Block.reset.node.set 0 ⟨4#32, true, 0x0A#8, 0, 0⟩).set 1 ⟨2#32, true, 0x20#8, 0, 0⟩).set 2
      ⟨1#32, true, 0x61#8, 0, 0⟩).set 3 ⟨3#32, false, 0#8, 2, 1⟩).set 4 ⟨7#32, false, 0#8, 3, 0⟩
    nodeCount := 5
    nLeaf := 3
    root := 4
    treePresent := true }

/-- L1.1's code table, in READY. -/
def coded : Block :=
  { counted with
    phase := .ready
    ent := ((Block.reset.ent.set 0 ⟨0x0A#8, [true]⟩).set 1 ⟨0x20#8, [false, true]⟩).set 2 ⟨0x61#8, [false, false]⟩
    entN := 3
    totalBits := 10#32
    symCount := 3#32
    remaining := 10#32 }

/-- A block with a source. -/
def on (b : Block) (src : List Byte) : State := { State.reset with blk := b, src := src }

/-- The reset block, counting. -/
def fresh (src : List Byte) : State := on Block.reset src

/-- The state a command answers. -/
def after (i : Instr) (s : State) : State :=
  match exec i s with
  | .next t => t
  | .fault _ => s
  | .refused _ => s

/-- L1.1's input. -/
def text : List Byte := [0x20#8, 0x61#8, 0x20#8, 0x0A#8, 0x0A#8, 0x0A#8, 0x0A#8]

/-- S1's header. -/
def header : List Byte :=
  [0x0A#8, 0x00#8, 0x00#8, 0x00#8, 0x03#8, 0x00#8, 0x00#8, 0x00#8]
    ++ [0x0A#8, 0x01#8, 0x80#8, 0x20#8, 0x02#8, 0x40#8, 0x61#8, 0x02#8, 0x00#8]

/-! ### One step each -/

/-- X4. -/
theorem test_nop : let t := after .nop (on { Block.reset with errCode := 5#4, busy := true } [])
    t.blk.errCode = 5#4 ∧ t.blk.busy = false := by decide +kernel
/-- X2. -/
theorem test_softReset : let t := after .softReset { on { coded with errCode := 3#4, errCmd := 0x42#32 } text with srcPos := 3 }
    t.blk.errCode = 0#4 ∧ t.blk.errCmd = 0#32 ∧ t.blk.phase = .count ∧ t.blk.remaining = 0#32 ∧ t.srcPos = 3 ∧ t.src = text := by
  decide +kernel
/-- T10. -/
theorem test_addSymbol : let t := after (.addSymbol 0x61#8) (fresh [])
    freqAt t.blk.freq 0x61#8 = 1#32 ∧ freqAt t.blk.freq 0x60#8 = 0#32 ∧ t.blk.inCount = 1#32 ∧ t.blk.errCode = 0#4 := by
  decide +kernel
/-- T11. -/
theorem test_addSymbol_overflow :
    let b := { Block.reset with freq := Block.reset.freq.set 0x61 0xFFFFFFFF#32, inCount := 0xFFFFFFFF#32, pending := 0x6110#32 }
    let t := after (.addSymbol 0x61#8) (on b [])
    t.blk.errCode = 9#4 ∧ t.blk.errCmd = 0x00006110#32 ∧ freqAt t.blk.freq 0x61#8 = 0xFFFFFFFF#32 := by decide +kernel
/-- T12. -/
theorem test_countSrc : let t := after .countSrc (fresh text)
    freqAt t.blk.freq 0x20#8 = 2#32 ∧ freqAt t.blk.freq 0x61#8 = 1#32 ∧ freqAt t.blk.freq 0x0A#8 = 4#32 ∧ t.blk.inCount = 7#32
      ∧ t.srcPos = 7 := by decide +kernel
/-- T1, L1.1. -/
theorem test_build : let b := (after .build (on counted [])).blk
    b.node[2] = ⟨1#32, true, 0x61#8, 0, 0⟩ ∧ b.node[3] = ⟨3#32, false, 0#8, 2, 1⟩ ∧ b.node[4] = ⟨7#32, false, 0#8, 3, 0⟩
      ∧ b.root = 4 ∧ b.nodeCount = 5 ∧ b.nLeaf = 3 ∧ b.treePresent = true := by decide +kernel
/-- T3: a leaf precedes an internal node of the same weight. -/
theorem test_build_tie :
    let b := (after .build (on { Block.reset with freq := ((Block.reset.freq.set 0x41 1#32).set 0x42 1#32).set 0x43 2#32 } [])).blk
    b.node[4] = ⟨4#32, false, 0#8, 2, 3⟩ ∧ b.root = 4 := by decide +kernel
/-- T1. -/
theorem test_assignCodes : let b := (after .assignCodes (on treed [])).blk
    b.ent[0] = ⟨0x0A#8, [true]⟩ ∧ b.ent[1] = ⟨0x20#8, [false, true]⟩ ∧ b.ent[2] = ⟨0x61#8, [false, false]⟩ ∧ b.entN = 3 := by
  decide +kernel
/-- T13. -/
theorem test_assignCodes_order : let t := after .assignCodes (on { Block.reset with pending := 0x13#32 } [])
    t.blk.errCode = 6#4 ∧ t.blk.errCmd = 0x00000013#32 ∧ t.blk.phase = .count := by decide +kernel
/-- T1. -/
theorem test_makeHeader : let b := (after .makeHeader (on { coded with phase := .coded, totalBits := 0#32, remaining := 0#32 } [])).blk
    b.totalBits = 10#32 ∧ b.symCount = 3#32 ∧ b.remaining = 10#32 ∧ b.phase = .ready := by decide +kernel
/-- T8. -/
theorem test_makeHeader_overflow :
    let b := { Block.reset with
      freq := (Block.reset.freq.set 0x61 0x80000000#32).set 0x62 0x40000000#32
      ent := (Block.reset.ent.set 0 ⟨0x61#8, [true]⟩).set 1 ⟨0x62#8, [false]⟩
      entN := 2
      phase := .coded }
    let t := after .makeHeader (on b [])
    t.blk.errCode = 9#4 ∧ t.blk.totalBits = 0#32 ∧ t.blk.phase = .coded := by decide +kernel
/-- S1. -/
theorem test_serialize : let t := after .serialize (on coded [])
    t.snk = header ∧ t.blk.hdrCount = 17#32 := by decide +kernel
/-- S2: the two integers in byte order BE. -/
theorem test_serialize_be : (after .serialize { on coded [] with cfg := ⟨.be⟩ }).snk.take 9 =
    [0x00#8, 0x00#8, 0x00#8, 0x0A#8, 0x00#8, 0x00#8, 0x00#8, 0x03#8, 0x0A#8] := by decide +kernel
/-- S7: padding bits are discarded whatever their value. -/
theorem test_deserialize :
    let t := after .deserialize (fresh [0x01#8, 0x00#8, 0x00#8, 0x00#8, 0x01#8, 0x00#8, 0x00#8, 0x00#8, 0x41#8, 0x03#8, 0x7F#8])
    t.blk.ent[0] = ⟨0x41#8, [false, true, true]⟩ ∧ t.blk.entN = 1 ∧ t.blk.phase = .ready ∧ t.blk.remaining = 1#32 := by
  decide +kernel
/-- S8. -/
theorem test_deserialize_truncated : let t := after .deserialize (fresh (header.take 10))
    t.blk.errCode = 2#4 ∧ t.blk.hdrCount = 10#32 ∧ t.blk.entN = 0 ∧ t.blk.totalBits = 10#32 ∧ t.blk.symCount = 3#32
      ∧ t.blk.phase = .count := by decide +kernel
/-- P1v. -/
theorem test_pushBits : let t := after (.pushBits 3#4 0x05#8) (fresh [])
    t.blk.pkAcc = 0xA0#8 ∧ t.blk.pkCnt = 3 ∧ t.snk = [] := by decide +kernel
/-- P5v, from its first command's end. -/
theorem test_pushBits_crosses : let t := after (.pushBits 4#4 0x0F#8) (on { Block.reset with pkAcc := 0xF8#8, pkCnt := 5 } [])
    t.snk = [0xFF#8] ∧ t.blk.pkAcc = 0x80#8 ∧ t.blk.pkCnt = 1 ∧ t.blk.payCount = 1#32 := by decide +kernel
/-- P10v. -/
theorem test_pushCode : let t := after (.pushCode 0x20#8) (on coded [])
    t.blk.pkAcc = 0x40#8 ∧ t.blk.pkCnt = 2 := by decide +kernel
/-- P11v. -/
theorem test_pushCode_unknown : let t := after (.pushCode 0x62#8) (on { coded with pending := 0x6231#32 } [])
    t.blk.errCode = 7#4 ∧ t.blk.errCmd = 0x00006231#32 ∧ t.blk.pkCnt = 0 := by decide +kernel
/-- P2v. -/
theorem test_flush : let t := after .flush (on { Block.reset with pkAcc := 0xA0#8, pkCnt := 3 } [])
    t.snk = [0xA0#8] ∧ t.blk.pkCnt = 0 ∧ t.blk.payCount = 1#32 := by decide +kernel
/-- P6v: nothing to flush. -/
theorem test_flush_empty : let t := after .flush (fresh [])
    t.snk = [] ∧ t.blk.payCount = 0#32 := by decide +kernel
/-- P12v. -/
theorem test_encodeSrc : let t := after .encodeSrc (on coded text)
    t.snk = [0x47#8, 0xC0#8] ∧ t.blk.payCount = 2#32 ∧ t.blk.pkCnt = 0 ∧ t.srcPos = 7 := by decide +kernel
/-- P13v's stop: the unknown byte is consumed and the partial byte not flushed. -/
theorem test_encodeSrc_unknown : let t := after .encodeSrc (on coded [0x20#8, 0x63#8, 0x0A#8])
    t.blk.errCode = 7#4 ∧ t.srcPos = 2 ∧ t.snk = [] ∧ t.blk.pkAcc = 0x40#8 ∧ t.blk.pkCnt = 2 := by decide +kernel
/-- D1, step 1. -/
theorem test_decodeStep : let t := after .decodeStep (on coded [0x47#8, 0xC0#8])
    t.blk.cand = [false] ∧ t.blk.remaining = 10#32 ∧ t.blk.unpkCnt = 7 ∧ t.blk.payCount = 1#32 ∧ t.snk = [] := by decide +kernel
/-- D1, step 2. -/
theorem test_decodeStep_match :
    let t := after .decodeStep (on { coded with cand := [false], unpkByte := 0x47#8, unpkCnt := 7 } [])
    t.blk.cand = [] ∧ t.blk.remaining = 8#32 ∧ t.blk.unpkCnt = 6 ∧ t.snk = [0x20#8] := by decide +kernel
/-- D1, FINISH: unread padding bits are not checked. -/
theorem test_decodeFinish : (after .decodeFinish (on { coded with remaining := 0#32, unpkByte := 0xC0#8, unpkCnt := 6 } [])).blk.phase
    = .done := by decide +kernel
/-- D14: a byte is left. -/
theorem test_decodeFinish_trailing : (after .decodeFinish (on { coded with remaining := 0#32 } [0x00#8])).blk.errCode = 4#4 := by
  decide +kernel
/-- D2, from DESERIALIZE's end. -/
theorem test_decodeRun : let t := after .decodeRun (on coded [0x47#8, 0xC0#8])
    t.snk = text ∧ t.blk.outCount = 7#32 ∧ t.blk.payCount = 2#32 ∧ t.blk.phase = .done ∧ t.blk.unpkCnt = 6 := by decide +kernel
/-- D7. -/
theorem test_decodeRun_trailing : let t := after .decodeRun (on { coded with totalBits := 3#32, remaining := 3#32 } [0x00#8])
    t.blk.errCode = 4#4 ∧ t.snk = [0x61#8] ∧ t.blk.unpkCnt = 5 ∧ t.blk.remaining = 1#32 := by decide +kernel

/-- X7, X8, X12, T16, T17, T18, P1v, X11: the register window. -/
theorem test_registers :
    readValue 32 0x5C#8 State.reset = 0x48554601#32
    ∧ (regWrite 32 0x00#8 0x12#32 (on { Block.reset with busy := true } [])).blk.ovr = true
    ∧ readValue 32 0x40#8 (regWrite 32 0x40#8 0xFFFFFFFF#32 State.reset) = 0x000701FF#32
    ∧ readValue 32 0x4C#8 (on { treed with selIndex := 3#9 } []) = 0x00000202#32
    ∧ readValue 32 0x4C#8 (on treed []) = 0x80280000#32 ∧ readValue 32 0x38#8 (on treed []) = 0x80040005#32
    ∧ readValue 32 0x50#8 (on { coded with selIndex := 1#9 } []) = 0x00000220#32
    ∧ readValue 32 0x54#8 (on { coded with selIndex := 1#9 } []) = 0x40000000#32
    ∧ readValue 32 0x30#8 (on { Block.reset with pkAcc := 0xA0#8, pkCnt := 3 } []) = 0x000003A0#32
    ∧ readValue 32 0x80#8 State.reset = 0#32 := by decide +kernel

/-- R110's examples and the lines of section 8's programs. -/
theorem test_assembler :
    (assembleLine "PUSH_BITS 3, 0b101").map encode = some 0x00030530#32
    ∧ (assembleLine "ADD_SYMBOL 'a'").map encode = some 0x00006110#32
    ∧ (assembleLine "PUSH_CODE ' '").map encode = some 0x00002031#32
    ∧ (assembleLine "ADD_SYMBOL '\\n'").map encode = some 0x00000A10#32
    ∧ (assembleLine "PUSH_BITS 8, 0xFF").map encode = some 0x0008FF30#32
    ∧ (assembleLine "DECODE_RUN").map encode = some 0x00000042#32
    ∧ (assembleLine "PUSH_BITS 8, 0xfE").map encode = some 0x0008FE30#32
    ∧ assembleLine "PUSH_BITS 3, 0b12" = none ∧ assembleLine "PUSH_BITS 3, 0x" = none
    ∧ assembleLine "PUSH_BITS 3, 0x50" = none ∧ assembleLine "FLUSH 1" = none := by decide +kernel

/-- The word a host writes is the word the next step runs. -/
theorem test_fetch : blockTurn (State.reset.withFetchWord 32 0x00006110) = true
    ∧ (State.reset.withFetchWord 32 0x00006110).blk.pending = 0x00006110#32 := by decide +kernel

/-- P13v's bytes in the order R207 gives: five bytes are read, whose codes fill 0x47, then the last two, then the flush. The
hardware reset leaves the ports as they are (R340). -/
theorem test_encodeSrc_inProgress :
    let s := fun n => { on { coded with busy := true, pending := 0x33#32 } text with progress := n }
    pendingEffects (s 0) = [.read, .read, .read, .read, .read, .write 0x47#8, .read, .read, .write 0xC0#8]
    ∧ portPos (s 5) = 5 ∧ portSink (s 5) = [] ∧ portPos (s 6) = 5 ∧ portSink (s 6) = [0x47#8]
    ∧ (hardReset (s 8)).srcPos = 7 ∧ (hardReset (s 8)).snk = [0x47#8] ∧ (hardReset (s 8)).blk.busy = false := by
  decide +kernel
/-- D1's symbols in the order R235 gives: each is written when its last bit has been handed over. -/
theorem test_decodeRun_inProgress :
    let s := fun n => { on { coded with busy := true, pending := 0x42#32 } [0x47#8, 0xC0#8] with progress := n }
    pendingEffects (s 0) = [.read, .write 0x20#8, .write 0x61#8, .write 0x20#8, .write 0x0A#8, .write 0x0A#8, .read,
      .write 0x0A#8, .write 0x0A#8]
    ∧ portPos (s 3) = 1 ∧ portSink (s 3) = [0x20#8, 0x61#8] := by decide +kernel

/-! ### Hypotheses that can be met: one theorem for each statement that has some, at boundary values -/

/-- A state whose block is about to run a word. -/
def run (w : Word) (b : Block) (src : List Byte) : State := on { b with busy := true, pending := w } src

theorem run_answers (w : Word) (b : Block) (src : List Byte) : ∃ t, step (run w b src) = .next t := by
  have h : step (run w b src) = blockStep (run w b src) := rfl
  rw [h]; exact blockStep_next _

/-- A block without a tree meets what is said of the tree. -/
theorem noTree_treeInv {b : Block} (h1 : b.nLeaf = 0) (h2 : b.nodeCount = 0) (h3 : b.root = 0) (h4 : b.treePresent = false)
    (h5 : b.node = Vector.replicate 511 Node.zero) : TreeInv b where
  counting := fun _ => h1
  size := by rw [h1, h2]; rfl
  present := by simp [h1, h4]
  root := by rw [h2, h3]; rfl
  leaf := fun i hi => absurd hi (by simp [h1])
  ascending := fun i j _ hj => absurd hj (by simp [h1])
  inner := fun k _ hk => absurd hk (by simp [h2])
  once := fun j k _ _ hk => absurd hk (by simp [h2])
  parent := fun i hi => absurd hi (by simp [h3])
  total := fun h => absurd h1 h
  unused := fun i _ => by simp [h5, nodeAt]

theorem counted_countInv : CountInv counted := by unfold CountInv; decide +kernel

/-- The tree over three leaves. -/
def built3 : State := buildTree (on counted [])
/-- The tree of one leaf, 10 × 'x' (L1.3). -/
def built1 : State := buildTree (on { Block.reset with freq := Block.reset.freq.set 0x78 10#32, inCount := 10#32 } [])
/-- No tree (L1.4). -/
def built0 : State := buildTree (fresh [])

theorem built3_treeInv : TreeInv built3.blk := treeInv_buildTree _ counted_countInv rfl (noTree_treeInv rfl rfl rfl rfl rfl)
theorem built1_treeInv : TreeInv built1.blk :=
  treeInv_buildTree _ (by unfold CountInv; decide +kernel) rfl (noTree_treeInv rfl rfl rfl rfl rfl)
theorem built0_treeInv : TreeInv built0.blk :=
  treeInv_buildTree _ (by unfold CountInv; decide +kernel) rfl (noTree_treeInv rfl rfl rfl rfl rfl)
theorem built3_nLeaf : built3.blk.nLeaf.val = 3 := by unfold built3; rw [buildTree_nLeaf]; decide +kernel
theorem built1_nLeaf : built1.blk.nLeaf.val = 1 := by unfold built1; rw [buildTree_nLeaf]; decide +kernel
theorem built0_nLeaf : built0.blk.nLeaf.val = 0 := by unfold built0; rw [buildTree_nLeaf]; decide +kernel

theorem coded_decoderInv : DecoderInv coded := by constructor <;> decide +kernel
theorem coded_prefixFree : PrefixFree coded := by
  have h : ∀ i j : Fin 3, i ≠ j → ¬ (coded.ent[i.val]'(by omega)).code <+: (coded.ent[j.val]'(by omega)).code := by decide +kernel
  intro i j hi hj hne
  exact h ⟨i.val, hi⟩ ⟨j.val, hj⟩ fun e => hne (Fin.ext (Fin.mk.inj e))

/-- Counts and table in coded's form are in order. -/
theorem coded_tableInv : TableInv coded where
  unused := by decide +kernel
  short := by decide +kernel
  closed := by decide +kernel
  coded := fun h => by cases h

theorem witness_DecodeOfEncode : (Instr.pushBits 8#4 0xFF#8).wf = true ∧ (Instr.pushBits 1#4 0x00#8).wf = true := by decide

theorem witness_EncodeOfDecode : decode 0x0008FF30#32 = .ok (.pushBits 8#4 0xFF#8) := rfl

theorem witness_PushBitsWordIsLegalIff :
    (let w := 0x0008FF30#32
     w.extractLsb' 0 8 = 0x30#8 ∧ w.extractLsb' 20 12 = 0#12 ∧ 1 ≤ (w.extractLsb' 16 4).toNat ∧ (w.extractLsb' 16 4).toNat ≤ 8
       ∧ ∀ k, (w.extractLsb' 16 4).toNat ≤ k → k < 8 → (w.extractLsb' 8 8).getLsbD k = false)
    ∧ (let w := 0x00090030#32
       let s := run w Block.reset []
       w.extractLsb' 0 8 = 0x30#8 ∧ ¬ (w.extractLsb' 16 4).toNat ≤ 8 ∧ s.blk.busy = true ∧ s.blk.errCode = 0#4 ∧ s.blk.pending = w) := by
  refine ⟨⟨by decide, by decide, by decide, by decide, fun k h1 h2 => ?_⟩, by decide +kernel⟩
  have : 8 ≤ k := h1
  omega

theorem witness_ReservedWordsRaiseIllegalCommand :
    (let s := run 0x00000100#32 Block.reset []
     s.blk.busy = true ∧ s.blk.errCode = 0#4 ∧ s.blk.pending.extractLsb' 0 8 = 0x00#8 ∧ s.blk.pending.extractLsb' 8 24 ≠ 0#24)
    ∧ (let s := run 0x80000031#32 Block.reset []
       s.blk.busy = true ∧ s.blk.errCode = 0#4 ∧ s.blk.pending.extractLsb' 0 8 = 0x31#8 ∧ s.blk.pending.extractLsb' 16 16 ≠ 0#16)
    ∧ (let s := run 0x00000043#32 Block.reset []
       s.blk.busy = true ∧ s.blk.errCode = 0#4 ∧ s.blk.pending.extractLsb' 0 8 = 0x43#8) := by decide +kernel

theorem witness_StepRunsDecodedCommand :
    (blockTurn (run 0x00000042#32 Block.reset []) = true ∧ decode 0x00000042#32 = .ok .decodeRun)
    ∧ (let s := { run 0x00000042#32 Block.reset [] with script := [.readSink, .awaitIdle] }
       blockTurn s = false ∧ s.script = .readSink :: [.awaitIdle])
    ∧ (State.reset.blk.busy = false ∧ State.reset.script = []) := ⟨⟨rfl, rfl⟩, ⟨rfl, rfl⟩, ⟨rfl, rfl⟩⟩

theorem witness_ErrorsAreStickyForEveryWord : let s := run 0x00010130#32 { Block.reset with errCode := 5#4 } []
    s.blk.busy = true ∧ s.blk.errCode ≠ 0#4 ∧ s.blk.pending ≠ 0x00000000#32 ∧ s.blk.pending ≠ 0x00000001#32 := by decide +kernel

theorem witness_OutOfOrderCommandsRaiseSequenceError :
    (on treed []).blk.errCode = 0#4 ∧ (on treed []).blk.phase ≠ .count
    ∧ (fresh []).blk.errCode = 0#4 ∧ (fresh []).blk.phase ≠ .built ∧ (fresh []).blk.phase ≠ .coded ∧ (fresh []).blk.phase ≠ .ready
    ∧ (on { coded with pkCnt := 1 } []).blk.phase = .ready ∧ (on { coded with pkCnt := 1 } []).blk.pkCnt ≠ 0
    ∧ (on coded []).blk.phase = .ready ∧ (on coded []).blk.remaining ≠ 0#32 := by decide +kernel

theorem witness_EveryStepAnswers : hostKeepsSource State.reset
    ∧ step { run 0x00000000#32 Block.reset [] with script := [.rewindSource] } = .fault .sourceChangedWhileBusy :=
  ⟨fun h => (by cases h), rfl⟩

theorem witness_AddSymbolCountsOrOverflows :
    (let s := on { Block.reset with inCount := 0xFFFFFFFE#32 } []
     s.blk.errCode = 0#4 ∧ s.blk.phase = .count ∧ s.blk.inCount ≠ 0xFFFFFFFF#32)
    ∧ (let s := on { Block.reset with inCount := 0xFFFFFFFF#32 } []
       s.blk.errCode = 0#4 ∧ s.blk.phase = .count ∧ s.blk.inCount = 0xFFFFFFFF#32) := by decide +kernel

theorem witness_CountSrcCountsEveryByte : let s := on { Block.reset with inCount := 0xFFFFFFFE#32 } [0x41#8]
    s.blk.errCode = 0#4 ∧ s.blk.phase = .count ∧ PortInv s ∧ s.blk.inCount.toNat + (restOfSource s).length < 2 ^ 32 := by
  unfold PortInv; decide +kernel

theorem witness_CountSrcOverflowsAtTheByte : let s := on { Block.reset with inCount := 0xFFFFFFFF#32 } [0x41#8]
    s.blk.errCode = 0#4 ∧ s.blk.phase = .count ∧ 2 ^ 32 ≤ s.blk.inCount.toNat + (restOfSource s).length := by decide +kernel

theorem witness_BuildPlacesLeavesInSymbolOrder :
    (on counted []).blk.errCode = 0#4 ∧ (on counted []).blk.phase = .count ∧ (countedSymbols (on counted []).blk.freq).length = 3 := by
  decide +kernel

theorem witness_BuildMergesTheTwoLeast :
    (on counted []).blk.errCode = 0#4 ∧ (on counted []).blk.phase = .count ∧ built3.blk.nLeaf.val = 3 :=
  ⟨rfl, rfl, built3_nLeaf⟩

theorem witness_AssignCodesFollowsTheTree :
    (built3.blk.errCode = 0#4 ∧ built3.blk.phase = .built ∧ TreeInv built3.blk ∧ 1 < built3.blk.nLeaf.val)
    ∧ (built1.blk.errCode = 0#4 ∧ built1.blk.phase = .built ∧ TreeInv built1.blk ∧ built1.blk.nLeaf.val = 1)
    ∧ (built0.blk.errCode = 0#4 ∧ built0.blk.phase = .built ∧ TreeInv built0.blk ∧ built0.blk.nLeaf.val = 0) :=
  ⟨⟨rfl, rfl, built3_treeInv, by rw [built3_nLeaf]; decide⟩, ⟨rfl, rfl, built1_treeInv, built1_nLeaf⟩,
    ⟨rfl, rfl, built0_treeInv, built0_nLeaf⟩⟩

theorem witness_AssignedCodesArePrefixFree : built3.blk.errCode = 0#4 ∧ built3.blk.phase = .built ∧ TreeInv built3.blk :=
  ⟨rfl, rfl, built3_treeInv⟩

/-- T9 and the next frequency. -/
theorem witness_MakeHeaderSumsWeightedLengths :
    let b := fun v : Word => { Block.reset with
      freq := Block.reset.freq.set 0x61 v
      ent := Block.reset.ent.set 0 ⟨0x61#8, [false]⟩
      entN := 1
      phase := .coded }
    (∀ v, (b v).errCode = 0#4 ∧ (b v).phase = .coded)
    ∧ encodedBits (b 0x7FFFFFFF#32) = 0x7FFFFFFF ∧ encodedBits (b 0x80000000#32) = 0x80000000 :=
  ⟨fun _ => ⟨rfl, rfl⟩, by decide +kernel, by decide +kernel⟩

/-- The last byte and bit of a 9-bit code's two bytes. -/
theorem witness_HeaderBytesAreAsSpecified : let e : Entry := ⟨0x41#8, List.replicate 9 true⟩
    3 < 4 ∧ 1 < (e.len + 7) / 8 ∧ 7 < 8 := by decide

theorem witness_SerializeWritesTheHeader :
    (on coded []).blk.errCode = 0#4 ∧ (on coded []).blk.phase = .ready ∧ (on coded []).blk.pkCnt = 0 := by decide +kernel

/-- S7, whose code byte has padding bits set. -/
theorem witness_DeserializeReadsTheTable :
    let raw : List (Byte × Byte × List Byte) := [(0x41#8, 0x03#8, [0x7F#8])]
    let s := fresh [0x01#8, 0x00#8, 0x00#8, 0x00#8, 0x01#8, 0x00#8, 0x00#8, 0x00#8, 0x41#8, 0x03#8, 0x7F#8]
    s.blk.errCode = 0#4 ∧ s.blk.phase = .count ∧ (1#32).msb = false ∧ raw.length ≤ 256 ∧ (1#32).toNat = raw.length
    ∧ (∀ r ∈ raw, r.2.2.length = (r.2.1.toNat + 7) / 8)
    ∧ restOfSource s = u32Bytes s.cfg.hdrOrder 1#32 ++ u32Bytes s.cfg.hdrOrder 1#32
      ++ (raw.flatMap fun r => r.1 :: r.2.1 :: r.2.2) ++ [] := by decide +kernel

/-- S10 and S11. -/
theorem witness_DeserializeChecksTheRange :
    (let s := fresh [0x00#8, 0x00#8, 0x00#8, 0x80#8, 0x00#8, 0x00#8, 0x00#8, 0x00#8]
     s.blk.errCode = 0#4 ∧ s.blk.phase = .count ∧ (0x80000000#32).toInt < 0
       ∧ restOfSource s = u32Bytes s.cfg.hdrOrder 0x80000000#32 ++ u32Bytes s.cfg.hdrOrder 0#32 ++ [])
    ∧ (let s := fresh [0x00#8, 0x00#8, 0x00#8, 0x00#8, 0xFF#8, 0xFF#8, 0xFF#8, 0xFF#8]
       s.blk.errCode = 0#4 ∧ s.blk.phase = .count ∧ (0xFFFFFFFF#32).toInt < 0
         ∧ restOfSource s = u32Bytes s.cfg.hdrOrder 0#32 ++ u32Bytes s.cfg.hdrOrder 0xFFFFFFFF#32 ++ [])
    ∧ (let s := fresh [0x00#8, 0x00#8, 0x00#8, 0x00#8, 0x01#8, 0x01#8, 0x00#8, 0x00#8]
       s.blk.errCode = 0#4 ∧ s.blk.phase = .count ∧ 256 < (257#32).toInt
         ∧ restOfSource s = u32Bytes s.cfg.hdrOrder 0#32 ++ u32Bytes s.cfg.hdrOrder 257#32 ++ []) := by decide +kernel

/-- S9, Q4's place, and S8. -/
theorem witness_DeserializeStopsWhereTheHeaderEnds :
    (∀ src, (fresh src).blk.errCode = 0#4 ∧ (fresh src).blk.phase = .count)
    ∧ ((restOfSource (fresh [0x0A#8, 0x00#8, 0x00#8])).length < 4)
    ∧ (let s := fresh [0xFF#8, 0xFF#8, 0xFF#8, 0xFF#8, 0x01#8, 0x01#8, 0x00#8]
       [0x01#8, 0x01#8, 0x00#8].length < 4
         ∧ restOfSource s = u32Bytes s.cfg.hdrOrder 0xFFFFFFFF#32 ++ [0x01#8, 0x01#8, 0x00#8])
    ∧ (let s := fresh (header.take 13)
       let raw : List (Byte × Byte × List Byte) := [(0x0A#8, 0x01#8, [0x80#8])]
       (10#32).msb = false ∧ (3#32).toNat ≤ 256 ∧ raw.length < (3#32).toNat
         ∧ (∀ r ∈ raw, r.2.2.length = (r.2.1.toNat + 7) / 8)
         ∧ (∀ sym len bytes, [0x20#8, 0x02#8] = sym :: len :: bytes → bytes.length < (len.toNat + 7) / 8)
         ∧ restOfSource s = u32Bytes s.cfg.hdrOrder 10#32 ++ u32Bytes s.cfg.hdrOrder 3#32
           ++ (raw.flatMap fun r => r.1 :: r.2.1 :: r.2.2) ++ [0x20#8, 0x02#8]) := by
  refine ⟨fun _ => ⟨rfl, rfl⟩, by decide +kernel, by decide +kernel, by decide, by decide, by decide, by decide, ?_, by decide +kernel⟩
  intro sym len bytes h
  obtain ⟨rfl, rfl, rfl⟩ : 0x20#8 = sym ∧ 0x02#8 = len ∧ [] = bytes := by simpa using h
  decide

theorem witness_DeserializeReadsBackSerialize :
    let s := on coded []
    s.blk.errCode = 0#4 ∧ s.blk.phase = .ready ∧ s.blk.pkCnt = 0 ∧ s.blk.totalBits.toNat ≤ 0x7FFFFFFF
    ∧ s.blk.symCount.toNat = s.blk.entN.val ∧ (∀ i : Fin 256, i.val < s.blk.entN.val → s.blk.ent[i].len ≤ 255)
    ∧ (fresh header).cfg = s.cfg ∧ (fresh header).blk.errCode = 0#4 ∧ (fresh header).blk.phase = .count
    ∧ restOfSource (fresh header) = (after .serialize s).snk ++ [] := by decide +kernel

theorem witness_PushBitsKeepsBitOrder : (fresh []).blk.errCode = 0#4 := rfl

theorem coded_first (i : Fin 256) (c : Byte) (h : i.val < 3 ∧ coded.ent[i].sym = c ∧ ∀ j : Fin 256, j < i → ¬ coded.ent[j].sym = c)
    (src : List Byte) : firstEntry (on coded src).blk (fun e => e.sym = c) i := h
theorem coded_code (i : Fin 256) (c : Bits) (h : i.val < 3 ∧ coded.ent[i].code = c ∧ ∀ j : Fin 256, j < i → ¬ coded.ent[j].code = c)
    (src : List Byte) : firstEntry (on coded src).blk (fun e => e.code = c) i := h
theorem coded_no_symbol (c : Byte) (h : ∀ i : Fin 256, i.val < 3 → ¬ coded.ent[i].sym = c) (src : List Byte) :
    noEntry (on coded src).blk (fun e => e.sym = c) := h
theorem coded_no_code (c : Bits) (h : ∀ i : Fin 256, i.val < 3 → ¬ coded.ent[i].code = c) (src : List Byte) :
    noEntry (on coded src).blk (fun e => e.code = c) := h

theorem witness_PushCodePushesTheFirstEntry :
    (on coded []).blk.errCode = 0#4 ∧ (on coded []).blk.phase = .ready
    ∧ firstEntry (on coded []).blk (fun e => e.sym = 0x61#8) 2 ∧ noEntry (on coded []).blk (fun e => e.sym = 0x62#8) :=
  ⟨rfl, rfl, coded_first 2 0x61#8 (by decide +kernel) [], coded_no_symbol 0x62#8 (by decide +kernel) []⟩

theorem witness_FlushWritesThePartialByte :
    (on { Block.reset with pkCnt := 1 } []).blk.errCode = 0#4 ∧ (on { Block.reset with pkCnt := 1 } []).blk.pkCnt ≠ 0
    ∧ (fresh []).blk.errCode = 0#4 ∧ (fresh []).blk.pkCnt = 0 := by decide +kernel

theorem witness_EncodeSrcPacksEveryCode :
    let s := on coded [0x20#8, 0x0A#8]
    s.blk.errCode = 0#4 ∧ s.blk.phase = .ready ∧ PortInv s ∧ PackerInv s.blk
    ∧ List.Forall₂ (fun c code => ∃ i : Fin 256, firstEntry s.blk (fun e => e.sym = c) i ∧ s.blk.ent[i].code = code)
      (restOfSource s) [[false, true], [true]] :=
  ⟨rfl, rfl, by unfold PortInv; decide, fun k _ => by simp [on, coded, counted, Block.reset],
    .cons ⟨1, coded_first 1 0x20#8 (by decide +kernel) _, by decide +kernel⟩
      (.cons ⟨0, coded_first 0 0x0A#8 (by decide +kernel) _, by decide +kernel⟩ .nil)⟩

theorem witness_EncodeSrcStopsAtUnknownSymbol :
    let s := on coded [0x20#8, 0x63#8, 0x0A#8]
    s.blk.errCode = 0#4 ∧ s.blk.phase = .ready ∧ restOfSource s = [0x20#8] ++ 0x63#8 :: [0x0A#8]
    ∧ List.Forall₂ (fun c code => ∃ i : Fin 256, firstEntry s.blk (fun e => e.sym = c) i ∧ s.blk.ent[i].code = code)
      [0x20#8] [[false, true]]
    ∧ noEntry s.blk (fun e => e.sym = 0x63#8) :=
  ⟨rfl, rfl, rfl, .cons ⟨1, coded_first 1 0x20#8 (by decide +kernel) _, by decide +kernel⟩ .nil,
    coded_no_symbol 0x63#8 (by decide +kernel) _⟩

/-- A bit that completes the code "1", and a bit that completes none. -/
theorem witness_DecodeStepReadsOneBit :
    (let s := on coded [0xC0#8]
     s.blk.errCode = 0#4 ∧ s.blk.phase = .ready ∧ s.blk.remaining ≠ 0#32
       ∧ unreadBits s = true :: [true, false, false, false, false, false, false]
       ∧ firstEntry s.blk (fun e => e.code = s.blk.cand ++ [true]) 0)
    ∧ (let s := on coded [0x47#8]
       s.blk.errCode = 0#4 ∧ s.blk.phase = .ready ∧ s.blk.remaining ≠ 0#32 ∧ unreadBits s = false :: [true, false, false, false, true, true, true]
         ∧ noEntry s.blk (fun e => e.code = s.blk.cand ++ [false]) ∧ (s.blk.cand ++ [false]).length ≤ 255
         ∧ (s.blk.cand ++ [false]).length ≠ s.blk.remaining.toNat) :=
  ⟨⟨rfl, rfl, by decide +kernel, by decide +kernel, coded_code 0 [true] (by decide +kernel) _⟩,
    ⟨rfl, rfl, by decide +kernel, by decide +kernel, coded_no_code [false] (by decide +kernel) _, by decide +kernel, by decide +kernel⟩⟩

/-- A block whose candidate holds `n` ones, with an empty table. -/
def ones (n : Nat) (owed : Word) : Block :=
  { Block.reset with phase := .ready, totalBits := owed, remaining := owed, cand := List.replicate n true }

theorem witness_DecodeStepRaisesInOrder :
    (let s := on (ones 0 1#32) []
     s.blk.errCode = 0#4 ∧ s.blk.phase = .ready ∧ s.blk.remaining ≠ 0#32 ∧ unreadBits s = [])
    ∧ (let s := on (ones 255 256#32) [0xFF#8]
       s.blk.errCode = 0#4 ∧ s.blk.phase = .ready ∧ s.blk.remaining ≠ 0#32 ∧ unreadBits s = true :: List.replicate 7 true ∧ 255 < (s.blk.cand ++ [true]).length
         ∧ noEntry s.blk (fun e => e.code = s.blk.cand ++ [true]))
    ∧ (let s := on (ones 254 255#32) [0xFF#8]
       s.blk.errCode = 0#4 ∧ s.blk.phase = .ready ∧ s.blk.remaining ≠ 0#32 ∧ unreadBits s = true :: List.replicate 7 true
         ∧ (s.blk.cand ++ [true]).length = s.blk.remaining.toNat ∧ noEntry s.blk (fun e => e.code = s.blk.cand ++ [true])) :=
  ⟨by decide +kernel, ⟨rfl, rfl, by decide +kernel, by decide +kernel, by decide +kernel, fun _ h => absurd h (Nat.not_lt_zero _)⟩,
    ⟨rfl, rfl, by decide +kernel, by decide +kernel, by decide +kernel, fun _ h => absurd h (Nat.not_lt_zero _)⟩⟩

theorem witness_DecodeStepIsIdleWhenNothingIsOwed :
    (on (ones 0 0#32) []).blk.errCode = 0#4 ∧ (on (ones 0 0#32) []).blk.phase = .ready ∧ (on (ones 0 0#32) []).blk.remaining = 0#32 := by
  decide +kernel

theorem witness_DecodeFinishChecksTheEnd :
    (let s := on (ones 0 0#32) []
     s.blk.errCode = 0#4 ∧ s.blk.phase = .ready ∧ s.blk.remaining = 0#32 ∧ s.blk.cand = [] ∧ s.srcPos = s.src.length)
    ∧ (let s := on (ones 1 0#32) []
       s.blk.errCode = 0#4 ∧ s.blk.phase = .ready ∧ s.blk.remaining = 0#32 ∧ s.blk.cand ≠ [])
    ∧ (let s := on (ones 0 0#32) [0x00#8]
       s.blk.errCode = 0#4 ∧ s.blk.phase = .ready ∧ s.blk.remaining = 0#32 ∧ s.srcPos ≠ s.src.length) := by decide +kernel

/-- " a" in one byte, "01" then "00", with four padding bits. -/
theorem witness_DecodeRunDecodesThePayload :
    let s := on { coded with remaining := 4#32 } [0x40#8]
    let ms : List (Fin 256) := [1, 2]
    s.blk.errCode = 0#4 ∧ s.blk.phase = .ready ∧ s.blk.cand = [] ∧ PortInv s ∧ PrefixFree s.blk
    ∧ (∀ i : Fin 256, i.val < s.blk.entN.val → 1 ≤ s.blk.ent[i].len ∧ s.blk.ent[i].len ≤ 255)
    ∧ (∀ i ∈ ms, i.val < s.blk.entN.val)
    ∧ unreadBits s = (ms.flatMap fun i => s.blk.ent[i].code) ++ [false, false, false, false]
    ∧ [false, false, false, false].length < 8
    ∧ s.blk.remaining.toNat = (ms.map fun i => s.blk.ent[i].len).sum :=
  ⟨rfl, rfl, rfl, by unfold PortInv; decide, coded_prefixFree, by decide +kernel, by decide +kernel, by decide +kernel,
    by decide, by decide +kernel⟩

theorem witness_DecodeRunContinuesFromSteps :
    (let s := on coded [0x47#8]
     s.blk.errCode = 0#4 ∧ s.blk.phase = .ready ∧ s.blk.remaining ≠ 0#32 ∧ (after .decodeStep s).blk.errCode = 0#4)
    ∧ (let s := on coded []
       s.blk.errCode = 0#4 ∧ s.blk.phase = .ready ∧ s.blk.remaining ≠ 0#32 ∧ (after .decodeStep s).blk.errCode ≠ 0#4)
    ∧ (on (ones 0 0#32) []).blk.remaining = 0#32 := by decide +kernel

theorem witness_DecodeRunEndsInOneOfThreeWays :
    (on coded text).blk.errCode = 0#4 ∧ (on coded text).blk.phase = .ready ∧ PortInv (on coded text) ∧ DecoderInv (on coded text).blk :=
  ⟨rfl, rfl, by unfold PortInv; decide, coded_decoderInv⟩

theorem witness_DecodeStateMachineTable :
    decodeState { coded with errCode := 4#4 } = some .failed ∧ decodeState { coded with phase := .done } = some .done
    ∧ decodeState (ones 0 0#32) = some .drained ∧ decodeState coded = some .owing := by decide +kernel

theorem witness_RegisterWritesTakeEffectOnlyAtCmdAndSel :
    State.reset.blk.busy = false ∧ (run 0#32 Block.reset []).blk.busy = true ∧ (0x5C#8).toNat % 4 = 0 ∧ (0x41#8).toNat % 4 ≠ 0 := by
  decide +kernel

theorem witness_IdleRegistersReadTheirFields :
    (on coded []).blk.busy = false ∧ (on coded []).blk.candLen < 512 ∧ 0x64 ≤ (0x64#8).toNat := by decide +kernel

/-- The last index inside and the first outside each range. -/
theorem witness_IndirectRegistersReadTheSelectedElement :
    (let s := on { treed with selIndex := 255#9 } []
     s.blk.busy = false ∧ s.blk.selIndex.toNat = (0xFF#8).toNat)
    ∧ (let s := on { treed with selIndex := 256#9 } []
       s.blk.busy = false ∧ 256 ≤ s.blk.selIndex.toNat)
    ∧ (let s := on { treed with selIndex := 4#9 } []
       s.blk.selIndex.toNat = (4 : Fin 511).val ∧ (4 : Fin 511).val < s.blk.nodeCount.val)
    ∧ (let s := on { treed with selIndex := 5#9 } []
       s.blk.nodeCount.val ≤ s.blk.selIndex.toNat)
    ∧ (let s := on { coded with selIndex := 2#9 } []
       s.blk.selIndex.toNat = (2 : Fin 256).val ∧ (2 : Fin 256).val < s.blk.entN.val ∧ s.blk.ent[(2 : Fin 256)].len ≤ 255)
    ∧ (let s := on { coded with selIndex := 3#9 } []
       s.blk.entN.val ≤ s.blk.selIndex.toNat) := by decide +kernel

theorem witness_BusyReadsShowBusyAndOverrun : (run 0#32 Block.reset []).blk.busy = true ∧ (0x02#8).toNat % 4 ≠ 0 := by decide +kernel

theorem witness_HardResetDropsTheCommand : State.reset.blk.busy = false ∧ (run 0x11#32 Block.reset text).blk.busy = true
    ∧ ∃ u, blockStep (run 0x11#32 Block.reset text) = .next u := ⟨rfl, rfl, blockStep_next _⟩

theorem witness_PortsShowTheCommandInOrder : State.reset.blk.busy = false
    ∧ (let s := { run 0x33#32 coded text with progress := 9 }
       s.blk.busy = true ∧ (∃ u, blockStep s = .next u) ∧ (pendingEffects s).length ≤ s.progress)
    ∧ (let s := { run 0x33#32 coded text with progress := 8 }
       s.progress < (pendingEffects s).length)
    ∧ (let s := run 0x33#32 coded text
       s.blk.busy = true ∧ (∃ u, blockStep s = .next u) ∧ s.progress = 0) :=
  ⟨rfl, ⟨rfl, blockStep_next _, by decide +kernel⟩, by decide +kernel, ⟨rfl, blockStep_next _, rfl⟩⟩

theorem witness_EncodeSrcWritesOnlyWhatItHasRead : let s := { run 0x33#32 coded text with progress := 6 }
    s.blk.busy = true ∧ decode s.blk.pending = .ok .encodeSrc ∧ portPos s = 5 := by decide +kernel

theorem witness_SourceMovesOnlyWhileIdle : State.reset.blk.busy = false ∧ (run 0#32 Block.reset []).blk.busy = true := ⟨rfl, rfl⟩

theorem witness_StepKeepsTheCount : (∃ t, step (run 0x11#32 counted text) = .next t) ∧ CountInv (run 0x11#32 counted text).blk :=
  ⟨run_answers _ _ _, counted_countInv⟩

theorem witness_StepKeepsThePackerAligned :
    let b := { Block.reset with pkAcc := 0xA0#8, pkCnt := 3 }
    (∃ t, step (run 0x00010130#32 b []) = .next t) ∧ PackerInv (run 0x00010130#32 b []).blk := by
  refine ⟨run_answers _ _ _, fun k h => ?_⟩
  have h : k < 5 := h
  show (0xA0#8).getLsbD k = false
  interval_cases k <;> decide

theorem witness_StepKeepsTheStreams :
    (∃ t, step (run 0x11#32 Block.reset text) = .next t) ∧ PortInv (run 0x11#32 Block.reset text)
    ∧ blockTurn (run 0x11#32 Block.reset text) = true
    ∧ (let s := { run 0x33#32 coded text with script := [.readSink], progress := 6 }
       blockTurn s = false ∧ (∃ t, step s = .next t) ∧ PortInv s
       ∧ ∀ m ms, s.script = m :: ms → m ≠ .rewindSource ∧ ∀ bs, m ≠ .presentSource bs) :=
  ⟨run_answers _ _ _, by unfold PortInv; decide, rfl, rfl, ⟨_, rfl⟩, by unfold PortInv; decide,
    fun m ms h => by cases h; exact ⟨by simp, fun bs => by simp⟩⟩

theorem witness_StepKeepsErrorAndHeaderRanges :
    (∃ t, step (run 0x42#32 coded text) = .next t) ∧ ErrorInv (run 0x42#32 coded text).blk ∧ HeaderInv (run 0x42#32 coded text).blk :=
  ⟨run_answers _ _ _, ⟨fun _ => rfl, by decide +kernel, by decide +kernel⟩, fun _ => by decide +kernel⟩

theorem witness_StepKeepsTheDecoderBounded :
    (∃ t, step (run 0x42#32 coded text) = .next t) ∧ DecoderInv (run 0x42#32 coded text).blk :=
  ⟨run_answers _ _ _, by constructor <;> decide +kernel⟩

theorem witness_StepKeepsTheTree :
    (∃ t, step (run 0x12#32 counted []) = .next t) ∧ CountInv (run 0x12#32 counted []).blk ∧ TreeInv (run 0x12#32 counted []).blk :=
  ⟨run_answers _ _ _, counted_countInv, noTree_treeInv rfl rfl rfl rfl rfl⟩

theorem witness_StepKeepsTheTable :
    (∃ t, step (run 0x42#32 coded text) = .next t) ∧ TreeInv (run 0x42#32 coded text).blk ∧ TableInv (run 0x42#32 coded text).blk :=
  ⟨run_answers _ _ _, noTree_treeInv rfl rfl rfl rfl rfl,
    ⟨coded_tableInv.unused, coded_tableInv.short, coded_tableInv.closed, coded_tableInv.coded⟩⟩

theorem witness_PhaseMovesOnlyForward : ∃ t, step (run 0x12#32 counted []) = .next t := run_answers _ _ _

theorem witness_OnlyResetClearsAnError :
    (let s := run 0x42#32 { coded with errCode := 4#4, errCmd := 0x42#32 } text
     (∃ t, step s = .next t) ∧ s.blk.errCode ≠ 0#4)
    ∧ (let s := on { coded with errCode := 4#4 } text
       (∃ t, exec .decodeRun s = .next t) ∧ s.blk.errCode ≠ 0#4 ∧ Instr.decodeRun ≠ .softReset) :=
  ⟨⟨run_answers _ _ _, by decide +kernel⟩, ⟨exec_next _ _, by decide +kernel, by decide⟩⟩

theorem witness_CommandsIgnoreTheSelector : Instr.decodeRun ≠ .softReset ∧ ∃ t, exec .decodeRun (on coded text) = .next t :=
  ⟨by decide, exec_next _ _⟩

theorem witness_CommandsWriteOnlyTheirOwnState : Instr.encodeSrc ≠ .softReset ∧ (∃ t, exec .encodeSrc (on coded text) = .next t)
    ∧ (on coded text).blk.phase ≠ .count := ⟨by decide, exec_next _ _, by decide +kernel⟩

theorem witness_CommandsTouchStreamsAndPhaseAsListed :
    Instr.deserialize ≠ .softReset ∧ (∃ t, exec .deserialize (fresh header) = .next t)
    ∧ (after (.pushCode 0x62#8) (on coded [])).blk.errCode ≠ 0#4 ∧ (on coded []).blk.errCode = 0#4 :=
  ⟨by decide, exec_next _ _, by decide +kernel, rfl⟩

end Sys2Proof.Tests
end

section
/-! PROOFS. The statements about the block's state: its reset, what a step keeps of it, what each command reads and writes of
it, and what the registers show of it (spec/10_state.md). -/

namespace Sys2Proof.Machine

open Sys2Proof

/-! ### The invariants at reset -/

theorem countInv_reset : CountInv Block.reset := by
  simp only [CountInv, Block.reset, Vector.toList_replicate, List.map_replicate, List.sum_replicate]
  rfl

theorem packerInv_reset : PackerInv Block.reset := fun k _ => by simp [Block.reset]

theorem errorInv_reset : ErrorInv Block.reset := by simp [ErrorInv, Block.reset]

theorem headerInv_reset : HeaderInv Block.reset := fun h => by simp [Block.reset] at h

theorem treeInv_reset : TreeInv Block.reset where
  counting _ := rfl
  size := rfl
  present := by simp [Block.reset]
  root := rfl
  leaf i h := absurd h (Nat.not_lt_zero _)
  ascending i j _ h := absurd h (Nat.not_lt_zero _)
  inner k _ h := absurd h (Nat.not_lt_zero _)
  once j k _ _ h := absurd h (Nat.not_lt_zero _)
  parent i h := absurd h (Nat.not_lt_zero _)
  total h := absurd rfl h
  unused i _ := by simp [Block.reset, nodeAt]

theorem tableInv_reset : TableInv Block.reset where
  unused i _ := by simp [Block.reset]
  short i := by simp [Block.reset, Entry.zero]
  closed _ _ := rfl
  coded h := by simp [Block.reset] at h

/-- Settles O45: each invariant at the reset record, the decoder's by the model's own law. -/
theorem resetMeetsTheInvariants : Obligations.ResetMeetsTheInvariants :=
  ⟨countInv_reset, packerInv_reset, Nat.le_refl 0, errorInv_reset, headerInv_reset, decoderInv_reset, treeInv_reset,
    tableInv_reset⟩

/-- Settles O11: SOFT_RESET writes the reset record and nothing else. -/
theorem softResetRestoresEveryElement : Obligations.SoftResetRestoresEveryElement :=
  ⟨fun s => ⟨resetBlock s, rfl, atReset_reset, rfl⟩, atReset_reset⟩

/-! ### What a step can do to the block -/

/-- A property of the block holds after a step from `s` when it holds of the reset record, of `s` with another handshake and
selector, of the two error entries made before a command's rule runs, and of what every command's rule ends in. -/
theorem step_blk_of {Q : Block → Prop} {s t : State} (h : step s = .next t) (hreset : Q Block.reset)
    (hhand : ∀ bz pe ov si sw, Q { s.blk with busy := bz, pending := pe, ovr := ov, selIndex := si, selWord := sw })
    (hcheck : s.blk.errCode = 0#4 → ∀ e, e = .sequenceError ∨ e = .illegalCommand → Q (errorEntry e s).blk)
    (hbody : ∀ i u, i ≠ .nop → i ≠ .softReset → phaseLegal i s.blk.phase = true → extraLegal i s.blk = true →
      s.blk.errCode = 0#4 → (bodyOf i s).state = u →
      (bodyOf i s = .done () u → Q (retire u).blk) ∧ ∀ e, bodyOf i s = .raised e u → Q (errorEntry e u).blk) :
    Q t.blk := by
  rcases step_cases h with ⟨_, ⟨i, hi⟩ | ⟨h0, rfl⟩⟩ | ⟨_, hb | ⟨bz, pe, ov, si, sw, hb⟩, _⟩
  · rcases exec_cases hi with ⟨_, rfl⟩ | rfl | ⟨h0, rfl⟩ | ⟨h0, hn, hr, hp, hx, ⟨u, hu, rfl⟩ | ⟨e, u, hu, rfl⟩⟩
    · exact hreset
    · exact hhand false s.blk.pending s.blk.ovr s.blk.selIndex s.blk.selWord
    · exact hcheck h0 _ (.inl rfl)
    · exact (hbody i u hn hr hp hx h0 (by rw [hu]; rfl)).1 hu
    · exact (hbody i u hn hr hp hx h0 (by rw [hu]; rfl)).2 e hu
  · exact hcheck h0 _ (.inr rfl)
  · rw [hb]; exact hreset
  · rw [hb]; exact hhand bz pe ov si sw

/-! ### Errors a command's rule raises -/

theorem countSymbol_raises {c : Byte} {s u : State} {e : ErrKind} (h : countSymbol c s = .raised e u) : e = .overflow := by
  unfold countSymbol at h
  split at h <;> cases h
  rfl

theorem countLoop_raises {e : ErrKind} {u : State} (n : Nat) : ∀ s, countLoop n s = .raised e u → e = .overflow := by
  induction n with
  | zero => intro s h; cases h
  | succ n ih =>
    intro s h
    simp only [countLoop] at h
    split at h
    · cases h
    · rcases Run.bind_eq_raised.1 h with h | ⟨_, t, _, h⟩
      · exact countSymbol_raises h
      · exact ih t h

theorem pushSymbol_raises {c : Byte} {s u : State} {e : ErrKind} (h : pushSymbol c s = .raised e u) : e = .unknownSymbol := by
  unfold pushSymbol at h
  split at h <;> cases h
  rfl

theorem encodeLoop_raises {e : ErrKind} {u : State} (n : Nat) : ∀ s, encodeLoop n s = .raised e u → e = .unknownSymbol := by
  induction n with
  | zero => intro s h; cases h
  | succ n ih =>
    intro s h
    simp only [encodeLoop] at h
    split at h
    · cases h
    · rcases Run.bind_eq_raised.1 h with h | ⟨_, t, _, h⟩
      · exact pushSymbol_raises h
      · exact ih t h

theorem encodeSource_raises {s u : State} {e : ErrKind} (h : encodeSource s = .raised e u) : e = .unknownSymbol := by
  rcases Run.bind_eq_raised.1 h with h | ⟨_, _, _, h⟩
  · exact encodeLoop_raises _ s h
  · cases h

/-! ### The header counts -/

/-- What MAKE_HEADER and DESERIALIZE leave when they end well: the header counts in range and the decoder armed with an
empty candidate (R150, R152, R178, R180). -/
structure HeaderLoaded (b : Block) : Prop where
  phase : b.phase = .ready
  total : b.totalBits.toNat ≤ 0x7FFFFFFF
  symbols : b.symCount.toNat ≤ 256
  owed : b.remaining = b.totalBits
  cand : b.cand = []

theorem headerOutOfRange_eq_false {t c : Word} (h : headerOutOfRange t c = false) :
    t.toNat ≤ 0x7FFFFFFF ∧ c.toNat ≤ 256 := by
  unfold headerOutOfRange at h
  simp only [Bool.or_eq_false_iff, decide_eq_false_iff_not, BitVec.msb_eq_false_iff_two_mul_lt] at h
  omega

theorem makeHeader_cases (s : State) :
    makeHeader s = .raised .overflow s ∨ ∃ u, makeHeader s = .done () u ∧ HeaderLoaded u.blk := by
  unfold makeHeader
  split
  · exact .inl rfl
  · have hN := s.blk.entN.isLt
    refine .inr ⟨_, rfl, rfl, ?_, ?_, rfl, rfl⟩
    · show (BitVec.ofNat 32 (encodedBits s.blk)).toNat ≤ _
      rw [BitVec.toNat_ofNat]; omega
    · show (BitVec.ofNat 32 s.blk.entN).toNat ≤ _
      rw [BitVec.toNat_ofNat]; omega

theorem deserialize_loaded {s u : State} (h : deserialize s = .done () u) : HeaderLoaded u.blk := by
  rcases deserialize_rel s with ⟨_, _, hu, _⟩ | ⟨t, c, v, w, _, _, ht, hc, hrange, _, hent, hu⟩ <;> rw [hu] at h <;> cases h
  obtain ⟨_, _, _, _, rfl⟩ := hent.1.exists
  obtain ⟨h1, h2⟩ := headerOutOfRange_eq_false hrange
  exact ⟨rfl, ht ▸ h1, hc ▸ h2, ht.symm, rfl⟩

theorem bodyOf_loaded {i : Instr} {s u : State} (hi : i = .makeHeader ∨ i = .deserialize) (h : bodyOf i s = .done () u) :
    HeaderLoaded u.blk := by
  rcases hi with rfl | rfl
  · rcases makeHeader_cases s with hu | ⟨v, hu, hv⟩ <;> rw [bodyOf, hu] at h <;> cases h
    exact hv
  · exact deserialize_loaded h

/-- CorruptPayload is the decoder's own error (R236). -/
theorem bodyOf_raises_corruptPayload {i : Instr} {s u : State} (h : bodyOf i s = .raised .corruptPayload u) :
    i = .decodeStep ∨ i = .decodeFinish ∨ i = .decodeRun := by
  cases i with
  | decodeStep => exact .inl rfl
  | decodeFinish => exact .inr (.inl rfl)
  | decodeRun => exact .inr (.inr rfl)
  | addSymbol c => cases countSymbol_raises h
  | countSrc => cases countLoop_raises _ s h
  | pushCode c => cases pushSymbol_raises h
  | encodeSrc => cases encodeSource_raises h
  | deserialize =>
    rcases body_cases .deserialize s with ⟨e, v, hv, he, _⟩ | ⟨_, _, _, _, _, _, _, _, _, _, _, hv⟩ <;> rw [hv] at h <;> cases h
    rcases he with he | he <;> cases he
  | makeHeader =>
    rcases makeHeader_cases s with hu | ⟨v, hu, _⟩ <;> rw [bodyOf, hu] at h <;> cases h
  | _ => cases h

/-! ### PHASE -/

/-- How a command's rule moves PHASE: it keeps it or takes one step in the order of operations (R35). -/
inductive PhaseMove : Instr → Phase → Phase → Prop where
  | stay (i : Instr) (p : Phase) : PhaseMove i p p
  | build : PhaseMove .build .count .built
  | assignCodes : PhaseMove .assignCodes .built .coded
  | makeHeader : PhaseMove .makeHeader .coded .ready
  | deserialize : PhaseMove .deserialize .count .ready
  | decodeFinish : PhaseMove .decodeFinish .ready .done
  | decodeRun : PhaseMove .decodeRun .ready .done

/-- The phases before the header counts are present. -/
def BeforeHeader (p : Phase) : Prop := p = .count ∨ p = .built ∨ p = .coded

/-- The phases with the header counts present. -/
def HasHeader (p : Phase) : Prop := p = .ready ∨ p = .done

theorem BeforeHeader.not_hasHeader {p : Phase} (h : BeforeHeader p) : ¬ HasHeader p := by
  rcases h with rfl | rfl | rfl <;> simp [HasHeader]

theorem beforeHeader_of_loads {i : Instr} {p : Phase} (hi : i = .makeHeader ∨ i = .deserialize)
    (hp : phaseLegal i p = true) : BeforeHeader p := by
  rcases hi with rfl | rfl
  · exact .inr (.inr (by simpa [phaseLegal] using hp))
  · exact .inl (by simpa [phaseLegal] using hp)

theorem PhaseMove.count {i : Instr} {p q : Phase} (h : PhaseMove i p q) (hq : q = .count) : p = .count := by
  cases h with
  | stay => exact hq
  | _ => cases hq

theorem PhaseMove.countOrBuilt {i : Instr} {p q : Phase} (h : PhaseMove i p q) (hq : q = .count ∨ q = .built) :
    p = .count ∨ p = .built := by
  cases h with
  | stay => exact hq
  | build => exact .inl rfl
  | _ => simp at hq

theorem PhaseMove.coded {i : Instr} {p q : Phase} (h : PhaseMove i p q) (hi : i ≠ .assignCodes) (hq : q = .coded) :
    p = .coded := by
  cases h with
  | stay => exact hq
  | assignCodes => exact absurd rfl hi
  | _ => cases hq

theorem PhaseMove.beforeHeader {i : Instr} {p q : Phase} (h : PhaseMove i p q) (hq : BeforeHeader q) : BeforeHeader p := by
  cases h with
  | stay => exact hq
  | build => exact .inl rfl
  | assignCodes => exact .inr (.inl rfl)
  | _ => simp [BeforeHeader] at hq

theorem PhaseMove.hasHeader {i : Instr} {p q : Phase} (h : PhaseMove i p q) (hm : i ≠ .makeHeader) (hd : i ≠ .deserialize)
    (hq : HasHeader q) : HasHeader p := by
  cases h with
  | stay => exact hq
  | makeHeader => exact absurd rfl hm
  | deserialize => exact absurd rfl hd
  | decodeFinish => exact .inl rfl
  | decodeRun => exact .inl rfl
  | _ => simp [HasHeader] at hq

theorem PhaseMove.done {i : Instr} {p q : Phase} (h : PhaseMove i p q) (hf : i ≠ .decodeFinish) (hr : i ≠ .decodeRun)
    (hq : q = .done) : p = .done := by
  cases h with
  | stay => exact hq
  | decodeFinish => exact absurd rfl hf
  | decodeRun => exact absurd rfl hr
  | _ => cases hq

/-- Each command moves PHASE as the pseudocode of its rule says, and a raise keeps it (R310). -/
theorem bodyOf_phaseMove {i : Instr} {s v : State} (hn : i ≠ .nop) (hr : i ≠ .softReset)
    (hp : phaseLegal i s.blk.phase = true) (hst : (bodyOf i s).state = v) : PhaseMove i s.blk.phase v.blk.phase := by
  subst hst
  obtain ⟨_, _, _, _, _, hphase, _⟩ := body_writes hn hr hp rfl
  have stays : (bodyOf i s).state.blk.phase = s.blk.phase → PhaseMove i s.blk.phase (bodyOf i s).state.blk.phase :=
    fun h => h ▸ .stay i _
  have hb := body_cases i s
  rcases hphase with h | rfl | rfl | rfl | rfl | rfl | rfl
  · exact stays h
  · have hs : s.blk.phase = .count := by simpa [phaseLegal] using hp
    rw [hs]; exact .build
  · have hs : s.blk.phase = .built := by simpa [phaseLegal] using hp
    rw [hs]; exact .assignCodes
  · have hs : s.blk.phase = .coded := by simpa [phaseLegal] using hp
    rcases makeHeader_cases s with hu | ⟨u, hu, hv⟩
    · exact stays (by rw [bodyOf, hu]; rfl)
    · rw [bodyOf, hu, hs]
      exact hv.phase.symm ▸ .makeHeader
  · have hs : s.blk.phase = .count := by simpa [phaseLegal] using hp
    rcases hb with ⟨e, u, hu, _, hf⟩ | ⟨_, _, _, u, _, _, _, _, _, _, _, hu⟩
    · obtain ⟨_, _, _, _, _, _, rfl⟩ := hf.1.exists
      exact stays (by rw [hu]; rfl)
    · rw [hu, hs]; exact .deserialize
  · have hs : s.blk.phase = .ready := by simpa [phaseLegal] using hp
    rcases hb with ⟨e, hu⟩ | hu
    · exact stays (by rw [hu]; rfl)
    · rw [hu, hs]; exact .decodeFinish
  · have hs : s.blk.phase = .ready := by simpa [phaseLegal] using hp
    rcases hb with ⟨u, hu, _⟩ | ⟨e, u, hu, hf⟩
    · rw [hu, hs]; exact .decodeRun
    · obtain ⟨_, _, _, _, _, _, _, _, rfl⟩ := hf.1.exists
      exact stays (by rw [hu]; rfl)

/-- The edges O53 lists. -/
theorem PhaseMove.cases {i : Instr} {p q : Phase} (h : PhaseMove i p q) :
    q = p ∨ (p = .count ∧ (q = .built ∨ q = .ready)) ∨ (p = .built ∧ q = .coded) ∨ (p = .coded ∧ q = .ready)
      ∨ (p = .ready ∧ q = .done) := by
  cases h <;> simp

/-- Settles O53: a command's rule moves PHASE forward, and every other step keeps it or resets the block. -/
theorem phaseMovesOnlyForward : Obligations.PhaseMovesOnlyForward := by
  intro s t h
  have hq : AtReset t.blk ∨ ∃ i, PhaseMove i s.blk.phase t.blk.phase := by
    refine step_blk_of (Q := fun b => AtReset b ∨ ∃ i, PhaseMove i s.blk.phase b.phase) h (.inl atReset_reset)
      (fun _ _ _ _ _ => .inr ⟨.nop, .stay _ _⟩) (fun _ _ _ => .inr ⟨.nop, .stay _ _⟩) fun i u hn hr hp _ _ hst => ?_
    have hmove := bodyOf_phaseMove hn hr hp hst
    exact ⟨fun _ => .inr ⟨i, hmove⟩, fun _ _ => .inr ⟨i, hmove⟩⟩
  rcases hq with hreset | ⟨i, hmove⟩
  · exact .inr (.inl hreset)
  · exact hmove.cases.imp_right .inr

/-! ### IN_COUNT and the packer -/

/-- Settles O46: only the two counting commands write FREQ or IN_COUNT, and they keep the sum. -/
theorem stepKeepsTheCount : Obligations.StepKeepsTheCount := by
  intro s t h
  refine step_keeps countInv_reset (fun _ _ _ _ _ _ h => h) (fun _ _ _ h => h) (fun i s hn hr hp _ _ hc => ?_) h
  cases i with
  | addSymbol c => exact countInv_countSymbol hc
  | countSrc => exact countInv_countLoop _ s hc
  | _ =>
    obtain ⟨⟨hcount, _⟩, _⟩ := body_writes hn hr hp rfl
    obtain ⟨hfreq, hin⟩ := hcount (by simp) (by simp)
    unfold CountInv
    rw [hfreq, hin]; exact hc

/-- Settles O47: only the packer's four commands write PK_ACC or PK_CNT, and each keeps the unused bits 0. -/
theorem stepKeepsThePackerAligned : Obligations.StepKeepsThePackerAligned := by
  intro s t h
  refine step_keeps packerInv_reset (fun _ _ _ _ _ _ h => h) (fun _ _ _ h => h) (fun i s hn hr hp _ _ hk => ?_) h
  cases i with
  | pushBits n d => exact packerInv_pushAll _ s hk
  | pushCode c => exact packerInv_pushSymbol hk
  | flush => exact packerInv_flushPacker hk
  | encodeSrc =>
    have hloop := packerInv_encodeLoop (srcLeft s) s hk
    simp only [bodyOf, encodeSource]
    cases hl : encodeLoop (srcLeft s) s <;> rw [hl] at hloop
    · exact packerInv_flushPacker hloop
    · exact hloop
  | _ =>
    obtain ⟨⟨_, _, _, _, _, _, hpack, _⟩, _⟩ := body_writes hn hr hp rfl
    obtain ⟨hacc, hcnt⟩ := hpack (by simp)
    unfold PackerInv
    rw [hacc, hcnt]; exact hk

/-! ### The streams -/

/-- Settles O48: the block's step only moves the streams forward, a host move as `step_cases` lists, and `step_ports` says
what the host sees. -/
theorem stepKeepsTheStreams : Obligations.StepKeepsTheStreams := by
  intro s t h hport
  obtain ⟨hsink, hpos⟩ := step_ports h
  rcases hb : blockTurn s with _ | _
  · rcases step_cases h with ⟨hb', _⟩ | ⟨_, _, hkeep, hout, hcfg, _⟩
    · rw [hb] at hb'; cases hb'
    · rw [hb] at hpos
      exact ⟨hkeep hport, hout, hcfg, hsink, hpos, fun h => by cases h⟩
  · have hstep : blockStep s = .next t := by rw [← h, step, if_pos hb]
    obtain ⟨⟨hle, hkeep, hout⟩, hcfg, hsrc, hscript, hseen⟩ := blockStep_onward hstep
    rw [hb] at hpos
    exact ⟨hkeep hport, hout, hcfg, hsink, hpos, fun _ => ⟨hsrc, hle, hscript, hseen⟩⟩

/-! ### The error registers and the header counts -/

theorem errCode_ne_sourceUnavailable {e : ErrKind} (h : e ≠ .sourceUnavailable) : e.code ≠ 1#4 := by
  cases e with
  | sourceUnavailable => exact absurd rfl h
  | _ => decide

theorem errCode_le (e : ErrKind) : e.code.toNat ≤ 9 := by cases e <;> decide

theorem errorInv_errorEntry {e : ErrKind} (h : e ≠ .sourceUnavailable) (s : State) : ErrorInv (errorEntry e s).blk :=
  ⟨fun h0 => absurd h0 (errCode_errorEntry e s), errCode_ne_sourceUnavailable h, errCode_le e⟩

/-- Settles O49: a raise records a code 2 to 9 and leaves PHASE; MAKE_HEADER and DESERIALIZE alone write the counts, and
what they leave in READY is in range. -/
theorem stepKeepsErrorAndHeaderRanges : Obligations.StepKeepsErrorAndHeaderRanges := by
  intro s t h herr hhdr
  refine step_blk_of (Q := fun b => ErrorInv b ∧ HeaderInv b) h ⟨errorInv_reset, headerInv_reset⟩
    (fun _ _ _ _ _ => ⟨herr, hhdr⟩) (fun _ e he => ⟨errorInv_errorEntry ?_ s, hhdr⟩) fun i u hn hr hp _ _ hst => ?_
  · rcases he with rfl | rfl <;> simp
  obtain ⟨⟨_, _, _, _, hcounts, _⟩, ⟨hcode, hcmd⟩, _, _, _, _, _, _, _, hraise⟩ := body_writes hn hr hp hst
  have hkept : ¬ (i = .makeHeader ∨ i = .deserialize) → HeaderInv u.blk := fun hi hq => by
    obtain ⟨hm, hd⟩ := not_or.1 hi
    obtain ⟨htot, hsym⟩ := hcounts hm hd
    rw [htot, hsym]; exact hhdr ((bodyOf_phaseMove hn hr hp hst).hasHeader hm hd hq)
  constructor
  · intro hu
    refine ⟨show ErrorInv u.blk from ?_, ?_⟩
    · unfold ErrorInv
      rw [hcode, hcmd]; exact herr
    · by_cases hi : i = .makeHeader ∨ i = .deserialize
      · exact fun _ => ⟨(bodyOf_loaded hi hu).total, (bodyOf_loaded hi hu).symbols⟩
      · exact hkept hi
  · intro e hu
    obtain ⟨hphase, hsrc⟩ := hraise e hu
    refine ⟨errorInv_errorEntry hsrc u, ?_⟩
    by_cases hi : i = .makeHeader ∨ i = .deserialize
    · exact fun hq => absurd (hphase ▸ hq) (beforeHeader_of_loads hi hp).not_hasHeader
    · exact hkept hi

/-! ### The decoder's counters -/

theorem errCode_eq_three {e : ErrKind} (h : e.code = 3#4) : e = .corruptPayload := by
  cases e with
  | corruptPayload => rfl
  | _ => exact absurd h (by decide)

/-- Before the header is loaded nothing is owed and nothing read (R46, R71). -/
theorem decoderInv_beforeHeader {b : Block} (hp : BeforeHeader b.phase) (hrem : b.remaining = 0#32) (hcand : b.cand = [])
    (hcnt : b.unpkCnt = 0) (herr : b.errCode ≠ 3#4) : DecoderInv b where
  idle _ := ⟨hrem, hcand, hcnt⟩
  bounded := by simp [hcand]
  running _ := .inr hrem
  corrupt := by simp [hcand, herr]
  finished _ := hrem
  owed hq := absurd hq hp.not_hasHeader

theorem decoderInv_loaded {b : Block} (h : HeaderLoaded b) (h0 : b.errCode = 0#4) : DecoderInv b where
  idle hp := absurd (.inl h.phase) (BeforeHeader.not_hasHeader hp)
  bounded := by simp [h.cand]
  running _ := by
    by_cases hz : b.remaining = 0#32
    · exact .inr hz
    · have hpos : b.remaining.toNat ≠ 0 := fun h => hz (BitVec.eq_of_toNat_eq h)
      rw [h.cand]; exact .inl (Nat.pos_of_ne_zero hpos)
  corrupt := by simp [h.cand, h0]
  finished hq := by rw [h.phase] at hq; cases hq
  owed _ := by rw [h.owed]

/-- The decoder's invariant speaks of the fields named here. -/
theorem DecoderInv.of_eq {b b' : Block} (h : DecoderInv b) (hrem : b'.remaining = b.remaining) (hcand : b'.cand = b.cand)
    (hcnt : b'.unpkCnt = b.unpkCnt) (htot : b'.totalBits = b.totalBits) (herr : b'.errCode = b.errCode)
    (hbefore : BeforeHeader b'.phase → BeforeHeader b.phase) (hhas : HasHeader b'.phase → HasHeader b.phase)
    (hdone : b'.phase = .done → b.phase = .done) : DecoderInv b' where
  idle hp := by rw [hrem, hcand, hcnt]; exact h.idle (hbefore hp)
  bounded := by rw [hrem, hcand]; exact h.bounded
  running h0 := by rw [hrem, hcand]; exact h.running (herr ▸ h0)
  corrupt := by rw [hcand, herr]; exact h.corrupt
  finished hp := by rw [hrem]; exact h.finished (hdone hp)
  owed hp := by rw [hrem, htot]; exact h.owed (hhas hp)

theorem DecoderInv.handshake {b : Block} (h : DecoderInv b) (bz : Bool) (pe : Word) (ov : Bool) (si : BitVec 9)
    (sw : BitVec 3) : DecoderInv { b with busy := bz, pending := pe, ovr := ov, selIndex := si, selWord := sw } :=
  h.of_eq rfl rfl rfl rfl rfl id id id

/-- An error other than CorruptPayload leaves the counters as they are, with a candidate that is not full. -/
theorem DecoderInv.errorEntry {s : State} (h : DecoderInv s.blk) (h0 : s.blk.errCode = 0#4) {e : ErrKind}
    (he : e ≠ .corruptPayload) : DecoderInv (errorEntry e s).blk where
  idle := h.idle
  bounded := h.bounded
  running h1 := absurd h1 (errCode_errorEntry e s)
  corrupt := by
    refine ⟨h.corrupt.1, fun hfull => ?_, fun hcode => absurd (errCode_eq_three hcode) he⟩
    have hthree := h.corrupt.2.1 hfull
    rw [h0] at hthree; cases hthree
  finished := h.finished
  owed := h.owed

/-- The decoder's counters are in order where a rule ends, after the error entry when it raised. -/
def EndsBounded : Run Unit → Prop
  | .done _ u => DecoderInv u.blk
  | .raised e u => DecoderInv (errorEntry e u).blk

theorem decodeStep_endsBounded {s : State} (h : DecoderInv s.blk) (h0 : s.blk.errCode = 0#4) (hp : s.blk.phase = .ready) :
    EndsBounded (decodeStep s) := by
  unfold decodeStep
  split
  · exact h
  · obtain ⟨hdone, hraise⟩ := decodeStepBody_decoderInv (going_of_decoderInv h0 hp h) ‹_› (h.owed (.inl hp))
    cases hb : decodeStepBody s with
    | done a u => exact decoderInv_of_going (hdone u hb).1 (hdone u hb).2
    | raised e u => exact hraise e u hb

theorem decodeAll_endsBounded {s : State} (h : DecoderInv s.blk) (h0 : s.blk.errCode = 0#4) (hp : s.blk.phase = .ready) :
    EndsBounded (decodeAll s) := by
  rcases decodeAll_runInv _ s rfl (going_of_decoderInv h0 hp h) (h.owed (.inl hp)) with ⟨u, hr, hu⟩ | ⟨e, u, hr, hu⟩
  · rw [hr]; exact hu
  · rw [hr]; exact hu

/-- DECODE_FINISH in order is DECODE_RUN with nothing owed (R246). -/
theorem decodeFinishBody_eq_decodeAll {s : State} (h : s.blk.remaining = 0#32) : decodeFinishBody s = decodeAll s := by
  rw [decodeAll_eq, if_pos h]

theorem bodyOf_decode_endsBounded {i : Instr} {s : State} (hi : i = .decodeStep ∨ i = .decodeFinish ∨ i = .decodeRun)
    (h : DecoderInv s.blk) (h0 : s.blk.errCode = 0#4) (hp : phaseLegal i s.blk.phase = true)
    (hx : extraLegal i s.blk = true) : EndsBounded (bodyOf i s) := by
  rcases hi with rfl | rfl | rfl
  · exact decodeStep_endsBounded h h0 (by simpa [phaseLegal] using hp)
  · rw [bodyOf, decodeFinishBody_eq_decodeAll (by simpa [extraLegal] using hx)]
    exact decodeAll_endsBounded h h0 (by simpa [phaseLegal] using hp)
  · exact decodeAll_endsBounded h h0 (by simpa [phaseLegal] using hp)

/-- MAKE_HEADER and DESERIALIZE that raise have not armed the decoder (R152, R181). -/
theorem bodyOf_loads_raised {i : Instr} {s u : State} {e : ErrKind} (hi : i = .makeHeader ∨ i = .deserialize)
    (h : bodyOf i s = .raised e u) : u.blk.remaining = s.blk.remaining ∧ u.blk.cand = s.blk.cand := by
  rcases hi with rfl | rfl
  · rcases makeHeader_cases s with hu | ⟨v, hu, _⟩ <;> rw [bodyOf, hu] at h <;> cases h
    exact ⟨rfl, rfl⟩
  · rcases deserialize_rel s with ⟨e, v, hu, _, hf⟩ | ⟨_, _, _, _, _, _, _, _, _, _, _, hu⟩ <;> rw [bodyOf, hu] at h <;> cases h
    obtain ⟨_, _, _, _, _, _, rfl⟩ := hf.1.exists
    exact ⟨rfl, rfl⟩

/-- Settles O50, by the three kinds of command: those that decode, those that load the header, and the rest, which leave the
decoder's registers alone. -/
theorem stepKeepsTheDecoderBounded : Obligations.StepKeepsTheDecoderBounded := by
  intro s t h hs
  refine step_blk_of h decoderInv_reset hs.handshake
    (fun h0 e he => hs.errorEntry h0 (by rcases he with rfl | rfl <;> simp)) fun i u hn hr hp hx h0 hst => ?_
  obtain ⟨⟨_, _, _, _, hcounts, howed, _, hunpk, _⟩, ⟨hcode, _⟩, _, _, _, _, _, _, _, hraise⟩ := body_writes hn hr hp hst
  have hmove := bodyOf_phaseMove hn hr hp hst
  by_cases hd : i = .decodeStep ∨ i = .decodeFinish ∨ i = .decodeRun
  · have hend := bodyOf_decode_endsBounded hd hs h0 hp hx
    refine ⟨fun hu => ?_, fun e hu => ?_⟩ <;> rw [hu] at hend
    · exact DecoderInv.handshake hend _ _ _ _ _
    · exact hend
  obtain ⟨hdstep, hdfin, hdrun⟩ : i ≠ .decodeStep ∧ i ≠ .decodeFinish ∧ i ≠ .decodeRun := by simpa [not_or] using hd
  obtain ⟨_, hcnt, _⟩ := hunpk (by simp [hdstep, hdrun])
  have hkind : ∀ e, bodyOf i s = .raised e u → e ≠ .corruptPayload := fun e hu he =>
    hd (bodyOf_raises_corruptPayload (he ▸ hu))
  by_cases hl : i = .makeHeader ∨ i = .deserialize
  · refine ⟨fun hu => (decoderInv_loaded (bodyOf_loaded hl hu) (hcode.trans h0)).handshake _ _ _ _ _, fun e hu => ?_⟩
    have hbefore := beforeHeader_of_loads hl hp
    obtain ⟨hrem, hcand⟩ := bodyOf_loads_raised hl hu
    obtain ⟨hrem0, hcand0, hcnt0⟩ := hs.idle hbefore
    exact decoderInv_beforeHeader ((hraise e hu).1 ▸ hbefore) (hrem.trans hrem0) (hcand.trans hcand0) (hcnt.trans hcnt0)
      fun hthree => hkind e hu (errCode_eq_three hthree)
  · obtain ⟨hm, hde⟩ := not_or.1 hl
    obtain ⟨htot, _⟩ := hcounts hm hde
    obtain ⟨hrem, hcand⟩ := howed hm hde (by simp [hdstep, hdrun])
    have hkept : DecoderInv u.blk := hs.of_eq hrem hcand hcnt htot hcode hmove.beforeHeader (hmove.hasHeader hm hde)
      (hmove.done hdfin hdrun)
    exact ⟨fun _ => hkept.handshake _ _ _ _ _, fun e hu => hkept.errorEntry (hcode.trans h0) (hkind e hu)⟩

/-! ### The tree -/

/-- The tree's invariant speaks of the fields named here, and of FREQ and IN_COUNT only when there is a leaf. -/
theorem TreeInv.of_eq {b b' : Block} (h : TreeInv b) (hnode : b'.node = b.node) (hcount : b'.nodeCount = b.nodeCount)
    (hleaf : b'.nLeaf = b.nLeaf) (hroot : b'.root = b.root) (hpres : b'.treePresent = b.treePresent)
    (hfreq : b.nLeaf ≠ 0 → b'.freq = b.freq ∧ b'.inCount = b.inCount) (hphase : b'.phase = .count → b.phase = .count) :
    TreeInv b' where
  counting hp := by rw [hleaf]; exact h.counting (hphase hp)
  size := by rw [hcount, hleaf]; exact h.size
  present := by rw [hpres, hleaf]; exact h.present
  root := by rw [hroot, hcount]; exact h.root
  leaf i hi := by
    rw [hleaf] at hi
    have hne : b.nLeaf ≠ 0 := fun h0 => by rw [h0] at hi; exact Nat.not_lt_zero _ hi
    rw [hnode, (hfreq hne).1]; exact h.leaf i hi
  ascending := by rw [hnode, hleaf]; exact h.ascending
  inner := by rw [hnode, hleaf, hcount]; exact h.inner
  once := by rw [hnode, hleaf, hcount]; exact h.once
  parent := by rw [hnode, hleaf, hcount, hroot]; exact h.parent
  total hne := by
    rw [hleaf] at hne
    rw [hnode, hroot, (hfreq hne).2]; exact h.total hne
  unused := by rw [hnode, hcount]; exact h.unused

/-- Settles O51: BUILD makes a tree (`treeInv_buildTree`), no other command writes one, and FREQ and IN_COUNT change only
while there is no leaf. -/
theorem stepKeepsTheTree : Obligations.StepKeepsTheTree := by
  intro s t h hcount ht
  refine step_blk_of h treeInv_reset (fun _ _ _ _ _ => ht.of_eq rfl rfl rfl rfl rfl (fun _ => ⟨rfl, rfl⟩) id)
    (fun _ _ _ => ht.of_eq rfl rfl rfl rfl rfl (fun _ => ⟨rfl, rfl⟩) id) fun i u hn hr hp _ _ hst => ?_
  have htree : TreeInv u.blk := by
    by_cases hb : i = .build
    · subst hb
      subst hst
      exact treeInv_buildTree s hcount (by simpa [phaseLegal] using hp) ht
    · obtain ⟨⟨_, hfreq, htreeKept, _⟩, _⟩ := body_writes hn hr hp hst
      obtain ⟨hnode, hnc, hleaf, hroot, hpres⟩ := htreeKept hb
      exact ht.of_eq hnode hnc hleaf hroot hpres (fun hne => hfreq fun hcnt => hne (ht.counting hcnt))
        (bodyOf_phaseMove hn hr hp hst).count
  exact ⟨fun _ => htree.of_eq rfl rfl rfl rfl rfl (fun _ => ⟨rfl, rfl⟩) id,
    fun _ _ => htree.of_eq rfl rfl rfl rfl rfl (fun _ => ⟨rfl, rfl⟩) id⟩

/-! ### The code table -/

/-- What the table's invariant says in every phase: entries from ENT_N on hold 0 and no code is above 255 bits (R41, R42). -/
def TableForm (b : Block) : Prop :=
  (∀ i : Fin 256, b.entN.val ≤ i.val → b.ent[i] = Entry.zero) ∧ ∀ i : Fin 256, b.ent[i].code.length ≤ 255

theorem TableForm.of_eq {b b' : Block} (h : TableForm b) (hent : b'.ent = b.ent) (hentN : b'.entN = b.entN) :
    TableForm b' := by
  unfold TableForm
  rw [hent, hentN]; exact h

theorem TableInv.form {b : Block} (h : TableInv b) : TableForm b := ⟨h.unused, h.short⟩

/-- Outside CODED the invariant asks the form, and no valid entry while the table is not yet open (R71). -/
theorem TableForm.tableInv {b : Block} (h : TableForm b)
    (hclosed : b.errCode = 0#4 → b.phase = .count ∨ b.phase = .built → b.entN = 0) (hcoded : b.phase ≠ .coded) :
    TableInv b :=
  ⟨h.1, h.2, hclosed, fun hp => absurd hp hcoded⟩

/-- The table's invariant speaks of the fields named here, and of the tree only in CODED. -/
theorem TableInv.of_eq {b b' : Block} (h : TableInv b) (hent : b'.ent = b.ent) (hentN : b'.entN = b.entN)
    (herr : b'.errCode = 0#4 → b.errCode = 0#4)
    (hopen : b'.phase = .count ∨ b'.phase = .built → b.phase = .count ∨ b.phase = .built)
    (hcoded : b'.phase = .coded → b.phase = .coded ∧ b'.nLeaf = b.nLeaf ∧ b'.node = b.node) : TableInv b' where
  unused := by rw [hent, hentN]; exact h.unused
  short := by rw [hent]; exact h.short
  closed h0 hp := by rw [hentN]; exact h.closed (herr h0) (hopen hp)
  coded hp := by
    obtain ⟨hc, hleaf, hnode⟩ := hcoded hp
    rw [hent, hentN, hleaf, hnode]; exact h.coded hc

theorem TableInv.handshake {b : Block} (h : TableInv b) (bz : Bool) (pe : Word) (ov : Bool) (si : BitVec 9)
    (sw : BitVec 3) : TableInv { b with busy := bz, pending := pe, ovr := ov, selIndex := si, selWord := sw } :=
  h.of_eq rfl rfl id id fun hp => ⟨hp, rfl, rfl⟩

theorem TableInv.errorEntry {s : State} (h : TableInv s.blk) (e : ErrKind) : TableInv (errorEntry e s).blk :=
  h.of_eq rfl rfl (fun h0 => absurd h0 (errCode_errorEntry e s)) id fun hp => ⟨hp, rfl, rfl⟩

/-- ASSIGN_CODES leaves the table in form (R143 to R147). -/
theorem tableInv_assignCodes {s : State} (ht : TreeInv s.blk) (hs : TableInv s.blk) (h0 : s.blk.errCode = 0#4)
    (hp : s.blk.phase = .built) : TableInv (assignCodes s).blk := by
  obtain ⟨hleaf, hrest⟩ := codeEntries_facts s.blk ht
  have hzero : ∀ i : Fin 256, s.blk.nLeaf.val ≤ i.val → (codeEntries s.blk)[i] = Entry.zero := fun i hi => by
    rw [hrest i hi]
    exact hs.unused i (by rw [hs.closed h0 (.inr hp)]; exact Nat.zero_le _)
  refine ⟨hzero, fun i => ?_, fun _ h => ?_, fun _ => ⟨rfl, fun i hi => ?_⟩⟩
  · by_cases hi : i.val < s.blk.nLeaf.val
    · exact (hleaf i (i.castLE (by omega)) rfl hi).2.2.1
    · show (codeEntries s.blk)[i].code.length ≤ 255
      rw [hzero i (by omega)]; exact Nat.zero_le _
  · rcases h with h | h <;> cases h
  · obtain ⟨hsym, hlen, _⟩ := hleaf i (i.castLE (by omega)) rfl hi
    exact ⟨hlen, i.castLE (by omega), rfl, hsym⟩

/-- A table nothing has been written to. -/
def TableEmpty (b : Block) : Prop := b.entN = 0 ∧ ∀ i : Fin 256, b.ent[i] = Entry.zero

theorem TableEmpty.form {b : Block} (h : TableEmpty b) : TableForm b :=
  ⟨fun i _ => h.2 i, fun i => by rw [h.2 i]; exact Nat.zero_le _⟩

theorem TableInv.empty {b : Block} (h : TableInv b) (h0 : b.errCode = 0#4) (hp : b.phase = .count ∨ b.phase = .built) :
    TableEmpty b := by
  have hN := h.closed h0 hp
  exact ⟨hN, fun i => h.unused i (by rw [hN]; exact Nat.zero_le _)⟩

theorem HdrRel.tableEmpty {s u : State} (h : HdrRel s u) (hs : TableEmpty s.blk) : TableEmpty u.blk := by
  obtain ⟨hframe, _⟩ := h
  unfold HdrReadFrame at hframe
  rw [hframe]; exact hs

/-- Where a run of two parts stops: in the first part, or in the second begun where the first ended. -/
theorem Run.state_bind_of {α β : Type} {P Q : State → Prop} {r : Run α} {f : α → State → Run β} (hPQ : ∀ u, P u → Q u)
    (hr : P r.state) (hf : ∀ a u, P u → Q (f a u).state) : Q (r.bind f).state := by
  cases r with
  | done a u => exact hf a u hr
  | raised e u => exact hPQ u hr

theorem readTable_tableForm (t c : Word) {s : State} (hs : TableEmpty s.blk) :
    TableForm (readTable t c s).state.blk := by
  unfold readTable
  split
  · exact hs.form
  · rename_i hrange
    have hc := (headerOutOfRange_eq_false (by simpa using hrange)).2
    exact Run.state_bind_of (Q := fun u => TableForm u.blk) (P := fun u => TableForm u.blk) (fun _ h => h)
      (readEntries_table c.toNat 0 (clearTable s) (by omega) rfl (fun j _ => hs.2 j) hs.form.2)
      fun _ _ hu => hu.of_eq rfl rfl

/-- DESERIALIZE leaves the table in form wherever it stops (R180, R181). -/
theorem deserialize_tableForm {s : State} (hs : TableEmpty s.blk) : TableForm (deserialize s).state.blk := by
  refine Run.state_bind_of (Q := fun u => TableForm u.blk) (P := fun u => TableEmpty u.blk) (fun _ h => h.form)
    ((getU32_state s).tableEmpty hs) fun t u hu => ?_
  refine Run.state_bind_of (Q := fun u => TableForm u.blk) (P := fun u => TableEmpty u.blk) (fun _ h => h.form)
    ((getU32_state (setTotalBits t u)).tableEmpty hu) fun c v hv => ?_
  exact readTable_tableForm t c hv

/-- Settles O52: ASSIGN_CODES writes the codes of the leaves, DESERIALIZE the entries it has read whole into an empty table,
and no other command writes the table. -/
theorem stepKeepsTheTable : Obligations.StepKeepsTheTable := by
  intro s t h ht hs
  refine step_blk_of h tableInv_reset hs.handshake (fun _ e _ => hs.errorEntry e) fun i u hn hr hp _ h0 hst => ?_
  obtain ⟨⟨_, _, htree, hent, _⟩, ⟨hcode, _⟩, _, _, _, _, _, _, _, hraise⟩ := body_writes hn hr hp hst
  by_cases hd : i = .deserialize
  · subst hd
    have hcount : s.blk.phase = .count := by simpa [phaseLegal] using hp
    have hform : TableForm u.blk := hst ▸ deserialize_tableForm (hs.empty h0 (.inl hcount))
    refine ⟨fun hu => ?_, fun e hu => ?_⟩
    · have hready : u.blk.phase = .ready := (bodyOf_loaded (.inr rfl) hu).phase
      exact (hform.tableInv (by simp [hready]) (by simp [hready])).handshake _ _ _ _ _
    · have hkept : u.blk.phase = .count := (hraise e hu).1.trans hcount
      have hentry : TableForm (errorEntry e u).blk := hform.of_eq rfl rfl
      exact hentry.tableInv (fun h => absurd h (errCode_errorEntry e u)) (by simp [hkept])
  have htable : TableInv u.blk := by
    by_cases ha : i = .assignCodes
    · subst ha
      subst hst
      exact tableInv_assignCodes ht hs h0 (by simpa [phaseLegal] using hp)
    · obtain ⟨hentKept, hentN⟩ := hent ha hd
      have hmove := bodyOf_phaseMove hn hr hp hst
      refine hs.of_eq hentKept hentN (fun _ => h0) hmove.countOrBuilt fun hc => ⟨hmove.coded ha hc, ?_⟩
      have hb : i ≠ .build := by
        rintro rfl
        subst hst
        cases hc
      obtain ⟨hnode, _, hleaf, _⟩ := htree hb
      exact ⟨hleaf, hnode⟩
  exact ⟨fun _ => htable.handshake _ _ _ _ _, fun e _ => htable.errorEntry e⟩

/-! ### What each command reads and writes -/

/-- Another selector. -/
def select (x : BitVec 9) (y : BitVec 3) : State → State := poke fun a => { a with selIndex := x, selWord := y }

theorem conclude_select (x : BitVec 9) (y : BitVec 3) {r : Run Unit} {t : State} (h : conclude r = .next t) :
    conclude (r.map (select x y)) = .next (select x y t) := by
  rcases conclude_cases h with ⟨u, rfl, rfl⟩ | ⟨e, u, rfl, rfl⟩ <;> rfl

/-- With another selector a command other than SOFT_RESET does the same (R52). -/
theorem exec_select (x : BitVec 9) (y : BitVec 3) {i : Instr} {s t : State} (hr : i ≠ .softReset)
    (h : exec i s = .next t) : exec i (select x y s) = .next (select x y t) := by
  by_cases hn : i = .nop
  · subst hn
    obtain rfl := Host.Outcome.next.inj h
    rfl
  rw [exec_eq_runCommand hn hr] at h ⊢
  have hextra : extraLegal i (select x y s).blk = extraLegal i s.blk := by cases i <;> rfl
  by_cases h0 : s.blk.errCode = 0#4
  · by_cases hc : phaseLegal i s.blk.phase = false ∨ extraLegal i s.blk = false
    · rw [runCommand_outOfOrder h0 hc] at h
      obtain rfl := Host.Outcome.next.inj h
      exact runCommand_outOfOrder h0 (hc.imp_right hextra.trans)
    · obtain ⟨hp, hx⟩ : phaseLegal i s.blk.phase = true ∧ extraLegal i s.blk = true := by simpa [not_or] using hc
      rw [runCommand_runs h0 hp hx] at h
      refine (runCommand_runs (s := select x y s) h0 hp (hextra.trans hx)).trans ?_
      rw [select, bodyOf_poke i hr]
      exact conclude_select x y h
  · rw [runCommand_refused h0] at h
    obtain rfl := Host.Outcome.next.inj h
    exact runCommand_refused h0

/-- Settles O55: no rule reads the selector (`bodyOf_poke`) or writes it (`body_writes`). -/
theorem commandsIgnoreTheSelector : Obligations.CommandsIgnoreTheSelector := by
  intro i s t x y hr h
  have hkept : t.blk.selIndex = s.blk.selIndex ∧ t.blk.selWord = s.blk.selWord := by
    obtain ⟨u, ⟨rfl, rfl | ⟨_, rfl⟩⟩ | ⟨_, hn, hp, _, hu, hend⟩⟩ := exec_body h hr
    · exact ⟨rfl, rfl⟩
    · exact ⟨rfl, rfl⟩
    · obtain ⟨_, _, _, _, _, _, hidx, hword, _⟩ := body_writes hn hr hp hu
      rcases hend with ⟨_, rfl⟩ | ⟨e, _, rfl⟩ <;> exact ⟨hidx, hword⟩
  exact ⟨hkept.1, hkept.2, exec_select x y hr h⟩

/-- Settles O56: before its rule runs a command writes only BUSY and the error registers, as at its end; between, it writes
what `body_writes` lists. -/
theorem commandsWriteOnlyTheirOwnState : Obligations.CommandsWriteOnlyTheirOwnState := by
  intro i s t h hr
  obtain ⟨u, ⟨rfl, rfl | ⟨_, rfl⟩⟩ | ⟨_, hn, hp, _, hu, hend⟩⟩ := exec_body h hr
  · simp
  · simp
  · obtain ⟨⟨hcount, hphase, htree, hent, hhdr, howed, hpack, hunpk, hhc, hpay, ⟨hovr, hpend⟩, hhost⟩, _⟩ :=
      body_writes hn hr hp hu
    rcases hend with ⟨_, rfl⟩ | ⟨e, _, rfl⟩ <;>
      exact ⟨hcount, hphase, htree, hent, hhdr, howed, hpack, hunpk, hhc, hpay, ⟨hovr, hpend, rfl⟩, hhost⟩

/-- Settles O57: a raise keeps PHASE and records the pending word, and the rest is as `body_writes` lists. -/
theorem commandsTouchStreamsAndPhaseAsListed : Obligations.CommandsTouchStreamsAndPhaseAsListed := by
  intro i s t h hr
  obtain ⟨u, ⟨rfl, rfl | ⟨h0, rfl⟩⟩ | ⟨h0, hn, hp, _, hu, hend⟩⟩ := exec_body h hr
  · exact ⟨⟨[], by simp⟩, by simp, .inl rfl, fun hne h0 => absurd h0 hne, fun _ => ⟨rfl, rfl⟩⟩
  · exact ⟨⟨[], by simp⟩, by simp, .inl rfl, fun _ _ => ⟨rfl, rfl⟩,
      fun hc => hc.elim (absurd · (errCode_errorEntry _ u)) (absurd h0)⟩
  · obtain ⟨hw, ⟨hcode, hcmd⟩, ⟨hle, _, out, hout⟩, hsink, hsrc, hphase, _, _, _, hraise⟩ := body_writes hn hr hp hu
    obtain ⟨_, _, _, _, _, _, _, _, _, _, ⟨_, hpend⟩, _⟩ := hw
    have hstream : ∃ out, u.snk = s.snk ++ out ∧ (¬ _ → ¬ _ → i ≠ .serialize → out = []) :=
      ⟨out, hout, fun h1 h2 h3 => by simpa [hout] using hsink h1 h2 h3⟩
    rcases hend with ⟨_, rfl⟩ | ⟨e, he, rfl⟩
    · exact ⟨hstream, ⟨hle, hsrc⟩, hphase, fun hne _ => absurd (hcode.trans h0) hne, fun _ => ⟨hcode, hcmd⟩⟩
    · exact ⟨hstream, ⟨hle, hsrc⟩, hphase, fun _ _ => ⟨(hraise e he).1, hpend⟩,
        fun hc => hc.elim (absurd · (errCode_errorEntry e u)) (absurd h0)⟩

/-! ### The registers -/

/-- While BUSY = 0 an aligned 32-bit read is the register's value (R88, R273). -/
theorem readValue_idle {s : State} (hb : s.blk.busy = false) {a : Byte} (ha : accessOk 32 a = true) :
    readValue 32 a s = regValue s.cfg s.blk a := by
  simp [readValue, hb, ha]

/-- The reserved offsets read 0 (R69). -/
theorem readValue_reserved {s : State} (hb : s.blk.busy = false) {a : Byte} (ha : 0x64 ≤ a.toNat) :
    readValue 32 a s = 0#32 := by
  cases hok : accessOk 32 a with
  | true => rw [readValue_idle hb hok]; exact regValue_ge _ _ _ ha
  | false => simp [readValue, hok]

/-- STATUS as a number (R56). -/
theorem toNat_status (b : Block) : b.status.toNat =
    b.busy.toNat + (if b.errCode = 0#4 then 0 else 2) + 4 * b.ovr.toNat + 16 * b.phase.code.toNat := by
  have herr : b.error.toNat = if b.errCode = 0#4 then 0 else 1 := by
    unfold Block.error
    split <;> simp_all
  unfold Block.status
  simp only [toNat_append_eq, BitVec.toNat_ofBool, herr]
  simp only [BitVec.toNat_ofNat]
  split <;> omega

theorem toNat_pkInfo (b : Block) : (pkInfo b).toNat = b.pkAcc.toNat + 2 ^ 8 * b.pkCnt.val := by
  have h := b.pkCnt.isLt
  simp only [pkInfo, toNat_append_eq, BitVec.toNat_ofNat]
  omega

theorem toNat_unpkInfo (b : Block) : (unpkInfo b).toNat = b.unpkByte.toNat + 2 ^ 8 * b.unpkCnt.val := by
  have h := b.unpkCnt.isLt
  simp only [unpkInfo, toNat_append_eq, BitVec.toNat_ofNat]
  omega

theorem toNat_treeInfo (b : Block) : (treeInfo b).toNat =
    b.nodeCount.val + 2 ^ 16 * b.root.val + 2 ^ 31 * b.treePresent.toNat := by
  have h1 := b.nodeCount.isLt
  have h2 := b.root.isLt
  simp only [treeInfo, toNat_append_eq, BitVec.toNat_ofNat, BitVec.toNat_ofBool]
  omega

theorem toNat_tableInfo (b : Block) : (tableInfo b).toNat = b.entN.val + 2 ^ 16 * b.nLeaf.val := by
  have h1 := b.entN.isLt
  have h2 := b.nLeaf.isLt
  simp only [tableInfo, toNat_append_eq, BitVec.toNat_ofNat]
  omega

theorem toNat_selValue (b : Block) : (selValue b).toNat = b.selIndex.toNat + 2 ^ 16 * b.selWord.toNat := by
  simp only [selValue, toNat_append_eq, BitVec.toNat_ofNat]
  omega

theorem configWord_eq (c : Config) : configWord c = if c.hdrOrder = .le then 0#32 else 1#32 := by
  unfold configWord
  cases c.hdrOrder <;> rfl

/-- Settles O40: each direct register is the word of its fields. -/
theorem idleRegistersReadTheirFields : Obligations.IdleRegistersReadTheirFields := by
  intro s hb rd
  have value : ∀ a : Byte, accessOk 32 a = true → rd a = regValue s.cfg s.blk a := fun a => readValue_idle hb
  have num : ∀ a : Byte, accessOk 32 a = true → (rd a).toNat = (regValue s.cfg s.blk a).toNat := fun a ha =>
    congrArg BitVec.toNat (value a ha)
  refine ⟨⟨value _ rfl, (num 0x04#8 rfl).trans ?_, (num 0x08#8 rfl).trans ?_, value _ rfl⟩,
    ⟨value _ rfl, value _ rfl, value _ rfl, value _ rfl, value _ rfl, value _ rfl, value _ rfl⟩,
    fun hc => (num 0x2C#8 rfl).trans ?_, (num 0x30#8 rfl).trans (toNat_pkInfo s.blk),
    (num 0x34#8 rfl).trans (toNat_unpkInfo s.blk), (num 0x38#8 rfl).trans (toNat_treeInfo s.blk),
    (num 0x3C#8 rfl).trans (toNat_tableInfo s.blk), (num 0x40#8 rfl).trans (toNat_selValue s.blk),
    ⟨value _ rfl, (value 0x60#8 rfl).trans (configWord_eq s.cfg)⟩, fun a => readValue_reserved hb⟩
  · refine (toNat_status s.blk).trans ?_
    simp [hb]
  · exact (toNat_append_eq 0#28 s.blk.errCode).trans (by simp)
  · exact (toNat_append_eq 0#23 (BitVec.ofNat 9 s.blk.candLen)).trans (by simp [Nat.mod_eq_of_lt hc])

theorem freqData_eq {b : Block} {c : Byte} (h : b.selIndex.toNat = c.toNat) : freqData b = freqAt b.freq c := by
  unfold freqData freqAt
  rw [h, Vector.getElem?_eq_getElem c.isLt]; rfl

theorem freqData_out {b : Block} (h : 256 ≤ b.selIndex.toNat) : freqData b = 0#32 := by
  unfold freqData
  rw [Vector.getElem?_eq_none h]; rfl

theorem selectedNode_eq {b : Block} {i : Fin 511} (h : b.selIndex.toNat = i.val) (hi : i.val < b.nodeCount.val) :
    selectedNode b = some b.node[i] := by
  unfold selectedNode
  rw [h, if_pos hi, Vector.getElem?_eq_getElem i.isLt]; rfl

theorem selectedNode_out {b : Block} (h : b.nodeCount.val ≤ b.selIndex.toNat) : selectedNode b = none := by
  unfold selectedNode
  rw [if_neg (by omega)]

/-- NODE_LINK as a number (R65). -/
theorem toNat_nodeLink {b : Block} {x : Node} (h : selectedNode b = some x) : (nodeLink b).toNat =
    x.left.val + 2 ^ 9 * x.right.val + 2 ^ 18 * x.sym.toNat + 2 ^ 31 * x.isLeaf.toNat := by
  have h1 := x.left.isLt
  have h2 := x.right.isLt
  simp only [nodeLink, h, toNat_append_eq, BitVec.toNat_ofNat, BitVec.toNat_ofBool]
  omega

theorem selectedEntry_eq {b : Block} {i : Fin 256} (h : b.selIndex.toNat = i.val) (hi : i.val < b.entN.val) :
    selectedEntry b = some b.ent[i] := by
  have hlen : i.val < b.entries.length := by rw [entries_length]; exact hi
  unfold selectedEntry
  rw [h, List.getElem?_eq_getElem hlen, entries_getElem]; rfl

theorem selectedEntry_out {b : Block} (h : b.entN.val ≤ b.selIndex.toNat) : selectedEntry b = none :=
  List.getElem?_eq_none (by rw [entries_length]; exact h)

/-- ENT_INFO as a number (R66). -/
theorem toNat_entInfo {b : Block} {e : Entry} (h : selectedEntry b = some e) (hlen : e.len ≤ 255) :
    (entInfo b).toNat = e.sym.toNat + 2 ^ 8 * e.len := by
  simp only [entInfo, h, toNat_append_eq, BitVec.toNat_ofNat]
  omega

/-- Settles O41: each indirect register reads the element the selector picks, and 0 when it picks none. -/
theorem indirectRegistersReadTheSelectedElement : Obligations.IndirectRegistersReadTheSelectedElement := by
  intro s hb rd sel
  have value : ∀ a : Byte, accessOk 32 a = true → rd a = regValue s.cfg s.blk a := fun a => readValue_idle hb
  have hfreq : rd 0x44#8 = freqData s.blk := value _ rfl
  have hweight : rd 0x48#8 = nodeWeight s.blk := value _ rfl
  have hlink : rd 0x4C#8 = nodeLink s.blk := value _ rfl
  have hinfo : rd 0x50#8 = entInfo s.blk := value _ rfl
  have hcode : rd 0x54#8 = entCode s.blk := value _ rfl
  have hcand : rd 0x58#8 = candCode s.blk := value _ rfl
  refine ⟨fun c hc => hfreq.trans (freqData_eq hc), fun hc => hfreq.trans (freqData_out hc), fun i hs hi => ?_, fun hs => ?_,
    fun i hs hi hlen => ?_, fun hs => ?_, fun k hk => ?_⟩
  · have hsel := selectedNode_eq hs hi
    rw [hweight, hlink]
    exact ⟨by rw [nodeWeight, hsel], toNat_nodeLink hsel⟩
  · have hsel := selectedNode_out hs
    rw [hweight, hlink]
    exact ⟨by rw [nodeWeight, hsel], by rw [nodeLink, hsel]⟩
  · have hsel := selectedEntry_eq hs hi
    rw [hinfo, hcode]
    refine ⟨toNat_entInfo hsel hlen, fun k hk => ?_⟩
    rw [entCode, hsel]
    exact getLsbD_window _ _ k hk
  · have hsel := selectedEntry_out hs
    rw [hinfo, hcode]
    exact ⟨by rw [entInfo, hsel], by rw [entCode, hsel]⟩
  · rw [hcand]; exact getLsbD_window _ _ k hk

end Sys2Proof.Machine
end

section
/-! PROOFS. The statements about the source, the sink and the register window as the host meets them, and about the command in
progress as the ports show it (spec/20_memory.md). -/

namespace Sys2Proof.Machine

open Sys2Proof

/-! ### The host's moves of the source -/

/-- Settles O44: a move of the source is refused exactly while BUSY = 1. -/
theorem sourceMovesOnlyWhileIdle : Obligations.SourceMovesOnlyWhileIdle := by
  intro s bytes
  refine ⟨fun hb => ?_, fun hb => ?_⟩ <;> simp [hostMove, presentSource, rewindSource, hb]

/-! ### Reads of the register window -/

/-- The offset of a whole register has its two low bits 0 (R86). -/
theorem lowBits_eq_zero_iff (a : Byte) : a.extractLsb' 0 2 = 0#2 ↔ a.toNat % 4 = 0 := by
  rw [← BitVec.toNat_inj, BitVec.extractLsb'_toNat]
  simp

theorem readValue_refused {n : Nat} {a : Byte} (h : n ≠ 32 ∨ a.toNat % 4 ≠ 0) (s : State) : readValue n a s = 0#32 := by
  have hbad : accessOk n a = false := by
    rcases h with h | h
    · simp [accessOk, h]
    · simp [accessOk, mt (lowBits_eq_zero_iff a).1 h]
  rw [readValue, if_pos hbad]

/-- While BUSY = 1 an aligned 32-bit read takes its free bits from the word drawn (R89, log 4). -/
theorem readValue_busy {s : State} (hb : s.blk.busy = true) {a : Byte} (ha : accessOk 32 a = true) :
    readValue 32 a s = busyValue s.cfg s.blk (Config.freeWord s.draws) a := by
  simp [readValue, hb, ha]

/-- Whatever is drawn, bit 0 of STATUS is BUSY and bit 2 is OVR (R89). -/
theorem busyStatus_shows (b : Block) (drawn : Word) :
    (busyStatus b drawn).getLsbD 0 = true ∧ (busyStatus b drawn).getLsbD 2 = b.ovr := by
  simp only [busyStatus, BitVec.getLsbD_or, BitVec.getLsbD_and, BitVec.getLsbD_append]
  simp

/-- Settles O42: ID, CONFIG, SEL and two bits of STATUS do not come from the word drawn, and a read writes only the model's
record of it. -/
theorem busyReadsShowBusyAndOverrun : Obligations.BusyReadsShowBusyAndOverrun := by
  refine ⟨fun s hb => ?_, fun s n a h => readValue_refused h s,
    fun s n a => ⟨regRead n a s, rfl, rfl, rfl, rfl, rfl, rfl⟩⟩
  have value : ∀ a : Byte, accessOk 32 a = true → readValue 32 a s = busyValue s.cfg s.blk (Config.freeWord s.draws) a :=
    fun a => readValue_busy hb
  have hstatus : readValue 32 0x04#8 s = busyStatus s.blk (Config.freeWord s.draws) := value _ rfl
  have hsel : readValue 32 0x40#8 s = selValue s.blk := value _ rfl
  rw [hstatus, hsel]
  exact ⟨busyStatus_shows _ _, value _ rfl, (value 0x60#8 rfl).trans (configWord_eq s.cfg), toNat_selValue s.blk⟩

/-! ### The command in progress -/

/-- When all of a command's effects have been made, the ports are where the block's step leaves them. -/
theorem ports_complete {s u : State} (hb : s.blk.busy = true) (h : blockStep s = .next u)
    (hall : (pendingEffects s).length ≤ s.progress) : portPos s = u.srcPos ∧ portSink s = u.snk := by
  unfold portPos portSink effectsSoFar
  rw [List.take_of_length_le hall]
  exact pendingEffects_carries hb h

/-- How far a command has got does not change what its effects are. -/
theorem pendingEffects_progress (s : State) (n : Nat) : pendingEffects { s with progress := n } = pendingEffects s :=
  pendingEffects_poke (f := fun x => { x with progress := n }) rfl

/-- One effect further, the ports have moved by what that effect is, or not at all when there is none. -/
theorem ports_succ (s : State) :
    let t := { s with progress := s.progress + 1 }
    let next := (pendingEffects s)[s.progress]?.toList
    portPos t = portPos s + bytesRead next ∧ portSink t = portSink s ++ bytesWritten next := by
  intro t next
  have hso : effectsSoFar t = effectsSoFar s ++ next := by
    unfold effectsSoFar
    rw [pendingEffects_progress, List.take_add_one]
  unfold portPos portSink
  rw [hso, bytesRead_append, bytesWritten_append]
  exact ⟨(Nat.add_assoc ..).symm, (List.append_assoc ..).symm⟩

/-- Settles O58: the ports begin and end with the command by `ports_between` and `ports_complete`, and the next effect is a
read, a write or none by `ports_succ`. -/
theorem portsShowTheCommandInOrder : Obligations.PortsShowTheCommandInOrder := by
  refine ⟨fun s hb => ⟨portPos_idle hb, portSink_idle hb⟩, fun s u hb h => ?_, fun s t ht => ?_, fun s => rfl⟩
  · obtain ⟨hpos, hsink⟩ := ports_between hb h
    exact ⟨fun h0 => ⟨portPos_start h0, portSink_start h0⟩, hpos, hsink, ports_complete hb h⟩
  · subst ht
    obtain ⟨hpos, hsink⟩ := ports_succ s
    rw [hpos, hsink]
    cases hnext : (pendingEffects s)[s.progress]? with
    | none => exact .inr (.inr ⟨rfl, List.append_nil _, List.getElem?_eq_none_iff.1 hnext⟩)
    | some e =>
      cases e with
      | read => exact .inl ⟨rfl, List.append_nil _⟩
      | write b => exact .inr (.inl ⟨rfl, b, rfl⟩)

/-! ### ENCODE_SRC in progress -/

theorem Onward.snk_prefix {s t : State} (h : Onward s t) : s.snk <+: t.snk := by
  obtain ⟨_, _, out, hout⟩ := h
  exact ⟨out, hout.symm⟩

/-- The end of a command writes nothing to the sink. -/
theorem conclude_snk {r : Run Unit} {t : State} (h : conclude r = .next t) : t.snk = r.state.snk := by
  rcases conclude_cases h with ⟨u, rfl, rfl⟩ | ⟨e, u, rfl, rfl⟩ <;> rfl

/-- While source bytes are left to read, ENCODE_SRC is in its loop: the flush comes after the last byte (R207). -/
theorem encodeSourceEffects_take_of_unread {s : State} {k : Nat}
    (h : s.srcPos + bytesRead ((encodeSourceEffects s).take k) < s.src.length) :
    (encodeSourceEffects s).take k = (encodeLoopEffects (srcLeft s) s).take k := by
  have hcarries := encodeLoopEffects_carries (srcLeft s) s
  unfold encodeSourceEffects encodeSource at h ⊢
  cases hl : encodeLoop (srcLeft s) s with
  | raised e t => simp [Run.bind, Run.state, effectsTo_self]
  | done a t =>
    rw [hl] at hcarries h
    have hend := encodeLoop_end (srcLeft s) (le_refl _) hl
    refine List.take_append_of_le_length (not_lt.1 fun hk => ?_)
    rw [List.take_append, List.take_of_length_le hk.le, bytesRead_append] at h
    have : s.srcPos + bytesRead (encodeLoopEffects (srcLeft s) s) = t.srcPos := hcarries.1
    omega

/-- After `k` port effects ENCODE_SRC's rule has written a start of what it writes when the source ends after the bytes those
effects have read. -/
theorem encodeSource_upTo (s : State) (k : Nat) :
    let es := (encodeSourceEffects s).take k
    s.snk ++ bytesWritten es <+: (encodeSource (withSrc (s.src.take (s.srcPos + bytesRead es)) s)).state.snk := by
  intro es
  rcases Nat.lt_or_ge (s.srcPos + bytesRead es) s.src.length with hunread | hall
  · have hloop := encodeSourceEffects_take_of_unread hunread
    set x := s.src.take (s.srcPos + bytesRead es)
    have hleft : srcLeft (withSrc x s) = bytesRead es := by
      show (s.src.take _).length - s.srcPos = _
      rw [List.length_take]; omega
    have hstart := encodeLoop_upTo (srcLeft s) s k (srcLeft (withSrc x s)) (by rw [← hloop, hleft])
    rw [← hloop] at hstart
    refine hstart.trans ?_
    unfold encodeSource
    cases encodeLoop (srcLeft (withSrc x s)) (withSrc x s) with
    | raised e t => exact List.prefix_refl _
    | done a t => exact (flushPacker_state t).2.snk_prefix
  · rw [List.take_of_length_le hall]
    exact ((encodeSourceEffects_carries s).take k).2

/-- ENCODE_SRC in progress has made no effect, or its rule is running and the effects are the rule's (R109). -/
theorem effectsSoFar_encodeSrc {s : State} (hb : s.blk.busy = true) (hd : decode s.blk.pending = .ok .encodeSrc) :
    effectsSoFar s = [] ∨ (passesChecks .encodeSrc s.blk = true ∧
      effectsSoFar s = (encodeSourceEffects s).take s.progress) := by
  have hpending : pendingEffects s = commandEffects .encodeSrc s := by simp [pendingEffects, hb, hd]
  unfold effectsSoFar
  rw [hpending, commandEffects]
  split
  · exact .inr ⟨‹_›, rfl⟩
  · exact .inl List.take_nil

theorem exec_encodeSrc_runs {s : State} (h : passesChecks .encodeSrc s.blk = true) :
    exec .encodeSrc s = conclude (encodeSource s) := by
  simp only [passesChecks, Bool.and_eq_true, beq_iff_eq] at h
  obtain ⟨⟨h0, hp⟩, hx⟩ := h
  exact runCommand_runs h0 hp hx

/-- Settles O59: in order the command is its rule (`encodeSource_upTo`), and refused or out of order it has no effect. -/
theorem encodeSrcWritesOnlyWhatItHasRead : Obligations.EncodeSrcWritesOnlyWhatItHasRead := by
  intro s hb hd
  obtain ⟨u, hu⟩ := exec_next .encodeSrc (withSrc (s.src.take (portPos s)) s)
  refine ⟨u, hu, ?_⟩
  rcases effectsSoFar_encodeSrc hb hd with hnone | ⟨hpass, hmade⟩
  · rw [portSink, hnone, bytesWritten_nil, List.append_nil]
    exact (exec_onward hu).1.snk_prefix
  · rw [exec_encodeSrc_runs (s := withSrc (s.src.take (portPos s)) s) hpass] at hu
    rw [conclude_snk hu, portSink, portPos, hmade]
    exact encodeSource_upTo s s.progress

end Sys2Proof.Machine
end

section
/-! PROOFS. The statements about the command word: the decoder and the encoder are inverse (R107), and so a word that no
command encodes to raises IllegalCommand (spec/30_encoding.md). -/

namespace Sys2Proof.Machine

open Sys2Proof

/-! ### The fields of a command's word -/

/-- What a command has in its NBITS field. -/
def nbitsOf : Instr → BitVec 4
  | .pushBits n _ => n
  | _ => 0#4

/-- What a command has in its SYM field. -/
def symOf : Instr → Byte
  | .addSymbol s => s
  | .pushBits _ d => d
  | .pushCode s => s
  | _ => 0#8

/-- Every command's word has the one format, with RSV = 0 (R100, R105). -/
theorem encode_eq_packWord (i : Instr) : encode i = packWord (nbitsOf i) (symOf i) (opcode i) := by
  cases i <;> rfl

@[simp] theorem opcField_encode (i : Instr) : opcField (encode i) = opcode i := by
  rw [encode_eq_packWord, opcField_packWord]

@[simp] theorem symField_encode (i : Instr) : symField (encode i) = symOf i := by
  rw [encode_eq_packWord, symField_packWord]

@[simp] theorem nbitsField_encode (i : Instr) : nbitsField (encode i) = nbitsOf i := by
  rw [encode_eq_packWord, nbitsField_packWord]

@[simp] theorem rsvField_encode (i : Instr) : rsvField (encode i) = 0#12 := by
  rw [encode_eq_packWord, rsvField_packWord]

/-- A word with RSV = 0 and a command's three fields is the command's word. -/
theorem encode_eq_of_fields {w : Word} {i : Instr} (hopc : opcField w = opcode i) (hsym : symField w = symOf i)
    (hnbits : nbitsField w = nbitsOf i) (hrsv : rsvField w = 0#12) : encode i = w := by
  rw [encode_eq_packWord, ← hopc, ← hsym, ← hnbits, packWord_fields w hrsv]

/-- The operands PUSH_BITS may have (R104). -/
theorem wf_pushBits_iff (n : BitVec 4) (d : Byte) : (Instr.pushBits n d).wf = true ↔
    (1 ≤ n.toNat ∧ n.toNat ≤ 8) ∧ ∀ k, n.toNat ≤ k → k < 8 → d.getLsbD k = false := by
  rw [← dataBitsOk_iff]
  simp [Instr.wf, bitCountOk]

/-! ### The decoder and the encoder are inverse -/

/-- Settles O1: a command without operands has one word, the others are decoded from the fields of theirs. -/
theorem decodeOfEncode : Obligations.DecodeOfEncode := by
  intro i hwf
  cases i with
  | addSymbol s => simp [decode, opcode, decodeSym, nbitsOf, symOf]
  | pushCode s => simp [decode, opcode, decodeSym, nbitsOf, symOf]
  | pushBits n d =>
    obtain ⟨hcount, hdata⟩ : bitCountOk n = true ∧ dataBitsOk n d = true := by simpa [Instr.wf] using hwf
    simp [decode, opcode, decodePushBits, nbitsOf, symOf, hcount, hdata]
  | _ => rfl

/-- `decodePlain` answers its command, on the command's one word (R102). -/
theorem decodePlain_ok {w : Word} {i j : Instr} (h : decodePlain w i = .ok j) (hopc : (opcField w).toNat = (opcode i).toNat)
    (hsym : symOf i = 0#8) (hnbits : nbitsOf i = 0#4) (hwf : i.wf = true) : j.wf = true ∧ encode j = w := by
  unfold decodePlain at h
  split at h
  next hz =>
    obtain ⟨hs, hn, hr⟩ := hz
    obtain rfl := Except.ok.inj h
    exact ⟨hwf, encode_eq_of_fields (BitVec.eq_of_toNat_eq hopc) (hs.trans hsym.symm) (hn.trans hnbits.symm) hr⟩
  next => cases h

/-- `decodeSym` answers its command with the word's SYM, on that command's word (R103). -/
theorem decodeSym_ok {w : Word} {mk : Byte → Instr} {j : Instr} (h : decodeSym w mk = .ok j)
    (hopc : ∀ s, (opcField w).toNat = (opcode (mk s)).toNat) (hsym : ∀ s, symOf (mk s) = s)
    (hnbits : ∀ s, nbitsOf (mk s) = 0#4) (hwf : ∀ s, (mk s).wf = true) : j.wf = true ∧ encode j = w := by
  unfold decodeSym at h
  split at h
  next hz =>
    obtain ⟨hn, hr⟩ := hz
    obtain rfl := Except.ok.inj h
    exact ⟨hwf _, encode_eq_of_fields (BitVec.eq_of_toNat_eq (hopc _)) (hsym _).symm (hn.trans (hnbits _).symm) hr⟩
  next => cases h

/-- `decodePushBits` answers PUSH_BITS with the word's NBITS and SYM, after R104's three checks. -/
theorem decodePushBits_ok {w : Word} {j : Instr} (h : decodePushBits w = .ok j) (hopc : (opcField w).toNat = 0x30) :
    j.wf = true ∧ encode j = w := by
  unfold decodePushBits at h
  split at h
  · cases h
  split at h
  · cases h
  split at h
  · cases h
  next hrsv hcount hdata =>
    obtain rfl := Except.ok.inj h
    have hwf : (Instr.pushBits (nbitsField w) (symField w)).wf = true := by simp [Instr.wf, hcount, hdata]
    exact ⟨hwf, encode_eq_of_fields (BitVec.eq_of_toNat_eq hopc) rfl rfl (not_not.1 hrsv)⟩

/-- Settles O2, by the three forms a command's word can have. -/
theorem encodeOfDecode : Obligations.EncodeOfDecode := by
  intro w i h
  unfold decode at h
  split at h
  case h_17 => cases h
  case h_10 hopc => exact decodePushBits_ok h hopc
  case h_3 hopc | h_11 hopc => exact decodeSym_ok h (fun _ => hopc) (fun _ => rfl) (fun _ => rfl) (fun _ => rfl)
  all_goals next hopc => exact decodePlain_ok h hopc rfl rfl rfl

/-- Settles O3: the decoder run on each word. -/
theorem specWordsDecode : Obligations.SpecWordsDecode :=
  ⟨rfl, rfl, rfl, rfl, rfl, rfl, rfl, rfl, rfl, rfl, rfl, rfl⟩

/-! ### Words that are no command's -/

/-- A pending word that is no legal command's word raises IllegalCommand (R107, R306). -/
theorem blockStep_of_not_encoded {s : State} (h0 : s.blk.errCode = 0#4)
    (hno : ∀ i : Instr, i.wf = true → encode i ≠ s.blk.pending) : blockStep s = .next (withError 5#4 s) := by
  cases hd : decode s.blk.pending with
  | error r => exact blockStep_illegal h0 hd
  | ok i =>
    obtain ⟨hwf, henc⟩ := encodeOfDecode _ _ hd
    exact absurd henc (hno i hwf)

/-- Only PUSH_BITS has the OPC 0x30 (R105). -/
theorem eq_pushBits_of_opcode {i : Instr} (h : opcode i = 0x30#8) : ∃ n d, i = .pushBits n d := by
  cases i with
  | pushBits n d => exact ⟨n, d, rfl⟩
  | _ => simp [opcode] at h

/-- Settles O4: the legal words are PUSH_BITS' own words (`decodeOfEncode`), and no command has another word of that OPC. -/
theorem pushBitsWordIsLegalIff : Obligations.PushBitsWordIsLegalIff := by
  refine ⟨?_, ⟨_, rfl⟩, rfl, rfl⟩
  intro w hopc n d legal
  constructor
  · rintro ⟨hrsv, h1, h8, hdata⟩
    have henc : encode (.pushBits n d) = w := encode_eq_of_fields hopc rfl rfl hrsv
    rw [← henc]
    exact decodeOfEncode _ ((wf_pushBits_iff n d).2 ⟨⟨h1, h8⟩, hdata⟩)
  · intro hill s _ h0 hw
    refine blockStep_of_not_encoded h0 fun i hwf henc => hill ?_
    rw [hw] at henc
    obtain ⟨m, e, rfl⟩ : ∃ m e, i = .pushBits m e :=
      eq_pushBits_of_opcode ((opcField_encode i).symm.trans ((congrArg opcField henc).trans hopc))
    have hn : n = m := (congrArg nbitsField henc).symm.trans (nbitsField_encode _)
    have hd : d = e := (congrArg symField henc).symm.trans (symField_encode _)
    have hrsv : rsvField w = 0#12 := (congrArg rsvField henc).symm.trans (rsvField_encode _)
    rw [← hn, ← hd, wf_pushBits_iff] at hwf
    obtain ⟨⟨h1, h8⟩, hdata⟩ := hwf
    exact ⟨hrsv, h1, h8, hdata⟩

/-- The OPC values of the commands without operands (R102). -/
def plainOpcodes : List Byte :=
  [0x00#8, 0x01#8, 0x11#8, 0x12#8, 0x13#8, 0x14#8, 0x20#8, 0x21#8, 0x32#8, 0x33#8, 0x40#8, 0x41#8, 0x42#8]

/-- The opcode map has three forms of row: without operands, with a symbol, and PUSH_BITS (R105). -/
theorem opcode_cases (i : Instr) : (opcode i ∈ plainOpcodes ∧ symOf i = 0#8 ∧ nbitsOf i = 0#4)
    ∨ ((opcode i = 0x10#8 ∨ opcode i = 0x31#8) ∧ nbitsOf i = 0#4) ∨ opcode i = 0x30#8 := by
  cases i with
  | addSymbol s => exact .inr (.inl ⟨.inl rfl, rfl⟩)
  | pushCode s => exact .inr (.inl ⟨.inr rfl, rfl⟩)
  | pushBits n d => exact .inr (.inr rfl)
  | _ => exact .inl ⟨by decide, rfl, rfl⟩

theorem symOf_of_plain {i : Instr} (h : opcode i ∈ plainOpcodes) : symOf i = 0#8 := by
  rcases opcode_cases i with ⟨-, hsym, -⟩ | ⟨hc | hc, -⟩ | hc
  · exact hsym
  all_goals exact absurd h (by rw [hc]; decide)

theorem nbitsOf_of_opcode_ne {i : Instr} (h : opcode i ≠ 0x30#8) : nbitsOf i = 0#4 := by
  rcases opcode_cases i with ⟨-, -, hnbits⟩ | ⟨-, hnbits⟩ | hc
  · exact hnbits
  · exact hnbits
  · exact absurd hc h

/-- A command other than PUSH_BITS has 0 in every bit above SYM (R102, R103). -/
theorem bits16_encode {i : Instr} (h : opcode i ≠ 0x30#8) : (encode i).extractLsb' 16 16 = 0#16 :=
  bits16_of_fields _ ((nbitsField_encode i).trans (nbitsOf_of_opcode_ne h)) (rsvField_encode i)

/-- A command without operands has 0 in every bit above OPC (R102). -/
theorem bits24_encode {i : Instr} (h : opcode i ∈ plainOpcodes) : (encode i).extractLsb' 8 24 = 0#24 := by
  have hne : opcode i ≠ 0x30#8 := fun hc => absurd h (by rw [hc]; decide)
  exact bits24_of_fields _ ((symField_encode i).trans (symOf_of_plain h))
    ((nbitsField_encode i).trans (nbitsOf_of_opcode_ne hne)) (rsvField_encode i)

/-- Settles O5: a command's word has the command's OPC, and 0 in the bits its operands do not use. -/
theorem reservedWordsRaiseIllegalCommand : Obligations.ReservedWordsRaiseIllegalCommand := by
  intro s _ h0 w opc plain
  have hopc : ∀ i, encode i = w → opc = opcode i := fun i henc =>
    (congrArg opcField henc).symm.trans (opcField_encode i)
  refine ⟨fun hplain hbits => ?_, fun hsym hbits => ?_, fun hplain hadd hpush hcode => ?_⟩
  · refine blockStep_of_not_encoded h0 fun i _ henc => hbits ?_
    rw [hopc i henc] at hplain
    exact (congrArg _ henc).symm.trans (bits24_encode hplain)
  · refine blockStep_of_not_encoded h0 fun i _ henc => hbits ?_
    rw [hopc i henc] at hsym
    have hne : opcode i ≠ 0x30#8 := by rcases hsym with h | h <;> rw [h] <;> decide
    exact (congrArg _ henc).symm.trans (bits16_encode hne)
  · refine blockStep_of_not_encoded h0 fun i _ henc => ?_
    rw [hopc i henc] at hplain hadd hpush hcode
    rcases opcode_cases i with ⟨h, -⟩ | ⟨h | h, -⟩ | h
    · exact hplain h
    · exact hadd h
    · exact hcode h
    · exact hpush h

end Sys2Proof.Machine
end

section
/-! PROOFS. The statements about the tree builder: counting, the greedy merge, the codes of the leaves and the header counts
(spec/40_tree_builder.md). -/

namespace Sys2Proof.Machine

open Sys2Proof

/-! ### Counting -/

theorem exec_addSymbol {s : State} (c : Byte) (h0 : s.blk.errCode = 0#4) (hp : s.blk.phase = .count) :
    exec (.addSymbol c) s = conclude (countSymbol c s) :=
  exec_runs nofun nofun h0 (by rw [hp]; rfl) rfl

theorem countSymbol_fits {c : Byte} {s : State} (h : s.blk.inCount ≠ 0xFFFFFFFF#32) :
    countSymbol c s = .done () (countOne c s) := if_neg h

theorem countSymbol_full {c : Byte} {s : State} (h : s.blk.inCount = 0xFFFFFFFF#32) :
    countSymbol c s = .raised .overflow s := if_pos h

/-- Settles O12, by the two cases of R131. -/
theorem addSymbolCountsOrOverflows : Obligations.AddSymbolCountsOrOverflows := by
  intro c s h0 hp
  rw [exec_addSymbol c h0 hp]
  constructor
  · intro hfits
    refine ⟨retire (countOne c s), by rw [countSymbol_fits hfits, conclude_done], fun d => ?_, rfl⟩
    refine (freqAt_set s.blk.freq c d _).trans ?_
    by_cases hd : d = c <;> simp [hd]
  · intro hfull
    rw [countSymbol_full hfull, conclude_raised, errorEntry_eq_withError, ErrKind.code]

theorem exec_countSrc {s : State} (h0 : s.blk.errCode = 0#4) (hp : s.blk.phase = .count) :
    exec .countSrc s = conclude (countLoop (restOfSource s).length s) := by
  rw [← srcLeft_eq]
  exact exec_runs nofun nofun h0 (by rw [hp]; rfl) rfl

theorem PortInv.srcPos_add_length {s : State} (h : PortInv s) : s.srcPos + (restOfSource s).length = s.src.length := by
  rw [restOfSource, List.length_drop]
  exact Nat.add_sub_cancel' h

/-- Settles O13: the loop counts the whole rest of the source (`countLoop_done`). -/
theorem countSrcCountsEveryByte : Obligations.CountSrcCountsEveryByte := by
  intro s h0 hp hport hfits
  obtain ⟨hfreq, hframe⟩ := countBytes_facts (restOfSource s) s
  refine ⟨retire (countBytes (restOfSource s) s), ?_, hfreq, ?_⟩
  · rw [exec_countSrc h0 hp, countLoop_done _ _ s rfl (le_refl _) hfits, conclude_done]
  · rw [hframe, hport.srcPos_add_length]
    rfl

/-- Counting as many bytes as fit ends with a full count. -/
theorem inCount_add_room (w : Word) : w + BitVec.ofNat 32 (2 ^ 32 - 1 - w.toNat) = 0xFFFFFFFF#32 := by
  bv_omega

/-- Settles O14: the loop counts the bytes that fit and raises at the next one (`countLoop_overflow`). -/
theorem countSrcOverflowsAtTheByte : Obligations.CountSrcOverflowsAtTheByte := by
  intro s h0 hp hover n
  have hroom : s.blk.inCount.toNat + n = 2 ^ 32 - 1 := Nat.add_sub_cancel' (Nat.le_sub_one_of_lt s.blk.inCount.isLt)
  have hlt : n < (restOfSource s).length := by omega
  obtain ⟨hfreq, hframe⟩ := countBytes_facts ((restOfSource s).take n) s
  refine ⟨errorEntry .overflow { countBytes ((restOfSource s).take n) s with srcPos := s.srcPos + n + 1 }, ?_, hfreq, ?_⟩
  · rw [exec_countSrc h0 hp, countLoop_overflow _ n _ s rfl (le_refl _) hroom hlt, conclude_raised]
  · rw [hframe, List.length_take_of_le hlt.le, inCount_add_room]
    rfl

/-! ### The tree -/

theorem leafNodes_length (f : Vector Word 256) : (leafNodes f).length = (countedSymbols f).length := by
  rw [leafNodes_eq, List.length_map]

/-- What the merges of BUILD leave, by the number of counted symbols. -/
theorem builtForest_built (b : Block) : BuiltFacts b (countedSymbols b.freq).length (builtForest b) := by
  rw [← leafNodes_length]
  exact (builtForest_facts b (fun _ => True) (fun _ _ _ _ _ _ _ => trivial) trivial).1

theorem buildTree_next (s : State) : (builtForest s.blk).next = 2 * (buildTree s).blk.nLeaf.val - 1 := by
  rw [buildTree_nLeaf]
  exact (builtForest_built s.blk).next

/-- One node for each leaf and each of the NLEAF - 1 merges (R141). -/
theorem buildTree_nodeCount (s : State) : (buildTree s).blk.nodeCount.val = 2 * (buildTree s).blk.nLeaf.val - 1 := by
  have hlt := (buildTree s).blk.nLeaf.isLt
  rw [← buildTree_next]
  exact Nat.mod_eq_of_lt (by rw [buildTree_next]; omega)

theorem buildTree_treePresent (s : State) : (buildTree s).blk.treePresent = true ↔ (buildTree s).blk.nLeaf ≠ 0 := by
  rw [ne_eq, Fin.ext_iff, buildTree_nLeaf, ← leafNodes_length]
  exact bne_iff_ne

/-- The root is the last node made, or 0 when none is (R140, R141). -/
theorem buildTree_root (s : State) : (buildTree s).blk.root.val = (buildTree s).blk.nodeCount.val - 1 := by
  have hb := builtForest_built s.blk
  rw [buildTree_nodeCount, ← buildTree_next]
  show ((builtForest s.blk).pool.headD 0).val = _
  by_cases hz : (countedSymbols s.blk.freq).length = 0
  · rw [hb.empty hz, hb.next, hz]
    rfl
  · obtain ⟨r, hpool, hr⟩ := hb.pool hz
    rw [hpool, ← hr]
    rfl

theorem buildTree_leaf (s : State) (i : Fin 511) (h : i.val < (countedSymbols s.blk.freq).length) :
    (buildTree s).blk.node[i]
      = leafNode (freqAt s.blk.freq (countedSymbols s.blk.freq)[i.val]) (countedSymbols s.blk.freq)[i.val] :=
  ((builtForest_built s.blk).leaf i h).trans (leafForest_leaf s.blk i h)

/-- Every internal node joins the two least unmerged nodes (R137, R138). -/
theorem buildTree_greedy (s : State) (k : Fin 511) (hge : (buildTree s).blk.nLeaf.val ≤ k.val)
    (hlt : k.val < (buildTree s).blk.nodeCount.val) : Greedy (buildTree s).blk.node (buildTree s).blk.nLeaf.val k := by
  rw [buildTree_nodeCount, ← buildTree_next] at hlt
  rw [buildTree_nLeaf] at hge ⊢
  exact (builtForest_built s.blk).inv.merged k hge hlt

/-- BUILD writes no node from NODE_COUNT on (R139). -/
theorem buildTree_unwritten (s : State) (i : Fin 511) (h : (buildTree s).blk.nodeCount.val ≤ i.val) :
    (buildTree s).blk.node[i] = s.blk.node[i] := by
  rw [buildTree_nodeCount] at h
  have hleaves : (countedSymbols s.blk.freq).length ≤ i.val := by rw [← buildTree_nLeaf]; omega
  exact ((builtForest_built s.blk).rest i (by rw [buildTree_next]; exact h)).trans (leafForest_rest s.blk i hleaves)

/-- Settles O15: the merges keep the leaves, and `buildTree` writes the tree and PHASE only. -/
theorem buildPlacesLeavesInSymbolOrder : Obligations.BuildPlacesLeavesInSymbolOrder :=
  fun s h0 hp => ⟨retire (buildTree s), exec_build h0 hp, buildTree_nLeaf s, buildTree_leaf s, rfl⟩

/-- Settles O16: the merge loop's invariant at its end, where one node is left unmerged. -/
theorem buildMergesTheTwoLeast : Obligations.BuildMergesTheTwoLeast :=
  fun s h0 hp => ⟨retire (buildTree s), exec_build h0 hp, buildTree_nodeCount s, buildTree_treePresent s, buildTree_root s,
    buildTree_greedy s, buildTree_unwritten s⟩

/-! ### Codes and counts -/

/-- Settles O17: `codeEntries_facts` says what the walk writes, and `assignCodes` writes the table and PHASE only. -/
theorem assignCodesFollowsTheTree : Obligations.AssignCodesFollowsTheTree := by
  intro s h0 hp ht
  obtain ⟨hpath, hrest⟩ := codeEntries_facts s.blk ht
  exact ⟨retire (assignCodes s), exec_assignCodes h0 hp, hpath, hrest, rfl⟩

/-- No path to a leaf goes on to another leaf: a leaf has no descendants (R148). -/
theorem eq_of_path_prefix {node : Vector Node 511} {r i j : Fin 511} {c d : Bits} (hc : follow node r c = i)
    (hi : node[i].isLeaf = true) (hd : follow node r d = j)
    (hinner : ∀ p q, d = p ++ q → q ≠ [] → node[follow node r p].isLeaf = false) (h : c <+: d) : i = j := by
  obtain ⟨q, rfl⟩ := h
  subst hc
  by_cases hq : q = []
  · rw [← hd, hq, List.append_nil]
  · exact absurd (hi.symm.trans (hinner c q rfl hq)) nofun

/-- Settles O18: two codes are paths to two leaves; a single leaf has no other code beside its own. -/
theorem assignedCodesArePrefixFree : Obligations.AssignedCodesArePrefixFree := by
  intro s h0 hp ht
  obtain ⟨hpath, -⟩ := codeEntries_facts s.blk ht
  refine ⟨retire (assignCodes s), exec_assignCodes h0 hp, fun i j hi hj hne hprefix => hne ?_⟩
  have hi : i.val < s.blk.nLeaf.val := hi
  have hj : j.val < s.blk.nLeaf.val := hj
  by_cases h1 : 1 < s.blk.nLeaf.val
  · obtain ⟨-, -, -, -, hi'⟩ := hpath i (i.castLE (by decide)) rfl hi
    obtain ⟨-, -, -, -, hj'⟩ := hpath j (j.castLE (by decide)) rfl hj
    have hleaf : s.blk.node[i.castLE (by decide : 256 ≤ 511)].isLeaf = true := (ht.leaf _ hi).1
    exact Fin.castLE_injective _ (eq_of_path_prefix (hi' h1).1 hleaf (hj' h1).1 (hj' h1).2 hprefix)
  · exact Fin.ext (by omega)

theorem exec_makeHeader {s : State} (h0 : s.blk.errCode = 0#4) (hp : s.blk.phase = .coded) :
    exec .makeHeader s = conclude (makeHeader s) :=
  exec_runs nofun nofun h0 (by rw [hp]; rfl) rfl

/-- Settles O19: T is `encodedBits` (`encodedBits_eq`), and it either fits the header or not (R150). -/
theorem makeHeaderSumsWeightedLengths : Obligations.MakeHeaderSumsWeightedLengths := by
  intro s h0 hp T
  have hT : encodedBits s.blk = T := encodedBits_eq s.blk
  rw [exec_makeHeader h0 hp, makeHeader, hT]
  constructor
  · intro hfits
    rw [if_neg (Nat.not_lt.2 hfits)]
    rfl
  · intro hover
    rw [if_pos hover, conclude_raised, errorEntry_eq_withError, ErrKind.code]

end Sys2Proof.Machine
end

section
/-! PROOFS. The statements about the header: its bytes, what SERIALIZE writes and what DESERIALIZE reads, whole, out of range
and cut short (spec/41_code_table_format.md). -/

namespace Sys2Proof.Machine

open Sys2Proof

/-! ### The bytes of a header -/

theorem packCode_getElem? {c : Bits} {j : Nat} (h : j < byteCount c.length) :
    (packCode c)[j]? = some (byteOfBits fun k => c.getD (8 * j + k) false) := by
  simp [packCode, h]

/-- Settles O20: an entry's code bytes stand after its symbol and its length, and `byteOfBits` puts bit k at place 7-k. -/
theorem headerBytesAreAsSpecified : Obligations.HeaderBytesAreAsSpecified := by
  refine ⟨fun v j hj => ?_, fun _ _ _ _ => ⟨rfl, rfl⟩, fun e => ⟨entryBytes_length e, rfl, rfl, fun j k hj hk => ?_⟩⟩
  · match j, hj with
    | 0, _ | 1, _ | 2, _ | 3, _ => exact ⟨rfl, rfl⟩
  · refine ⟨byteOfBits fun k => e.code.getD (8 * j + k) false, ?_, ?_⟩
    · rw [entryBytes, Nat.add_comm 2 j]
      exact packCode_getElem? hj
    · rw [getLsbD_byteOfBits _ _ (by omega), show 7 - (7 - k) = k by omega]

/-- HeaderBytes of R173. -/
theorem headerBytes_length (o : HdrOrder) (b : Block) : (headerBytes o b).length = headerLength b.entries := by
  simp only [headerBytes, List.length_append, u32Bytes_length, List.length_flatMap, entryBytes_length]
  rfl

/-! ### SERIALIZE -/

theorem exec_serialize {s : State} (h0 : s.blk.errCode = 0#4) (hp : s.blk.phase = .ready) (hk : s.blk.pkCnt = 0) :
    exec .serialize s = .next (retire (serialize s)) :=
  exec_runs nofun nofun h0 (by rw [hp]; rfl) (by rw [extraLegal, hk]; rfl)

/-- Settles O21: the bytes are `headerBytes` of the valid entries. -/
theorem serializeWritesTheHeader : Obligations.SerializeWritesTheHeader := by
  intro s h0 hp hk es hdr
  have hes : s.blk.entries = es := entries_eq_filterMap s.blk
  have hhdr : headerBytes s.cfg.hdrOrder s.blk = hdr := by rw [headerBytes, hes]
  constructor
  · rw [← hhdr, headerBytes_length, hes]
    rfl
  · rw [exec_serialize h0 hp hk, serialize, hhdr]
    rfl

/-! ### DESERIALIZE past its two integers -/

/-- Settles O23: the check of R178 reads the same signs (`headerOutOfRange_iff`). -/
theorem deserializeChecksTheRange : Obligations.DeserializeChecksTheRange := by
  intro s t c rest h0 hp hrange hsrc
  rw [exec_deserialize h0 hp, (deserialize_prologue hsrc).1, readTable, if_pos ((headerOutOfRange_iff t c).2 hrange),
    conclude_raised]
  simp only [errorEntry, setSymCount, setTotalBits, hdrAfter, State.withBlk, ErrKind.code]

/-- The state DESERIALIZE has reached when it begins with the entries. -/
def entriesStart (t c : Word) (s : State) : State := clearTable (setSymCount c (setTotalBits t (hdrAfter 8 s)))

theorem entriesStart_ent (t c : Word) (s : State) : (entriesStart t c s).blk.ent = s.blk.ent := by
  simp only [entriesStart, clearTable, setSymCount, setTotalBits, hdrAfter, withBlk_blk]

/-- Counts in range lead to the entries (R178, R180). -/
theorem deserialize_inRange {s : State} {t c : Word} {rest : List Byte} (ht : t.msb = false) (hc : c.toNat ≤ 256)
    (h : restOfSource s = u32Bytes s.cfg.hdrOrder t ++ u32Bytes s.cfg.hdrOrder c ++ rest) :
    deserialize s = ((readEntries c.toNat 0 (entriesStart t c s)).bind fun _ u => .done () (armDecoder t u))
    ∧ restOfSource (entriesStart t c s) = rest := by
  obtain ⟨hrun, hrest⟩ := deserialize_prologue h
  have hin : ¬ headerOutOfRange t c = true := by simp [headerOutOfRange, ht, msb_false_of_le hc, hc]
  exact ⟨by rw [hrun, readTable, if_neg hin]; rfl, hrest⟩

/-- The state once the entries `raw` have been read, from index 0 on. -/
def entriesRead (t c : Word) (raw : List (Byte × Byte × List Byte)) (s : State) : State :=
  storeRaw 0 raw (entriesStart t c s)

/-- The bytes of two integers and the entries `raw`. -/
def rawHeaderLength (raw : List (Byte × Byte × List Byte)) : Nat := 8 + (raw.map fun r => 2 + r.2.2.length).sum

section
variable (t c : Word) {raw : List (Byte × Byte × List Byte)} (hraw : raw.length ≤ 256) (s : State)
include hraw

theorem entriesRead_entN : (entriesRead t c raw s).blk.entN.val = raw.length := by
  obtain ⟨-, -, hsome, hnone, -⟩ := storeRaw_facts raw 0 (entriesStart t c s) (by omega)
  by_cases h : raw = []
  · rw [entriesRead, hnone h, h]
    rfl
  · rw [entriesRead, hsome h, Nat.zero_add]

theorem entriesRead_ent (i : Fin 256) (h : i.val < raw.length) :
    (entriesRead t c raw s).blk.ent[i] = rawEntry raw[i.val] := by
  obtain ⟨hin, -⟩ := storeRaw_facts raw 0 (entriesStart t c s) (by omega)
  exact hin i (Nat.zero_le _) (by omega)

theorem entriesRead_ent_unwritten (i : Fin 256) (h : raw.length ≤ i.val) :
    (entriesRead t c raw s).blk.ent[i] = s.blk.ent[i] := by
  obtain ⟨-, hout, -⟩ := storeRaw_facts raw 0 (entriesStart t c s) (by omega)
  rw [entriesRead, hout i (.inr (by omega)), entriesStart_ent]

/-- Reading entries writes the table and the two counts, beside the bytes read. -/
theorem entriesRead_frame : entriesRead t c raw s = hdrAfter (rawHeaderLength raw) { s with blk := { s.blk with
    ent := (entriesRead t c raw s).blk.ent
    entN := (entriesRead t c raw s).blk.entN
    totalBits := t
    symCount := c } } := by
  obtain ⟨-, -, -, -, hframe⟩ := storeRaw_facts raw 0 (entriesStart t c s) (by omega)
  rw [rawHeaderLength, ← hdrAfter_add]
  exact hframe

end

/-- Settles O22: the entries are read one by one (`readEntries_done`) and the decoder is armed. -/
theorem deserializeReadsTheTable : Obligations.DeserializeReadsTheTable := by
  intro s t c raw rest h0 hp ht hlen hc hbytes hsrc n
  rw [List.append_assoc] at hsrc
  obtain ⟨hrun, hrest⟩ := deserialize_inRange ht (hc ▸ hlen) hsrc
  refine ⟨retire (armDecoder t (entriesRead t c raw s)), ?_, entriesRead_entN t c hlen s, entriesRead_ent t c hlen s,
    entriesRead_ent_unwritten t c hlen s, ?_⟩
  · rw [exec_deserialize h0 hp, hrun, hc, readEntries_done raw 0 _ rest hbytes hrest]
    rfl
  · rw [entriesRead_frame t c hlen s]
    rfl

/-! ### DESERIALIZE on a source that ends too early -/

theorem deserialize_short {s : State} (h : (restOfSource s).length < 4) :
    deserialize s = .raised .truncatedHeader (hdrAfter (restOfSource s).length s) := by
  rw [deserialize, getU32_short h, Run.bind_raised]

/-- The source ends in the second integer: TOTAL_BITS has been written (R180). -/
theorem deserialize_short_symCount {s : State} {t : Word} {more : List Byte} (hmore : more.length < 4)
    (h : restOfSource s = u32Bytes s.cfg.hdrOrder t ++ more) :
    deserialize s = .raised .truncatedHeader (hdrAfter (restOfSource s).length (setTotalBits t s)) := by
  have hrest : restOfSource (setTotalBits t (hdrAfter 4 s)) = more := by
    refine (restOfSource_hdrAfter 4 s).trans ?_
    rw [h, List.drop_left' (u32Bytes_length _ t)]
  have hlen : 4 + more.length = (restOfSource s).length := by rw [h, List.length_append, u32Bytes_length]
  rw [deserialize, getU32_done h, Run.bind_done, getU32_short (by rwa [hrest]), Run.bind_raised, hrest,
    ← hdrAfter_setTotalBits, hdrAfter_add, hlen]

/-- The source ends in the entry after `raw`: that entry is not written (R181). -/
theorem deserialize_short_entry {s : State} {t c : Word} {raw : List (Byte × Byte × List Byte)} {part : List Byte}
    (ht : t.msb = false) (hc : c.toNat ≤ 256) (hlt : raw.length < c.toNat)
    (hbytes : ∀ r ∈ raw, r.2.2.length = (r.2.1.toNat + 7) / 8)
    (hpart : ∀ sym len bytes, part = sym :: len :: bytes → bytes.length < (len.toNat + 7) / 8)
    (h : restOfSource s = u32Bytes s.cfg.hdrOrder t ++ u32Bytes s.cfg.hdrOrder c ++ (raw.flatMap rawBytes ++ part)) :
    deserialize s = .raised .truncatedHeader (hdrAfter part.length (entriesRead t c raw s)) := by
  obtain ⟨hrun, hrest⟩ := deserialize_inRange ht hc h
  rw [hrun, readEntries_short raw _ 0 _ part hbytes hlt hpart hrest]
  rfl

theorem rawBytes_length (raw : List (Byte × Byte × List Byte)) :
    (raw.flatMap rawBytes).length = (raw.map fun r => 2 + r.2.2.length).sum := by
  simp only [List.length_flatMap, rawBytes, List.length_cons, Nat.add_assoc, Nat.add_comm 2]

/-- Settles O24, by the three places where the source can end. -/
theorem deserializeStopsWhereTheHeaderEnds : Obligations.DeserializeStopsWhereTheHeaderEnds := by
  intro s h0 hp n
  rw [exec_deserialize h0 hp]
  refine ⟨fun hn => ?_, fun t more hmore hsrc => ?_, fun t c raw part ht hc hlt hbytes hpart hsrc => ?_⟩
  · rw [deserialize_short hn]
    rfl
  · rw [deserialize_short_symCount hmore hsrc]
    rfl
  · have hlen : raw.length ≤ 256 := hlt.le.trans hc
    have hn : rawHeaderLength raw + part.length = n := by
      simp only [n, hsrc, List.length_append, u32Bytes_length, rawBytes_length, rawHeaderLength]
    rw [List.append_assoc] at hsrc
    refine ⟨errorEntry .truncatedHeader (hdrAfter part.length (entriesRead t c raw s)), ?_, entriesRead_entN t c hlen s,
      entriesRead_ent t c hlen s, entriesRead_ent_unwritten t c hlen s, ?_⟩
    · rw [deserialize_short_entry ht hc hlt hbytes hpart hsrc, conclude_raised]
    · rw [entriesRead_frame t c hlen s, hdrAfter_add, hn]
      rfl

/-! ### DESERIALIZE after SERIALIZE -/

theorem rawOf_len {e : Entry} (h : e.len ≤ 255) : (rawOf e).2.1.toNat = e.len :=
  Nat.mod_eq_of_lt (Nat.lt_succ_of_le h)

/-- An entry read back from its own bytes, whose length byte holds a length up to 255 whole (R172, R179). -/
theorem rawEntry_rawOf {e : Entry} (h : e.len ≤ 255) : rawEntry (rawOf e) = e := by
  rw [rawEntry, rawOf_len h]
  exact congrArg (Entry.mk e.sym) (unpack_packCode e.code)

theorem rawOf_codeBytes {e : Entry} (h : e.len ≤ 255) : (rawOf e).2.2.length = ((rawOf e).2.1.toNat + 7) / 8 := by
  rw [rawOf_len h]
  exact packCode_length e.code

theorem mem_entries {b : Block} {e : Entry} (h : e ∈ b.entries) : ∃ i : Fin 256, i.val < b.entN.val ∧ b.ent[i] = e := by
  simpa [entries_eq_filterMap] using h

theorem headerBytes_eq_rawBytes (o : HdrOrder) (b : Block) : headerBytes o b =
    u32Bytes o b.totalBits ++ u32Bytes o b.symCount ++ (b.entries.map rawOf).flatMap rawBytes := by
  rw [headerBytes, List.flatMap_map]
  rfl

/-- Settles O25: the header written is a whole header of the entries' own bytes (`rawOf`), which DESERIALIZE reads by O22. -/
theorem deserializeReadsBackSerialize : Obligations.DeserializeReadsBackSerialize := by
  intro s h0 hp hk htotal hcount hlens
  refine ⟨_, headerBytes s.cfg.hdrOrder s.blk, exec_serialize h0 hp hk, rfl, fun u rest hcfg hu0 hup hsrc => ?_⟩
  have hraw : (s.blk.entries.map rawOf).length = s.blk.entN.val := by rw [List.length_map, entries_length]
  have hmsb : s.blk.totalBits.msb = false := BitVec.msb_eq_false_iff_two_mul_lt.2 (by omega)
  have hbytes : ∀ r ∈ s.blk.entries.map rawOf, r.2.2.length = (r.2.1.toNat + 7) / 8 := by
    intro r hr
    obtain ⟨e, he, rfl⟩ := List.mem_map.1 hr
    obtain ⟨i, hi, rfl⟩ := mem_entries he
    exact rawOf_codeBytes (hlens i hi)
  have hlen : (headerBytes s.cfg.hdrOrder s.blk).length = rawHeaderLength (s.blk.entries.map rawOf) := by
    simp only [headerBytes_eq_rawBytes, List.length_append, u32Bytes_length, rawBytes_length, rawHeaderLength]
  obtain ⟨v, hexec, hentN, hent, -, hv⟩ := deserializeReadsTheTable u s.blk.totalBits s.blk.symCount
    (s.blk.entries.map rawOf) rest hu0 hup hmsb (by omega) (by omega) hbytes
    (by rw [hsrc, headerBytes_eq_rawBytes, hcfg])
  have hrest : restOfSource v = (restOfSource u).drop (rawHeaderLength (s.blk.entries.map rawOf)) := by
    rw [hv, restOfSource, restOfSource, List.drop_drop]
    rfl
  refine ⟨v, hexec, by rw [hv], ?_, by rw [hv], by rw [hv], by rw [hv], Fin.ext (hentN.trans hraw), fun i hi => ?_⟩
  · rw [hrest, hsrc, List.drop_left' hlen]
  · rw [hent i (by omega), List.getElem_map, entries_getElem]
    exact rawEntry_rawOf (hlens i hi)

end Sys2Proof.Machine
end

section
/-! PROOFS. The statements about the bit packer: PUSH_BITS, PUSH_CODE, FLUSH and ENCODE_SRC
(spec/42_bitpacker.md). -/

namespace Sys2Proof.Machine

open Sys2Proof

/-! ### Pushing bits -/

theorem exec_pushBits {s : State} (n : BitVec 4) (d : Byte) (h0 : s.blk.errCode = 0#4) :
    exec (.pushBits n d) s = .next (retire (pushAll (operandBits n d) s)) :=
  exec_runs nofun nofun h0 rfl rfl

/-- Settles O26: the operand's bits go through the packer in order (`pushAll_packed`). -/
theorem pushBitsKeepsBitOrder : Obligations.PushBitsKeepsBitOrder := by
  intro n d s h0
  obtain ⟨out, hbits, hframe⟩ := pushAll_packed (operandBits n d) s
  exact ⟨_, out, exec_pushBits n d h0, hbits, congrArg retire hframe⟩

/-! ### Pushing a symbol's code -/

theorem exec_pushCode {s : State} (c : Byte) (h0 : s.blk.errCode = 0#4) (hp : s.blk.phase = .ready) :
    exec (.pushCode c) s = conclude (pushSymbol c s) :=
  exec_runs nofun nofun h0 (by rw [hp]; rfl) rfl

theorem pushSymbol_first {c : Byte} {s : State} {i : Fin 256} (h : firstEntry s.blk (fun e => e.sym = c) i) :
    pushSymbol c s = .done () (pushAll s.blk.ent[i].code s) := by
  rw [pushSymbol, findSym_first h]

theorem pushSymbol_unknown {c : Byte} {s : State} (h : noEntry s.blk (fun e => e.sym = c)) :
    pushSymbol c s = .raised .unknownSymbol s := by
  rw [pushSymbol, findSym_none h]

/-- Settles O27, by the two ends of FindSym's search. -/
theorem pushCodePushesTheFirstEntry : Obligations.PushCodePushesTheFirstEntry := by
  intro c s h0 hp
  rw [exec_pushCode c h0 hp]
  constructor
  · intro i hi
    obtain ⟨out, hbits, hframe⟩ := pushAll_packed s.blk.ent[i].code s
    refine ⟨retire (pushAll s.blk.ent[i].code s), out, ?_, hbits, congrArg retire hframe⟩
    rw [pushSymbol_first hi, conclude_done]
  · intro hno
    rw [pushSymbol_unknown hno, conclude_raised, errorEntry_eq_withError, ErrKind.code]

/-! ### Flushing -/

theorem exec_flush {s : State} (h0 : s.blk.errCode = 0#4) : exec .flush s = .next (retire (flushPacker s)) :=
  exec_runs nofun nofun h0 rfl rfl

theorem flushPacker_held {s : State} (h : s.blk.pkCnt ≠ 0) : flushPacker s = emitPacked s.blk.pkAcc s :=
  if_pos (Fin.pos_iff_ne_zero.2 h)

theorem flushPacker_empty {s : State} (h : s.blk.pkCnt = 0) : flushPacker s = s :=
  if_neg (by rw [h]; exact Nat.lt_irrefl 0)

/-- Settles O28, by the two cases of R202. -/
theorem flushWritesThePartialByte : Obligations.FlushWritesThePartialByte := by
  intro s h0
  rw [exec_flush h0]
  constructor
  · intro hheld
    rw [flushPacker_held hheld]
    rfl
  · intro hempty
    rw [flushPacker_empty hempty, retire_eq_withIdle]

theorem flushPacker_pkCnt (s : State) : (flushPacker s).blk.pkCnt = 0 := by
  by_cases h : s.blk.pkCnt = 0
  · rw [flushPacker_empty h, h]
  · rw [flushPacker_held h]
    rfl

theorem heldBits_empty {b : Block} (h : b.pkCnt = 0) : heldBits b = [] :=
  List.eq_nil_of_length_eq_zero (by rw [heldBits_length, h]; rfl)

/-- The partial byte is the held bits and 0 bits below them (R47). -/
theorem bitsOfByte_pkAcc {b : Block} (h : PackerInv b) :
    bitsOfByte b.pkAcc = heldBits b ++ List.replicate (8 - b.pkCnt.val) false := by
  have hsplit : List.range 8 = List.range b.pkCnt.val ++ (List.range (8 - b.pkCnt.val)).map (b.pkCnt.val + ·) := by
    rw [← List.range_add, Nat.add_sub_cancel' b.pkCnt.isLt.le]
  have hlow : ((List.range (8 - b.pkCnt.val)).map fun k => b.pkAcc.getLsbD (7 - (b.pkCnt.val + k)))
      = List.replicate (8 - b.pkCnt.val) false := by
    refine List.eq_replicate_iff.2 ⟨by simp, fun x hx => ?_⟩
    obtain ⟨k, hk, rfl⟩ := List.mem_map.1 hx
    have hk := List.mem_range.1 hk
    exact h _ (by omega)
  rw [bitsOfByte, hsplit, List.map_append, List.map_map]
  exact congrArg (heldBits b ++ ·) hlow

/-- Flush pushes fewer than eight 0 bits, as many as fill the partial byte (R202). -/
theorem flushPacker_packed {s : State} (h : PackerInv s.blk) :
    ∃ pad < 8, Packed s (flushPacker s) (List.replicate pad false) := by
  by_cases hcnt : s.blk.pkCnt = 0
  · exact ⟨0, by omega, by rw [flushPacker_empty hcnt]; exact Packed.refl s⟩
  · have hpos : 0 < s.blk.pkCnt := Fin.pos_iff_ne_zero.2 hcnt
    refine ⟨8 - s.blk.pkCnt.val, by omega, [s.blk.pkAcc], ?_, ?_⟩
    · rw [heldBits_empty (flushPacker_pkCnt s), List.append_nil, List.flatMap_singleton, bitsOfByte_pkAcc h]
    · rw [flushPacker_held hcnt]
      rfl

/-! ### Encoding the source -/

theorem exec_encodeSrc {s : State} (h0 : s.blk.errCode = 0#4) (hp : s.blk.phase = .ready) :
    exec .encodeSrc s = conclude (encodeSource s) :=
  exec_encodeSrc_runs (by rw [passesChecks, h0, hp]; rfl)

/-- Settles O29: the loop pushes the codes (`encodeLoop_done`), and Flush then pushes the 0 bits that fill the last byte
(`flushPacker_packed`). -/
theorem encodeSrcPacksEveryCode : Obligations.EncodeSrcPacksEveryCode := by
  intro s codes h0 hp hport hpk hcodes
  obtain ⟨u, hloop, hcoded⟩ := encodeLoop_done (restOfSource s) (srcLeft s) s codes rfl (srcLeft_eq s).ge hcodes
  have hu : PackerInv u.blk := by
    have hkept := packerInv_encodeLoop (srcLeft s) s hpk
    rwa [hloop] at hkept
  obtain ⟨pad, hpad, hflushed⟩ := flushPacker_packed hu
  have hempty := flushPacker_pkCnt u
  obtain ⟨out, hbits, hframe⟩ := hcoded.trans hflushed
  rw [hport.srcPos_add_length] at hframe
  refine ⟨retire (flushPacker u), out, pad, ?_, ?_, hpad, hempty, congrArg retire hframe⟩
  · rw [exec_encodeSrc h0 hp, encodeSource, hloop, Run.bind_done, conclude_done]
  · rw [heldBits_empty hempty, List.append_nil] at hbits
    rw [hbits, List.append_assoc]

/-- Settles O30: the loop pushes the codes before the byte and raises there (`encodeLoop_unknown`), so Flush does not
run. -/
theorem encodeSrcStopsAtUnknownSymbol : Obligations.EncodeSrcStopsAtUnknownSymbol := by
  intro s before rest c codes h0 hp hsrc hcodes hno
  have hleft : before.length < srcLeft s := by
    rw [srcLeft_eq, hsrc, List.length_append, List.length_cons]
    omega
  obtain ⟨u, hloop, out, hbits, hframe⟩ := encodeLoop_unknown before (srcLeft s) s codes c rest hsrc hleft hcodes hno
  have hexec : exec .encodeSrc s = .next (errorEntry .unknownSymbol u) := by
    rw [exec_encodeSrc h0 hp, encodeSource, hloop, Run.bind_raised, conclude_raised]
  exact ⟨_, out, hexec, hbits, congrArg (errorEntry .unknownSymbol) hframe⟩

end Sys2Proof.Machine
end

section
/-! PROOFS. The statements about the decoder: DECODE_STEP, DECODE_FINISH and DECODE_RUN (spec/43_decoder.md). -/

namespace Sys2Proof.Machine

open Sys2Proof

/-! ### What the candidate comes to -/

theorem resolveCand_match {t : State} {i : Fin 256} (h : firstEntry t.blk (fun e => e.code = t.blk.cand) i) :
    resolveCand t = .done () (emitSymbol t.blk.ent[i].sym t) := by
  rw [resolveCand, matchCand_first h]

theorem resolveCand_open {t : State} (hno : noEntry t.blk (fun e => e.code = t.blk.cand)) (hlen : t.blk.candLen ≤ 255)
    (howed : t.blk.candLen ≠ t.blk.remaining.toNat) : resolveCand t = .done () t := by
  rw [resolveCand, matchCand_none hno]
  exact (if_neg (Nat.not_lt.2 hlen)).trans (if_neg howed)

theorem resolveCand_overlong {t : State} (hno : noEntry t.blk (fun e => e.code = t.blk.cand)) (hlen : 255 < t.blk.candLen) :
    resolveCand t = .raised .corruptPayload t := by
  rw [resolveCand, matchCand_none hno]
  exact if_pos hlen

theorem resolveCand_atTotal {t : State} (hno : noEntry t.blk (fun e => e.code = t.blk.cand)) (hlen : ¬ 255 < t.blk.candLen)
    (howed : t.blk.candLen = t.blk.remaining.toNat) : resolveCand t = .raised .trailingOrMissingData t := by
  rw [resolveCand, matchCand_none hno]
  exact (if_neg hlen).trans (if_pos howed)

/-! ### One decode step -/

theorem decodeStepBody_noBit {s : State} (h : unreadBits s = []) : decodeStepBody s = .raised .trailingOrMissingData s := by
  rw [decodeStepBody, (unpackBit_none h).1, Run.bind_raised]

/-- With a bit to read, the step takes it and resolves the candidate it makes (R231, R235). -/
theorem decodeStepBody_bit {s : State} {b : Bool} {bs : Bits} (h : unreadBits s = b :: bs) :
    ∃ u, decodeStepBody s = resolveCand (growCand b u) ∧ BitTaken s u b ∧ unreadBits u = bs ∧ UnpackFrame s u := by
  obtain ⟨u, hread, htaken, hrest, hframe⟩ := unpackBit_some h
  exact ⟨u, by rw [decodeStepBody, hread, Run.bind_done], htaken, hrest, hframe⟩

/-- Settles O31, by the two ends of the candidate's resolution that raise nothing. -/
theorem decodeStepReadsOneBit : Obligations.DecodeStepReadsOneBit := by
  intro s b bs h0 hp hr hbits c
  obtain ⟨u, hbody, htaken, hrest, hframe⟩ := decodeStepBody_bit hbits
  obtain ⟨p, x, n, q, rfl⟩ := hframe.exists
  rw [exec_decodeStep h0 hp hr, hbody]
  constructor
  · intro i hi
    refine ⟨_, congrArg conclude (resolveCand_match ?_), htaken, hrest, rfl⟩
    exact hi
  · intro hno hlen howed
    refine ⟨_, congrArg conclude (resolveCand_open ?_ ?_ ?_), htaken, hrest, rfl⟩
    · exact hno
    · exact hlen
    · exact howed

/-- Settles O32: exhaustion before the bit is taken, then the two raises of the candidate's resolution. -/
theorem decodeStepRaisesInOrder : Obligations.DecodeStepRaisesInOrder := by
  intro s h0 hp hr
  rw [exec_decodeStep h0 hp hr]
  constructor
  · intro hnone
    rw [decodeStepBody_noBit hnone, conclude_raised, errorEntry_eq_withError, ErrKind.code]
  · intro b bs hbits c hno hlong
    obtain ⟨u, hbody, htaken, hrest, hframe⟩ := decodeStepBody_bit hbits
    obtain ⟨p, x, n, q, rfl⟩ := hframe.exists
    rw [hbody]
    by_cases hlen : 255 < c.length
    · rw [if_pos hlen]
      refine ⟨_, congrArg conclude (resolveCand_overlong ?_ ?_), htaken, hrest, rfl⟩
      · exact hno
      · exact hlen
    · rw [if_neg hlen]
      refine ⟨_, congrArg conclude (resolveCand_atTotal ?_ ?_ ?_), htaken, hrest, rfl⟩
      · exact hno
      · exact hlen
      · exact hlong.resolve_left hlen

/-- Settles O33, by R240's first case. -/
theorem decodeStepIsIdleWhenNothingIsOwed : Obligations.DecodeStepIsIdleWhenNothingIsOwed := by
  intro s h0 hp hr
  have hruns : exec .decodeStep s = conclude (decodeStep s) := exec_runs nofun nofun h0 (by rw [hp]; rfl) rfl
  rw [hruns, decodeStep, if_pos hr, conclude_done, retire_eq_withIdle]

/-! ### The final check -/

theorem decodeFinishBody_passes {s : State} (hcand : s.blk.cand = []) (hend : s.srcPos = s.src.length) :
    decodeFinishBody s = .done () (setPhase .done s) := by
  simp [decodeFinishBody, Block.candLen, srcAtEnd, hcand, hend]

theorem decodeFinishBody_fails {s : State} (h : s.blk.cand ≠ [] ∨ s.srcPos ≠ s.src.length) :
    decodeFinishBody s = .raised .trailingOrMissingData s := by
  by_cases hcand : s.blk.cand = []
  · have hend := h.resolve_left (not_not_intro hcand)
    simp [decodeFinishBody, Block.candLen, srcAtEnd, hcand, hend]
  · simp [decodeFinishBody, Block.candLen, hcand]

theorem exec_decodeFinish {s : State} (h0 : s.blk.errCode = 0#4) (hp : s.blk.phase = .ready) (hr : s.blk.remaining = 0#32) :
    exec .decodeFinish s = conclude (decodeFinishBody s) :=
  exec_runs nofun nofun h0 (by rw [hp]; rfl) (by rw [extraLegal, hr]; rfl)

/-- Settles O34, by the two ends of the final check. -/
theorem decodeFinishChecksTheEnd : Obligations.DecodeFinishChecksTheEnd := by
  intro s h0 hp hr
  rw [exec_decodeFinish h0 hp hr]
  constructor
  · intro hcand hend
    rw [decodeFinishBody_passes hcand hend]
    rfl
  · intro hfail
    rw [decodeFinishBody_fails hfail, conclude_raised, errorEntry_eq_withError, ErrKind.code]

/-! ### DECODE_RUN as a repetition -/

theorem decodeAll_of_done {s t : State} (hr : s.blk.remaining ≠ 0#32) (h : decodeStepBody s = .done () t) :
    decodeAll s = decodeAll t := by
  rw [decodeAll_eq, if_neg hr, h, Run.bind_done]

theorem decodeAll_of_raised {s t : State} {e : ErrKind} (hr : s.blk.remaining ≠ 0#32) (h : decodeStepBody s = .raised e t) :
    decodeAll s = .raised e t := by
  rw [decodeAll_eq, if_neg hr, h, Run.bind_raised]

/-- DECODE_RUN and DECODE_FINISH pass the same checks and have the same rule when nothing is owed (R108, R246). -/
theorem exec_decodeRun_eq_decodeFinish {s : State} (hr : s.blk.remaining = 0#32) :
    exec .decodeRun s = exec .decodeFinish s := by
  have hextra : extraLegal .decodeFinish s.blk = extraLegal .decodeRun s.blk := by rw [extraLegal, hr]; rfl
  have hphase : phaseLegal .decodeFinish s.blk.phase = phaseLegal .decodeRun s.blk.phase := rfl
  show runCommand .decodeRun decodeAll s = runCommand .decodeFinish decodeFinishBody s
  rw [runCommand, runCommand, hextra, hphase, decodeFinishBody_eq_decodeAll hr]

/-- Settles O36: DecodeRun() is its own recursion (`decodeAll_eq`), and it does not read the BUSY that the step cleared
(`conclude_decodeAll_retire`). -/
theorem decodeRunContinuesFromSteps : Obligations.DecodeRunContinuesFromSteps := by
  refine ⟨fun s t h0 hp hr hexec => ?_, fun s => exec_decodeRun_eq_decodeFinish⟩
  rw [exec_decodeStep h0 hp hr] at hexec
  rw [exec_decodeRun h0 hp]
  rcases conclude_cases hexec with ⟨u, hbody, rfl⟩ | ⟨e, u, hbody, rfl⟩
  · obtain ⟨_, hcode, hphase, _⟩ := decodeStepBody_done hbody
    have h0u : (retire u).blk.errCode = 0#4 := hcode.trans h0
    refine ⟨fun _ => ?_, fun herr => absurd h0u herr⟩
    rw [exec_decodeRun h0u (hphase.trans hp), conclude_decodeAll_retire, decodeAll_of_done hr hbody]
  · refine ⟨fun h => absurd h (errCode_errorEntry e u), fun _ => ?_⟩
    rw [decodeAll_of_raised hr hbody, conclude_raised]

/-! ### The states of the decode state machine -/

/-- The conditions of R247's table. -/
def DecodeCondition (b : Block) : DecodeState → Prop
  | .failed => b.errCode ≠ 0#4
  | .done => b.errCode = 0#4 ∧ b.phase = .done
  | .drained => b.errCode = 0#4 ∧ b.phase = .ready ∧ b.remaining = 0#32
  | .owing => b.errCode = 0#4 ∧ b.phase = .ready ∧ b.remaining ≠ 0#32

theorem decodeState_eq_some {b : Block} {d : DecodeState} : decodeState b = some d ↔ DecodeCondition b d := by
  by_cases h0 : b.errCode = 0#4
  · cases hp : b.phase with
    | ready => by_cases hr : b.remaining = 0#32 <;> cases d <;> simp [decodeState, DecodeCondition, h0, hp, hr]
    | _ => cases d <;> simp [decodeState, DecodeCondition, h0, hp]
  · cases d <;> simp [decodeState, DecodeCondition, h0]

/-- The decode commands stand under the order of checks, and none is legal in DONE (R108, R109). -/
theorem decodeCommands_checked : ∀ i ∈ [Instr.decodeStep, .decodeFinish, .decodeRun],
    i ≠ .nop ∧ i ≠ .softReset ∧ phaseLegal i .done = false := by decide

theorem exec_decode_refused {i : Instr} {s : State} (hi : i ∈ [Instr.decodeStep, .decodeFinish, .decodeRun])
    (h : s.blk.errCode ≠ 0#4) : exec i s = .next (withIdle s) := by
  obtain ⟨hn, hreset, _⟩ := decodeCommands_checked i hi
  rw [exec_eq_runCommand hn hreset, runCommand_refused h, retire_eq_withIdle]

theorem exec_decode_afterDone {i : Instr} {s : State} (hi : i ∈ [Instr.decodeStep, .decodeFinish, .decodeRun])
    (h0 : s.blk.errCode = 0#4) (hp : s.blk.phase = .done) : exec i s = .next (withError 6#4 s) := by
  obtain ⟨hn, hreset, hphase⟩ := decodeCommands_checked i hi
  rw [exec_eq_runCommand hn hreset, runCommand_outOfOrder h0 (.inl (hp ▸ hphase)), errorEntry_eq_withError, ErrKind.code]

/-- A decode step in state OWING stays there, or leaves nothing owed, or raises. -/
theorem exec_decodeStep_owing {s : State} (h0 : s.blk.errCode = 0#4) (hp : s.blk.phase = .ready)
    (hr : s.blk.remaining ≠ 0#32) : ∃ t, exec .decodeStep s = .next t
      ∧ (decodeState t.blk = some .owing ∨ decodeState t.blk = some .drained ∨ decodeState t.blk = some .failed) := by
  rw [exec_decodeStep h0 hp hr]
  cases hbody : decodeStepBody s with
  | raised e u => exact ⟨_, conclude_raised e u, .inr (.inr (decodeState_failed (errCode_errorEntry e u)))⟩
  | done a u =>
    obtain ⟨_, hcode, hphase, _⟩ := decodeStepBody_done hbody
    refine ⟨_, conclude_done u, ?_⟩
    by_cases hru : u.blk.remaining = 0#32
    · exact .inr (.inl (decodeState_eq_some.2 ⟨hcode.trans h0, hphase.trans hp, hru⟩))
    · exact .inl (decodeState_eq_some.2 ⟨hcode.trans h0, hphase.trans hp, hru⟩)

/-- DECODE_RUN in READY ends the decode: in DONE, or with an error (`decodeAll_rel`). -/
theorem exec_decodeRun_ends {s : State} (h0 : s.blk.errCode = 0#4) (hp : s.blk.phase = .ready) :
    ∃ t, exec .decodeRun s = .next t ∧ (decodeState t.blk = some .done ∨ decodeState t.blk = some .failed) := by
  rw [exec_decodeRun h0 hp]
  rcases decodeAll_rel _ s rfl with ⟨u, hrun, ⟨hframe, _⟩, _⟩ | ⟨e, u, hrun, _⟩
  · rw [hrun]
    have hcode : u.blk.errCode = s.blk.errCode := by rw [hframe]
    exact ⟨_, conclude_done _, .inl (decodeState_eq_some.2 ⟨hcode.trans h0, rfl⟩)⟩
  · rw [hrun]
    exact ⟨_, conclude_raised e u, .inr (decodeState_failed (errCode_errorEntry e u))⟩

/-- Settles O38, row by row. -/
theorem decodeStateMachineTable : Obligations.DecodeStateMachineTable := by
  refine fun s => ⟨fun h i hi => ?_, fun h i hi => ?_, fun h => ?_, fun h => ?_⟩
  · exact exec_decode_refused hi (decodeState_eq_some.1 h)
  · obtain ⟨h0, hp⟩ := decodeState_eq_some.1 h
    exact exec_decode_afterDone hi h0 hp
  · obtain ⟨h0, hp, hr⟩ := decodeState_eq_some.1 h
    refine ⟨decodeStepIsIdleWhenNothingIsOwed s h0 hp hr, ?_⟩
    have hends := exec_decodeRun_ends h0 hp
    rw [List.forall_mem_cons, List.forall_mem_singleton]
    exact ⟨exec_decodeRun_eq_decodeFinish hr ▸ hends, hends⟩
  · obtain ⟨h0, hp, hr⟩ := decodeState_eq_some.1 h
    refine ⟨?_, exec_decodeStep_owing h0 hp hr, exec_decodeRun_ends h0 hp⟩
    have hextra : extraLegal .decodeFinish s.blk = false := beq_false_of_ne hr
    exact runCommand_outOfOrder h0 (.inr hextra)

/-! ### How DECODE_RUN ends -/

/-- DecodeRun() by the recursion it is: a claim holds of every state if it holds when nothing is owed, when the next step
raises, and when it holds after the next step (R245). -/
theorem decodeAll_induct {P : State → Prop} (drained : ∀ s, s.blk.remaining = 0#32 → P s)
    (raises : ∀ s e u, s.blk.remaining ≠ 0#32 → decodeStepBody s = .raised e u → P s)
    (steps : ∀ s t, s.blk.remaining ≠ 0#32 → decodeStepBody s = .done () t → P t → P s) (s : State) : P s := by
  induction hn : bitsLeft s using Nat.strong_induction_on generalizing s with
  | _ n ih =>
    by_cases hr : s.blk.remaining = 0#32
    · exact drained s hr
    cases hbody : decodeStepBody s with
    | raised e u => exact raises s e u hr hbody
    | done a t =>
      obtain ⟨hbits, _⟩ := decodeStepBody_done hbody
      exact steps s t hr hbody (ih (bitsLeft t) (by omega) t rfl)

/-- On the way from `s` to `t` the decoder has only emitted symbols of the table, each counted (R232, R235). -/
def Decoded (s t : State) : Prop :=
  DecodeFrame s t ∧ ∃ out, t.snk = s.snk ++ out ∧ t.blk.outCount = s.blk.outCount + BitVec.ofNat 32 out.length
    ∧ ∀ x ∈ out, ∃ i : Fin 256, i.val < s.blk.entN.val ∧ s.blk.ent[i].sym = x

theorem Decoded.refl (s : State) : Decoded s s := ⟨rfl, [], by simp, by simp, by simp⟩

theorem Decoded.trans {s t u : State} (h : Decoded s t) (h' : Decoded t u) : Decoded s u := by
  obtain ⟨hframe, out, hsnk, hcount, hsyms⟩ := h
  obtain ⟨hframe', out', hsnk', hcount', hsyms'⟩ := h'
  have hn : t.blk.entN = s.blk.entN := by rw [hframe]
  have he : t.blk.ent = s.blk.ent := by rw [hframe]
  refine ⟨hframe.trans hframe', out ++ out', ?_, ?_, fun x hx => ?_⟩
  · rw [hsnk', hsnk, List.append_assoc]
  · rw [hcount', hcount, List.length_append, BitVec.ofNat_add, BitVec.add_assoc]
  · rcases List.mem_append.1 hx with hx | hx
    · exact hsyms x hx
    · obtain ⟨i, hi, hsym⟩ := hsyms' x hx
      exact ⟨i, hn ▸ hi, by rw [← hsym]; simp only [he]⟩

/-- Taking a bit into the candidate emits nothing. -/
theorem UnpackFrame.decoded {s t : State} (b : Bool) (h : UnpackFrame s t) : Decoded s (growCand b t) := by
  obtain ⟨p, x, n, q, rfl⟩ := h.exists
  exact ⟨rfl, [], by simp, by simp, by simp⟩

/-- What tells the causes of TrailingOrMissingData apart (R304). -/
def EndsUnfinished (u : State) : Prop :=
  (u.blk.remaining = 0#32 ∧ u.srcPos < u.src.length)
  ∨ (u.blk.remaining ≠ 0#32 ∧ u.blk.candLen = u.blk.remaining.toNat)
  ∨ (u.blk.unpkCnt = 0 ∧ u.blk.candLen < u.blk.remaining.toNat ∧ u.srcPos = u.src.length)

/-- How a run of DecodeRun() from a decode in progress ends, at the state `u` its steps have reached. -/
def EndsAt (r : Run Unit) (u : State) : Prop :=
  (r = .done () (setPhase .done u) ∧ u.blk.remaining = 0#32 ∧ u.blk.cand = [] ∧ u.srcPos = u.src.length)
  ∨ (r = .raised .corruptPayload u ∧ u.blk.candLen = 256)
  ∨ (r = .raised .trailingOrMissingData u ∧ EndsUnfinished u)

theorem Going.cand_lt {s : State} (h : Going s) (hr : s.blk.remaining ≠ 0#32) : s.blk.cand.length < s.blk.remaining.toNat :=
  h.owed.resolve_right fun hz => hr hz.1

theorem Going.cand_nil {s : State} (h : Going s) (hr : s.blk.remaining = 0#32) : s.blk.cand = [] := by
  rcases h.owed with hlt | ⟨_, hnil⟩
  · rw [hr] at hlt; exact absurd hlt (Nat.not_lt_zero _)
  · exact hnil

theorem PortInv.srcPos_eq_of_rest_nil {s : State} (h : PortInv s) (hrest : restOfSource s = []) : s.srcPos = s.src.length := by
  simpa [hrest] using h.srcPos_add_length

/-- The final check of a decode in progress finds the candidate empty, so only the source can fail it (R241). -/
theorem decodeFinishBody_endsAt {s : State} (hg : Going s) (hport : PortInv s) (hr : s.blk.remaining = 0#32) :
    EndsAt (decodeFinishBody s) s := by
  by_cases hend : s.srcPos = s.src.length
  · exact .inl ⟨decodeFinishBody_passes (hg.cand_nil hr) hend, hr, hg.cand_nil hr, hend⟩
  · exact .inr (.inr ⟨decodeFinishBody_fails (.inr hend), .inl ⟨hr, lt_of_le_of_ne hport hend⟩⟩)

/-- A step of a decode in progress that raises leaves the registers as R304 tells its cause. -/
theorem decodeStepBody_endsAt {s u : State} {e : ErrKind} (hg : Going s) (hport : PortInv s) (hr : s.blk.remaining ≠ 0#32)
    (h : decodeStepBody s = .raised e u) : Decoded s u ∧ EndsAt (.raised e u) u := by
  have hshort := hg.short
  rcases decodeStepBody_cases s with ⟨hnone, hbody⟩ | ⟨b, bs, t, _, _, hframe, _, _, hbody⟩
  · cases h.symm.trans hbody
    obtain ⟨_, hcnt, hrest⟩ := unpackBit_none hnone
    exact ⟨Decoded.refl s, .inr (.inr ⟨rfl, .inr (.inr ⟨hcnt, hg.cand_lt hr, hport.srcPos_eq_of_rest_nil hrest⟩)⟩)⟩
  · have hcand : (growCand b t).blk.candLen = s.blk.cand.length + 1 := by
      rw [hframe]; exact List.length_append
    have hrem : (growCand b t).blk.remaining = s.blk.remaining := by rw [hframe]; rfl
    rcases hbody with ⟨_, _, hbody⟩ | ⟨_, hlong, hbody⟩ | ⟨_, _, htotal, hbody⟩ | ⟨_, _, _, hbody⟩
    all_goals cases h.symm.trans hbody
    · exact ⟨hframe.decoded b, .inr (.inl ⟨rfl, by omega⟩)⟩
    · exact ⟨hframe.decoded b, .inr (.inr ⟨rfl, .inr (.inl ⟨hrem ▸ hr, by rw [hcand, hrem, htotal]⟩)⟩)⟩

/-- DecodeRun() from a decode in progress, by its recursion. -/
theorem decodeAll_endsAt (s : State) : Going s → PortInv s → ∃ u, Decoded s u ∧ EndsAt (decodeAll s) u := by
  induction s using decodeAll_induct with
  | drained s hr =>
    intro hg hport
    rw [← decodeFinishBody_eq_decodeAll hr]
    exact ⟨s, Decoded.refl s, decodeFinishBody_endsAt hg hport hr⟩
  | raises s e u hr hbody =>
    intro hg hport
    rw [decodeAll_of_raised hr hbody]
    exact ⟨u, decodeStepBody_endsAt hg hport hr hbody⟩
  | steps s t hr hbody ih =>
    intro hg hport
    obtain ⟨hgt, hframe, ⟨_, _, hkeeps⟩, out, hsnk, hcount, hsyms, _⟩ := decodeStepBody_going hg hr hbody
    obtain ⟨u, hdec, hend⟩ := ih hgt (hkeeps hport)
    rw [decodeAll_of_done hr hbody]
    exact ⟨u, Decoded.trans ⟨hframe, out, hsnk, hcount, hsyms⟩ hdec, hend⟩

/-- Settles O37: what a decode in progress leaves at its end (`decodeAll_endsAt`), behind the error entry or BUSY. -/
theorem decodeRunEndsInOneOfThreeWays : Obligations.DecodeRunEndsInOneOfThreeWays := by
  intro s h0 hp hport hinv
  obtain ⟨u, ⟨hframe, out, hsnk, hcount, hsyms⟩, hend⟩ := decodeAll_endsAt s (going_of_decoderInv h0 hp hinv) hport
  have hcode : u.blk.errCode = 0#4 := by rw [hframe]; exact h0
  have hphase : u.blk.phase = .ready := by rw [hframe]; exact hp
  rw [exec_decodeRun h0 hp]
  rcases hend with ⟨hrun, hdone⟩ | ⟨hrun, hfull⟩ | ⟨hrun, hcause⟩
  · rw [hrun, conclude_done]
    exact ⟨_, out, rfl, hsnk, hcount, hsyms, .inl ⟨hcode, rfl, hdone⟩⟩
  · rw [hrun, conclude_raised]
    exact ⟨_, out, rfl, hsnk, hcount, hsyms, .inr (.inl ⟨rfl, hphase, hfull⟩)⟩
  · rw [hrun, conclude_raised]
    exact ⟨_, out, rfl, hsnk, hcount, hsyms, .inr (.inr ⟨rfl, hphase, hcause⟩)⟩

/-! ### DECODE_RUN over a payload -/

/-- A table of nonempty codes, none too long and none a start of another's (R148). -/
structure CodeTable (b : Block) : Prop where
  prefixFree : PrefixFree b
  length : ∀ i : Fin 256, i.val < b.entN.val → 1 ≤ b.ent[i].len ∧ b.ent[i].len ≤ 255

/-- The decoder stands before the codes of the table's entries `ms`, all owed, and then `pad` (R232). -/
structure Payload (s : State) (ms : List (Fin 256)) (pad : Bits) : Prop where
  cand : s.blk.cand = []
  valid : ∀ i ∈ ms, i.val < s.blk.entN.val
  bits : unreadBits s = (ms.flatMap fun i => s.blk.ent[i].code) ++ pad
  owed : s.blk.remaining.toNat = (ms.map fun i => s.blk.ent[i].len).sum

theorem Payload.drained {s : State} {pad : Bits} (h : Payload s [] pad) : Drained s s [] := by
  have hz : s.blk.remaining = 0#32 := BitVec.eq_of_toNat_eq h.owed
  have hcount : s.blk.outCount + BitVec.ofNat 32 ([] : List Byte).length = s.blk.outCount := BitVec.add_zero _
  rw [Drained, hcount, List.append_nil, ← hz, ← h.cand]

/-- Past the first code the decoder stands before the rest of the payload. -/
theorem Payload.tail {s t : State} {m : Fin 256} {ms : List (Fin 256)} {pad : Bits} (h : Payload s (m :: ms) pad)
    (hframe : Emitted s t s.blk.ent[m]) (hbits : unreadBits t = (ms.flatMap fun i => s.blk.ent[i].code) ++ pad) :
    Payload t ms pad := by
  have howed := h.owed
  rw [List.map_cons, List.sum_cons] at howed
  have hlt := s.blk.remaining.isLt
  have hrem : (s.blk.remaining - BitVec.ofNat 32 s.blk.ent[m].len).toNat = (ms.map fun i => s.blk.ent[i].len).sum := by
    have hlen : (BitVec.ofNat 32 s.blk.ent[m].len).toNat = s.blk.ent[m].len := Nat.mod_eq_of_lt (by omega)
    rw [BitVec.toNat_sub_of_le (BitVec.le_def.2 (by omega)), hlen]
    omega
  obtain ⟨p, x, n, q, rfl⟩ := hframe.exists
  exact ⟨rfl, fun i hi => h.valid i (List.mem_cons_of_mem m hi), hbits, hrem⟩

theorem Emitted.drained {s t u : State} {e : Entry} {out : List Byte} (h : Emitted s t e) (h' : Drained t u out) :
    Drained s u (e.sym :: out) := by
  obtain ⟨p, x, n, q, rfl⟩ := h.exists
  obtain ⟨p', x', n', q', rfl⟩ := h'.exists
  have hcount : s.blk.outCount + BitVec.ofNat 32 (e.sym :: out).length
      = s.blk.outCount + 1#32 + BitVec.ofNat 32 out.length := by
    rw [List.length_cons, BitVec.add_assoc, Nat.add_comm, BitVec.ofNat_add]
  rw [Drained, hcount, List.append_cons s.snk e.sym out]

theorem Emitted.codeTable {s t : State} {e : Entry} (h : Emitted s t e) (htab : CodeTable s.blk) : CodeTable t.blk := by
  obtain ⟨p, x, n, q, rfl⟩ := h.exists
  exact ⟨htab.prefixFree, htab.length⟩

/-- DecodeRun() over a payload emits its symbols, code by code (`decodeAll_code`). -/
theorem decodeAll_payload (ms : List (Fin 256)) (pad : Bits) : ∀ s : State, CodeTable s.blk → Payload s ms pad →
    ∃ t, decodeAll s = decodeAll t ∧ unreadBits t = pad ∧ ReadOn s t ∧ Drained s t (ms.map fun i => s.blk.ent[i].sym) := by
  induction ms with
  | nil => exact fun s _ hpay => ⟨s, rfl, hpay.bits, ReadOn.refl s, hpay.drained⟩
  | cons m ms ih =>
    intro s htab hpay
    have hm := hpay.valid m List.mem_cons_self
    obtain ⟨hpos, hshort⟩ := htab.length m hm
    have hlen : s.blk.ent[m].len ≤ s.blk.remaining.toNat := by
      rw [hpay.owed, List.map_cons, List.sum_cons]; exact Nat.le_add_right _ _
    have hbits : unreadBits s = s.blk.ent[m].code ++ ((ms.flatMap fun i => s.blk.ent[i].code) ++ pad) := by
      rw [hpay.bits, List.flatMap_cons, List.append_assoc]
    obtain ⟨t, hrun, hrest, hread, hemit⟩ := decodeAll_code s.blk.ent[m].code s [] _ hpay.cand htab.prefixFree hm rfl
      (List.ne_nil_of_length_pos hpos) hshort hlen hbits
    obtain ⟨u, hrun', hrest', hread', hdrained⟩ := ih t (hemit.codeTable htab) (hpay.tail hemit hrest)
    have hent : t.blk.ent = s.blk.ent := by rw [hemit]
    rw [hent] at hdrained
    exact ⟨u, hrun.trans hrun', hrest', hread.trans hread', hemit.drained hdrained⟩

/-- Fewer than eight unread bits all stand in the unpacker (R230). -/
theorem restOfSource_nil_of_bits {s : State} (h : (unreadBits s).length < 8) : restOfSource s = [] := by
  rw [← bitsLeft_eq, bitsLeft, srcLeft_eq] at h
  exact List.eq_nil_of_length_eq_zero (by omega)

/-- Settles O35: the codes are decoded one by one (`decodeAll_payload`), and what is left of the last byte hides no byte of
the source from the final check. -/
theorem decodeRunDecodesThePayload : Obligations.DecodeRunDecodesThePayload := by
  intro s ms pad h0 hp hcand hport hpf hlens hms hbits hpad howed
  obtain ⟨t, hrun, hrest, ⟨_, hcount, hkeeps⟩, hdrained⟩ :=
    decodeAll_payload ms pad s ⟨hpf, hlens⟩ ⟨hcand, hms, hbits, howed⟩
  have hend := (hkeeps hport).srcPos_eq_of_rest_nil (restOfSource_nil_of_bits (hrest ▸ hpad))
  have hr : t.blk.remaining = 0#32 := by rw [hdrained]
  have htcand : t.blk.cand = [] := by rw [hdrained]
  have hsrc : t.src = s.src := by rw [hdrained]
  refine ⟨retire (setPhase .done t), ?_, hrest, ?_⟩
  · rw [exec_decodeRun h0 hp, hrun, ← decodeFinishBody_eq_decodeAll hr, decodeFinishBody_passes htcand hend, conclude_done]
  · rw [hsrc] at hend
    rw [hend] at hcount
    obtain ⟨p, x, n, q, rfl⟩ := hdrained.exists
    subst hend hcount
    rw [← hcand, List.length_map]
    rfl

end Sys2Proof.Machine
end

section
/-! PROOFS. The statements about NOP and about the host's register writes (spec/44_control.md). -/

namespace Sys2Proof.Machine

open Sys2Proof

/-! ### Register writes -/

/-- The two checks of R87 as one. -/
theorem accessOk_iff (n : Nat) (a : Byte) : accessOk n a = true ↔ n = 32 ∧ a.toNat % 4 = 0 := by
  rw [accessOk, Bool.and_eq_true, beq_iff_eq, beq_iff_eq, lowBits_eq_zero_iff]

theorem regWrite_refused {n : Nat} {a : Byte} (h : n ≠ 32 ∨ a.toNat % 4 ≠ 0) (v : Word) (s : State) :
    regWrite n a v s = s := by
  have hbad : accessOk n a = false := by
    rw [← Bool.not_eq_true, accessOk_iff, not_and_or]; exact h
  rw [regWrite, if_pos hbad]

theorem regWrite_cmd (v : Word) (s : State) : regWrite 32 0x00#8 v s = writeCmd v s := rfl

theorem regWrite_sel (v : Word) (s : State) : regWrite 32 0x40#8 v s = s.withBlk (writeSel v s.blk) := rfl

/-- No register but CMD and SEL takes a write, of any width (R69). -/
theorem regWrite_other {a : Byte} (hcmd : a ≠ 0x00#8) (hsel : a ≠ 0x40#8) (n : Nat) (v : Word) (s : State) :
    regWrite n a v s = s := by
  rw [regWrite, if_neg hcmd, if_neg hsel, ite_self]

/-- A command the block can take is latched and nothing of it has happened yet (R31, log 5). -/
theorem writeCmd_idle {s : State} (hb : s.blk.busy = false) (v : Word) : writeCmd v s = latchCommand v s := by
  rw [writeCmd, if_neg (by simp [hb])]

/-- A command written while another is in progress is dropped (R32). -/
theorem writeCmd_busy {s : State} (hb : s.blk.busy = true) (v : Word) :
    writeCmd v s = s.withBlk { s.blk with ovr := true } := by
  rw [writeCmd, if_pos hb]

theorem toNat_writeSel_selIndex (v : Word) (b : Block) : (writeSel v b).selIndex.toNat = v.toNat % 512 := by
  rw [writeSel, BitVec.extractLsb'_toNat, Nat.shiftRight_zero]

theorem toNat_writeSel_selWord (v : Word) (b : Block) : (writeSel v b).selWord.toNat = v.toNat / 2 ^ 16 % 8 := by
  rw [writeSel, BitVec.extractLsb'_toNat, Nat.shiftRight_eq_div_pow]

/-- Settles O39, by the two registers that take a write and the two ways a write is ignored. -/
theorem registerWritesTakeEffectOnlyAtCmdAndSel : Obligations.RegisterWritesTakeEffectOnlyAtCmdAndSel := by
  intro s v
  refine ⟨fun hb => ?_, fun hb => ?_, ⟨_, regWrite_sel v s, ?_, ?_, rfl⟩, fun a hcmd hsel => ?_, fun n a h => ?_⟩
  · exact (regWrite_cmd v s).trans (writeCmd_idle hb v)
  · exact (regWrite_cmd v s).trans (writeCmd_busy hb v)
  · exact toNat_writeSel_selIndex v s.blk
  · exact toNat_writeSel_selWord v s.blk
  · exact regWrite_other hcmd hsel 32 v s
  · exact regWrite_refused h v s

/-! ### NOP -/

/-- No check stands before NOP: it is the end that every command has (R109, R270). -/
theorem exec_nop (s : State) : exec .nop s = .next (retire s) := rfl

/-- Settles O10: a command's end clears BUSY only. -/
theorem nopOnlyClearsBusy : Obligations.NopOnlyClearsBusy := by
  intro s
  rw [exec_nop, retire_eq_withIdle]

end Sys2Proof.Machine
end

section
/-! PROOFS. The statements about errors, about commands out of order, and about which agent a step moves
(spec/60_exceptions.md). -/

namespace Sys2Proof.Machine

open Sys2Proof

/-! ### The block's turn and the host's -/

theorem blockStep_of_decode {s : State} {i : Instr} (h : decode s.blk.pending = .ok i) : blockStep s = exec i s := by
  rw [blockStep, h]

theorem step_blockTurn {s : State} (h : blockTurn s = true) : step s = blockStep s := if_pos h

theorem step_hostTurn {s : State} (h : blockTurn s = false) : step s = hostStep s := by
  rw [step, if_neg (by simp [h])]

theorem blockTurn_idle {s : State} (hb : s.blk.busy = false) : blockTurn s = false := by
  rw [blockTurn, hb, Bool.false_and]

theorem hostStep_move {s : State} {m : HostMove} {ms : List HostMove} (h : s.script = m :: ms) :
    hostStep s = hostMove m (progressed { s with script := ms }) := by
  rw [hostStep, h]

theorem hostStep_waits {s : State} (h : s.script = []) : hostStep s = .next s := by
  rw [hostStep, h]

/-- Settles O6, by the two turns and what each agent does in its own. -/
theorem stepRunsDecodedCommand : Obligations.StepRunsDecodedCommand := by
  refine ⟨fun s hb => ⟨step_blockTurn hb, fun i hd => (step_blockTurn hb).trans (blockStep_of_decode hd)⟩,
    fun s m ms hb hs => (step_hostTurn hb).trans (hostStep_move hs), fun s => ?_,
    fun s hb hs => (step_hostTurn (blockTurn_idle hb)).trans (hostStep_waits hs)⟩
  obtain ⟨p, d, hle, heq, hidle⟩ := progressed_eq s
  exact ⟨hidle, p, d, hle, heq⟩

/-! ### What stops the machine -/

/-- A host move answers, or it moves the source while BUSY = 1 (`sourceMovesOnlyWhileIdle`). -/
theorem hostMove_answers (m : HostMove) (s : State) : (∃ t, hostMove m s = .next t)
    ∨ s.blk.busy = true ∧ (m = .rewindSource ∨ ∃ bs, m = .presentSource bs) := by
  cases hb : s.blk.busy with
  | false =>
    cases m with
    | presentSource bs => exact .inl ⟨_, ((sourceMovesOnlyWhileIdle s bs).1 hb).1⟩
    | rewindSource => exact .inl ⟨_, ((sourceMovesOnlyWhileIdle s []).1 hb).2⟩
    | _ => exact .inl ⟨_, rfl⟩
  | true =>
    cases m with
    | presentSource bs => exact .inr ⟨rfl, .inr ⟨bs, rfl⟩⟩
    | rewindSource => exact .inr ⟨rfl, .inl rfl⟩
    | _ => exact .inl ⟨_, rfl⟩

/-- A step answers, or it is a host's move of the source while BUSY = 1 (R347, log 6). -/
theorem step_answers (s : State) : stepSafe s
    ∨ s.blk.busy = true ∧ ∃ m ms, s.script = m :: ms ∧ (m = .rewindSource ∨ ∃ bs, m = .presentSource bs) := by
  unfold stepSafe
  cases hb : blockTurn s with
  | true => rw [step_blockTurn hb]; exact .inl (blockStep_next s)
  | false =>
    rw [step_hostTurn hb]
    cases hs : s.script with
    | nil => exact .inl ⟨s, hostStep_waits hs⟩
    | cons m ms =>
      obtain ⟨p, d, _, heq, _⟩ := progressed_eq { s with script := ms }
      rw [hostStep_move hs, heq]
      exact (hostMove_answers m _).imp_right fun ⟨hbusy, hm⟩ => ⟨hbusy, m, ms, rfl, hm⟩

/-- Settles O9: commands always answer, and `step_answers` names the one step that does not. -/
theorem everyStepAnswers : Obligations.EveryStepAnswers := by
  refine ⟨exec_next, fun s hkeep => ?_, fun s f hf => ?_⟩
  · rcases step_answers s with hsafe | ⟨hbusy, m, ms, hs, hm⟩
    · exact hsafe
    · obtain ⟨hrewind, hpresent⟩ := hkeep hbusy m ms hs
      rcases hm with hm | ⟨bs, hm⟩
      · exact absurd hm hrewind
      · exact absurd hm (hpresent bs)
  · rcases step_answers s with ⟨t, ht⟩ | hstop
    · rw [hf] at ht; cases ht
    · exact hstop

/-! ### While an error is recorded -/

/-- R312 for the commands: SOFT_RESET alone does more than end. -/
theorem exec_refused {i : Instr} {s : State} (h : s.blk.errCode ≠ 0#4) (hr : i ≠ .softReset) :
    exec i s = .next (withIdle s) := by
  by_cases hn : i = .nop
  · rw [hn, exec_nop, retire_eq_withIdle]
  · rw [exec_eq_runCommand hn hr, runCommand_refused h, retire_eq_withIdle]

/-- R312 for the words: SOFT_RESET's is the only one that does more than end. -/
theorem blockStep_refused {s : State} (h : s.blk.errCode ≠ 0#4) (hw : s.blk.pending ≠ encode .softReset) :
    blockStep s = .next (withIdle s) := by
  cases hd : decode s.blk.pending with
  | ok i =>
    obtain ⟨_, henc⟩ := encodeOfDecode _ _ hd
    have hr : i ≠ .softReset := fun hi => hw (by rw [← henc, hi])
    rw [blockStep_of_decode hd, exec_refused h hr]
  | error r => rw [blockStep, hd, illegalWord, if_pos h, retire_eq_withIdle]

/-- Settles O7: no word but SOFT_RESET's own decodes to SOFT_RESET, and NOP too changes only BUSY. -/
theorem errorsAreStickyForEveryWord : Obligations.ErrorsAreStickyForEveryWord :=
  fun _ _ h _ hreset => blockStep_refused h hreset

/-- Settles O54: the block refuses every command but SOFT_RESET, and a host move that does not reset the block writes its
handshake and selector only. -/
theorem onlyResetClearsAnError : Obligations.OnlyResetClearsAnError := by
  constructor
  · intro s t h herr
    rcases step_cases h with ⟨_, ⟨i, hi⟩ | ⟨h0, _⟩⟩ | ⟨_, hreset | ⟨_, _, _, _, _, hblk⟩, _, _, _, hsnk⟩
    · by_cases hr : i = .softReset
      · subst hr
        obtain rfl := Host.Outcome.next.inj hi
        exact .inr atReset_reset
      · rw [exec_refused herr hr] at hi
        obtain rfl := Host.Outcome.next.inj hi
        exact .inl ⟨rfl, rfl, rfl, rfl, rfl, rfl, rfl, rfl, rfl, rfl, rfl, rfl⟩
    · exact absurd h0 herr
    · exact .inr (hreset ▸ atReset_reset)
    · rcases hsnk with hreset | hsnk
      · exact .inr (hreset ▸ atReset_reset)
      · rw [hblk]
        exact .inl ⟨rfl, rfl, rfl, rfl, rfl, rfl, rfl, rfl, rfl, rfl, rfl, hsnk⟩
  · intro i s t h herr hr
    rw [exec_refused herr hr] at h
    exact (Host.Outcome.next.inj h).symm

/-! ### Commands out of order -/

/-- A command that fails one of its two checks of R108 is neither NOP nor SOFT_RESET, and raises before it does anything. -/
theorem exec_outOfOrder {i : Instr} {s : State} (h0 : s.blk.errCode = 0#4)
    (h : phaseLegal i s.blk.phase = false ∨ extraLegal i s.blk = false) : exec i s = .next (withError 6#4 s) := by
  have hn : i ≠ .nop := by rintro rfl; simp [phaseLegal, extraLegal] at h
  have hr : i ≠ .softReset := by rintro rfl; simp [phaseLegal, extraLegal] at h
  rw [exec_eq_runCommand hn hr, runCommand_outOfOrder h0 h, errorEntry_eq_withError, ErrKind.code]

/-- Settles O8: each command named has one phase in its row of R108, two of them an extra condition. -/
theorem outOfOrderCommandsRaiseSequenceError : Obligations.OutOfOrderCommandsRaiseSequenceError := by
  intro s h0
  have phase {i : Instr} {p : Phase} (hi : phaseLegal i s.blk.phase = (s.blk.phase == p)) (hp : s.blk.phase ≠ p) :
      exec i s = .next (withError 6#4 s) :=
    exec_outOfOrder h0 (.inl (hi.trans (beq_false_of_ne hp)))
  have extra {i : Instr} (hi : extraLegal i s.blk = false) : exec i s = .next (withError 6#4 s) :=
    exec_outOfOrder h0 (.inr hi)
  exact ⟨fun hp => ⟨fun _ => phase rfl hp, phase rfl hp, phase rfl hp, phase rfl hp⟩, phase rfl, phase rfl,
    fun h => h.elim (phase rfl) fun hk => extra (beq_false_of_ne hk),
    fun hp => ⟨fun _ => phase rfl hp, phase rfl hp, phase rfl hp, phase rfl hp⟩,
    fun h => h.elim (phase rfl) fun hr => extra (beq_false_of_ne hr)⟩

end Sys2Proof.Machine
end

section
/-! PROOFS. The statement about the hardware reset (spec/70_reset_and_hazards.md). -/

namespace Sys2Proof.Machine

open Sys2Proof

/-- Settles O43: the reset settles the ports at their present values (`hardReset_ports`), which are the stored ones while the
block is idle and lie between the command's start and its end while it is busy (`ports_between`). -/
theorem hardResetDropsTheCommand : Obligations.HardResetDropsTheCommand := by
  intro s
  obtain ⟨hpos, hsink⟩ := hardReset_ports s
  have hidle (hb : s.blk.busy = false) : (hardReset s).srcPos = s.srcPos ∧ (hardReset s).snk = s.snk :=
    ⟨portPos_idle hb, portSink_idle hb⟩
  have hend (hb : s.blk.busy = true) (u : State) (hu : blockStep s = .next u) :
      (hardReset s).srcPos ≤ u.srcPos ∧ (hardReset s).snk <+: u.snk := ports_between hb hu
  exact ⟨hardReset s, rfl, atReset_reset, rfl, hpos, hsink, hidle, portPos_ge rfl, portSink_prefix rfl, hend⟩

end Sys2Proof.Machine
end
